-- ==== Sys2Proof/Word.lean ====
section
/-! DEFINITION. The word types of the block, the two-valued index of channels, slots and buffers, and the one
arithmetic helper the rules use everywhere. -/

namespace Sys2Proof

/-- A register, a pixel word or a DMA buffer word (20_memory.md R90). -/
abbrev Word := BitVec 32

/-- A gamma entry or one component of a pixel (10_state.md R48, R50). -/
abbrev Byte := BitVec 8

/-- The number of a channel, of a PWM slot or of a DMA buffer: `N_CHANNELS` = `N_SLOTS` = 2 (00_scope.md R11,
decision D5; log 20), and there are two buffers (10_state.md R53). -/
inductive Idx where
  | i0
  | i1
deriving DecidableEq, Repr, Inhabited

/-- The number as the spec writes it. -/
def Idx.toNat : Idx → Nat
  | .i0 => 0
  | .i1 => 1

/-- The other one: `1 - F` of 10_state.md R54. -/
def Idx.other : Idx → Idx
  | .i0 => .i1
  | .i1 => .i0

/-- Both numbers, in ascending order. -/
def Idx.all : List Idx := [.i0, .i1]

/-- One value for each channel, slot or buffer. -/
structure Pair (α : Type) where
  at0 : α
  at1 : α
deriving DecidableEq, Repr, Inhabited

/-- The value of number `i`. -/
def Pair.get {α : Type} (p : Pair α) : Idx → α
  | .i0 => p.at0
  | .i1 => p.at1

/-- `p` with the value of number `i` replaced. -/
def Pair.set {α : Type} (p : Pair α) (i : Idx) (v : α) : Pair α :=
  match i with
  | .i0 => { p with at0 := v }
  | .i1 => { p with at1 := v }

/-- The same value twice. -/
def Pair.both {α : Type} (v : α) : Pair α := ⟨v, v⟩

/-- `ceil_div(a, b)` = (a + b - 1) / b of 00_scope.md R16. The summands stand in this order so that unfolding it stops at `a`
and never counts `b` down, a million in 42_encoder.md R230 (`ceilDiv_eq`, Laws/State.lean). -/
def ceilDiv (a b : Nat) : Nat := (b - 1 + a) / b

end Sys2Proof
end

