-- ==== Sys2Proof/Syntax.lean ====
section
/-! DEFINITION. The commands: one constructor for each row of spec/opcode_table.json. -/

namespace Sys2Proof

/-- The two command ports (30_encoding.md R110): a word written to `CMD`, a word written to `PCMD`. -/
inductive Port where
  | main
  | pixel
deriving DecidableEq, Repr, Inhabited

/-- A command or a pixel-port operation. The fields are those of format `C` (R111, R112): `ch` is `CH` as the word holds it,
all four values of it; which of them name a channel is `Instr.wf` (WellFormed.lean). -/
inductive Instr where
  /-- `CFG c` (40_config.md R150). -/
  | cfg (ch : BitVec 2)
  /-- `INIT` (44_transport.md R280). -/
  | init
  /-- `SETBRIGHT c, b` (40_config.md R156). -/
  | setbright (ch : BitVec 2) (b : BitVec 24)
  /-- `GAMMAWR c, j, v` (40_config.md R160). -/
  | gammawr (ch : BitVec 2) (j : BitVec 8) (v : BitVec 8)
  /-- `RENDER` (44_transport.md R290). -/
  | render
  /-- `RENDERNB` (44_transport.md R300). -/
  | rendernb
  /-- `POLL` (44_transport.md R310). -/
  | poll
  /-- `FINI` (44_transport.md R315). -/
  | fini
  /-- `PIXRD c, i` (41_pixel.md R180). -/
  | pixrd (ch : BitVec 2) (i : BitVec 24)
  /-- `PIXWR c, i` (41_pixel.md R181). -/
  | pixwr (ch : BitVec 2) (i : BitVec 24)
  /-- `PIXLEN c` (41_pixel.md R182). -/
  | pixlen (ch : BitVec 2)
deriving DecidableEq, Repr, Inhabited

/-- The port a command is written to (R114, R115). -/
def Instr.port : Instr → Port
  | .cfg _ | .init | .setbright _ _ | .gammawr _ _ _ | .render | .rendernb | .poll | .fini => .main
  | .pixrd _ _ | .pixwr _ _ | .pixlen _ => .pixel

/-- A channel mirror register (10_state.md R42). -/
inductive Mirror where
  | gpio | freq | dma | flags | bright | strip | count | slot
deriving DecidableEq, Repr, Inhabited

/-- An argument register's number (10_state.md R32). -/
inductive ArgNo where
  | a0 | a1 | a2 | a3 | a4 | a5 | a6
deriving DecidableEq, Repr, Inhabited

/-- A register of the map of 20_memory.md R86. -/
inductive Reg where
  | cmd | status | arg (i : ArgNo) | result | seq | xerr
  | mirror (c : Idx) (m : Mirror)
  | pcmd | pstatus | pdata | presult
deriving DecidableEq, Repr, Inhabited

end Sys2Proof
end

