-- ==== Sys2Proof/Decode.lean ====
section
/-! DEFINITION. From a command word to a command (checks 1 to 3 of 30_encoding.md R118, in that order), and back.
Check 4, the range of `CH`, is `Instr.wf`: every command taking a channel makes it before anything else of its own
(Machine/Operands.lean, log 9), so that the order of R118 is kept and the words decoded here are those of the opcode table. -/

namespace Sys2Proof

/-- Why a word is no command: the check of R118 that fails first. The step answers each with `IllegalCommand`. -/
inductive DecodeError where
  /-- Check 1: `RSV` is not 0. -/
  | reservedBits
  /-- Check 2: `OP` is a reserved opcode of the port. -/
  | reservedOpcode
  /-- Check 3: a must-be-zero part of `CH` or `IMM` is not 0. -/
  | notZero
deriving DecidableEq, Repr, Inhabited

/-- `OP`, bits 31:28 (R111). -/
def opField (w : Word) : BitVec 4 := w.extractLsb' 28 4
/-- `RSV`, bits 27:26. -/
def rsvField (w : Word) : BitVec 2 := w.extractLsb' 26 2
/-- `CH`, bits 25:24. -/
def chField (w : Word) : BitVec 2 := w.extractLsb' 24 2
/-- `IMM`, bits 23:0. -/
def immField (w : Word) : BitVec 24 := w.extractLsb' 0 24

/-- Check 3 of R118: the command, if its must-be-zero part is 0. -/
def whenZero (mbzIsZero : Bool) (i : Instr) : Except DecodeError Instr :=
  if mbzIsZero then .ok i else .error .notZero

/-- The main-port opcode map (R114), with the must-be-zero parts of R112 and R118 check 3. -/
def decodeMain (op : BitVec 4) (ch : BitVec 2) (imm : BitVec 24) : Except DecodeError Instr :=
  match op.toNat with
  | 0x1 => whenZero (imm == 0) (.cfg ch)
  | 0x2 => whenZero (ch == 0 && imm == 0) .init
  | 0x3 => .ok (.setbright ch imm)
  | 0x4 => whenZero (imm.extractLsb' 16 8 == 0) (.gammawr ch (imm.extractLsb' 8 8) (imm.extractLsb' 0 8))
  | 0x5 => whenZero (ch == 0 && imm == 0) .render
  | 0x6 => whenZero (ch == 0 && imm == 0) .rendernb
  | 0x7 => whenZero (ch == 0 && imm == 0) .poll
  | 0x8 => whenZero (ch == 0 && imm == 0) .fini
  | _ => .error .reservedOpcode

/-- The pixel-port opcode map (R115). -/
def decodePixel (op : BitVec 4) (ch : BitVec 2) (imm : BitVec 24) : Except DecodeError Instr :=
  match op.toNat with
  | 0x1 => .ok (.pixrd ch imm)
  | 0x2 => .ok (.pixwr ch imm)
  | 0x3 => whenZero (imm == 0) (.pixlen ch)
  | _ => .error .reservedOpcode

/-- The command a word written to a port stands for, or the first of checks 1 to 3 it fails (R118). -/
def decode (port : Port) (w : Word) : Except DecodeError Instr :=
  if rsvField w = 0 then
    match port with
    | .main => decodeMain (opField w) (chField w) (immField w)
    | .pixel => decodePixel (opField w) (chField w) (immField w)
  else .error .reservedBits

/-- A word of format `C` from its fields, `RSV` being 0 (R111). -/
def formatC (op : BitVec 4) (ch : BitVec 2) (imm : BitVec 24) : Word := op ++ 0#2 ++ ch ++ imm

/-- The word a command assembles to (R114, R115, R140: named fields filled, every other field 0). -/
def encode : Instr → Word
  | .cfg ch => formatC 0x1 ch 0
  | .init => formatC 0x2 0 0
  | .setbright ch b => formatC 0x3 ch b
  | .gammawr ch j v => formatC 0x4 ch (0#8 ++ j ++ v)
  | .render => formatC 0x5 0 0
  | .rendernb => formatC 0x6 0 0
  | .poll => formatC 0x7 0 0
  | .fini => formatC 0x8 0 0
  | .pixrd ch i => formatC 0x1 ch i
  | .pixwr ch i => formatC 0x2 ch i
  | .pixlen ch => formatC 0x3 ch 0

/-- The port a word of the opcode table is written to when nothing but the word is given (log 9). Both ports give words
0x1…, 0x2… and 0x3… a meaning; the row that fixes more bits of the word is taken: `CFG` over `PIXRD`, `INIT` over `PIXWR`,
`PIXLEN` over `SETBRIGHT`. The machine itself never guesses: a host names the port by the address it stores to. -/
def tablePort (w : Word) : Port :=
  match decode .pixel w with
  | .ok (.pixlen _) => .pixel
  | .ok _ =>
    match decode .main w with
    | .ok _ => .main
    | .error _ => .pixel
  | .error _ => .main

/-- The word of a table row's number, whose bits above `nbits` are 0 (R110: every command is one 32-bit word). -/
def tableWord (nbits w : Nat) : Word := BitVec.ofNat 32 (w % 2 ^ nbits)

/-- The command the decoder reads from a table row's word. -/
def decodeTableWord (nbits w : Nat) : Option Instr :=
  let x := tableWord nbits w
  match decode (tablePort x) x with
  | .ok i => some i
  | .error _ => none

end Sys2Proof
end

