-- ==== Sys2Proof/Config.lean ====
section
/-! DEFINITION. The implementation parameters (00_scope.md R11), the values 95_test_vectors.md assumes for them,
the moves the environment makes (00_scope.md R18) with the draws they carry, and the free move. -/

namespace Sys2Proof

/-- How one instance is wired: `INSTANCE_ID(k)`, `PWM_CTRL(k)` and `REG_BASE(k)` (R11, 20_memory.md R81). -/
structure Wiring where
  id : Nat
  pwmCtrl : Nat
  regBase : Nat
deriving DecidableEq, Repr, Inhabited

/-- One PWM-capable pin: its slot (`PIN_SLOT`) and its alternate function (`PIN_ALT`). -/
structure PinInfo where
  pin : Nat
  slot : Idx
  alt : Nat
deriving DecidableEq, Repr, Inhabited

/-- The parameter table of R11. `N_INSTANCES` is the length of `wiring`. `PIN_SLOT` and `PIN_ALT` are the two columns of
`pins`, whose first row for a pin counts (log 25). `finiTimeout` is read by no rule: the abort point is a draw
(44_transport.md R317). `N_CHANNELS` and `N_SLOTS` are fixed at 2 by the type `Idx` (log 20). -/
structure Params where
  wiring : List Wiring
  maxPixels : Nat
  symLen : Nat
  oneCode : Nat
  zeroCode : Nat
  resetUs : Nat
  freqSet : List Nat
  dmaIdMax : Nat
  reservedDma : List Nat
  pins : List PinInfo
  finiTimeout : Nat
  xferErrors : Bool
deriving DecidableEq, Repr, Inhabited

/-- The values of R11's table and, for the `OPEN` ones, those 95_test_vectors.md assumes: the pins of R13 with the
alternate functions of 93 G8, no reserved DMA id, 1024 pixels.
DESIGN CHOICE (log 1, log 2): two instances with the ids, controllers and register bases written here, and
`FINI_TIMEOUT` 0, are the model's. -/
def Params.suggested : Params where
  wiring := [⟨0, 0, 0⟩, ⟨1, 1, 0x100⟩]
  maxPixels := 1024
  symLen := 3
  oneCode := 0b110
  zeroCode := 0b100
  resetUs := 300
  freqSet := [400000, 800000]
  dmaIdMax := 15
  reservedDma := []
  pins := [⟨12, .i0, 0⟩, ⟨18, .i0, 5⟩, ⟨40, .i0, 0⟩, ⟨52, .i0, 1⟩,
           ⟨13, .i1, 0⟩, ⟨19, .i1, 5⟩, ⟨41, .i1, 0⟩, ⟨45, .i1, 0⟩, ⟨53, .i1, 1⟩]
  finiTimeout := 0
  xferErrors := true

/-- What one drain step draws (44_transport.md R320): no error, or an error with the sub-bits each slot emits in its
place (R322, 93 U2). -/
inductive DrainDraw where
  | good
  | busError (bits : Pair (List Bool))
  | fifoUnderrun (bits : Pair (List Bool))
deriving DecidableEq, Repr, Inhabited

/-- One move of one agent (00_scope.md R18) with the draws of that step; the draws are inputs of the steps that take
them (10_state.md R61). -/
inductive Move where
  /-- `Host(h)` takes its next step. -/
  | host (h : Nat)
  /-- `Seq(k)` takes a step; `ok` is the start draw of R296, which no step but the start step reads. -/
  | seq (k : Nat) (ok : Bool)
  /-- `Seq(k)` takes the abort step of R317; `cut` is how much of the next word-step each slot still emits. -/
  | abort (k : Nat) (cut : Pair Nat)
  /-- `Drain(k)` takes a step. -/
  | drain (k : Nat) (e : DrainDraw)
deriving DecidableEq, Repr, Inhabited

/-- FREE VALUE (log 3): the move made when the schedule in State lists none, as a function of a counter in State. It
has no body, so nothing can be proved of which agent moves or what is drawn. -/
opaque Config.freeMove : Nat → Move

end Sys2Proof
end

