-- ==== Sys2Proof/Machine/State.lean ====
section
/-! DEFINITION. The machine's state as plain data (10_state.md), the reasons a step stops, and the state after reset
(70_reset_and_hazards.md R450). -/

namespace Sys2Proof.Machine

/-- A space of words of `w` bits indexed by number (20_memory.md R80): the entries that differ from what an unlisted
index reads as, strictly rising by index. What an unlisted index reads as is the reset contents of the space
(Machine/Memory.lean; log 10). -/
abbrev Memory (w : Nat) := List (Nat × BitVec w)

/-- The result codes 0 to 6 (60_exceptions.md R400); codes 7 to 15 are never written. -/
inductive Code where
  | ok
  | invalidConfiguration
  | resourceUnavailable
  | channelOverlap
  | transmitFailure
  | indexOutOfRange
  | illegalCommand
deriving DecidableEq, Repr, Inhabited

/-- `TSTATE` (10_state.md R55). -/
inductive TState where
  | uninit
  | ready
  | transmitting
deriving DecidableEq, Repr, Inhabited

/-- The level of an output line: `UNDRIVEN`, or driven at 0 or 1 (R59). -/
inductive Level where
  | undriven
  | driven (b : Bool)
deriving DecidableEq, Repr, Inhabited

/-- The argument registers `ARG0` to `ARG6` (R32). -/
structure Args where
  a0 : Word
  a1 : Word
  a2 : Word
  a3 : Word
  a4 : Word
  a5 : Word
  a6 : Word
deriving DecidableEq, Repr, Inhabited

/-- The three bits of `XERR` (R36); bits 31:3 read 0. -/
structure Xerr where
  startFail : Bool
  busError : Bool
  fifoUnderrun : Bool
deriving DecidableEq, Repr, Inhabited

/-- A channel configuration record `CH[c]` (R38). -/
structure Channel where
  valid : Bool
  gpio : Word
  freq : Word
  dma : Word
  invert : Bool
  bright : Byte
  strip : BitVec 9
  count : BitVec 24
  slot : Idx
deriving DecidableEq, Repr, Inhabited

/-- What a claim is on (R60): a GPIO pin, a slot of a PWM controller, a DMA channel. -/
inductive ClaimId where
  | pin (p : Nat)
  | pwm (ctrl : Nat) (slot : Idx)
  | dma (d : Nat)
deriving DecidableEq, Repr, Inhabited

/-- A pair of the claim registry (R60). -/
structure Claim where
  id : ClaimId
  owner : Nat
deriving DecidableEq, Repr, Inhabited

/-- Where a multi-step command stands (R57). A stream is a list of sub-bits in emission order. -/
inductive Phase where
  | enc (c : Idx) (i : Nat) (acc : Pair (List Bool))
  | build (streams : Pair (List Bool))
  | wait
  | start
  | finiWait
deriving DecidableEq, Repr, Inhabited

/-- The command in flight (R57): `cmd` holds the record's `op`, `ch` and `imm`, `args` the latched `ARG0`..`ARG6`. -/
structure InFlight where
  cmd : Instr
  args : Args
  phase : Phase
deriving DecidableEq, Repr, Inhabited

/-- One instance of the block (R30). `sq` = none is `IDLE`, which is `BUSY` = 0 (R57; log 11). `emitted` is no state of
the spec's: it holds the levels emitted on each slot's line so far, oldest first, which R471 says a run shows (log 15).
`mux` holds the alternate function of each pin this instance has programmed (44_transport.md R282; log 16). -/
structure Instance where
  args : Args
  result : Word
  resultCode : Code
  tstate : TState
  errpend : Bool
  seq : Word
  xerr : Xerr
  ch : Pair Channel
  gam : Pair (Memory 8)
  pix : Pair (Memory 32)
  pdata : Word
  presult : Word
  presultCode : Code
  buf : Pair (Memory 32)
  flen : Pair Nat
  front : Idx
  sq : Option InFlight
  dpos : Nat
  line : Pair Level
  mux : List (Nat × Nat)
  emitted : Pair (List Bool)
deriving DecidableEq, Repr, Inhabited

/-- What a host thread does next (30_encoding.md R140, R141). `store` and `load` are its accesses on the host bus, with
their width in bytes; the others are host-side steps that touch the block, if at all, through accesses they expand to.
`base` is the `REG_BASE` of the instance a sequence is for (log 26). -/
inductive HostOp where
  /-- A store of `v`, `size` bytes wide, at a byte address. -/
  | store (addr size : Nat) (v : Word)
  /-- A load, `size` bytes wide. -/
  | load (addr size : Nat)
  /-- `wait_idle`: read `STATUS` until `BUSY` reads 0. -/
  | waitIdle (base : Nat)
  /-- `setGamma c, T`: check `T`, then write it. -/
  | setGamma (base : Nat) (ch : BitVec 2) (table : List Nat)
  /-- `setRange c, s, vs`: ask for the length, then `rangeGuard`. -/
  | setRange (base : Nat) (ch : BitVec 2) (first : Nat) (vs : List Word)
  /-- The bounds check of `setRange` against the length just read. -/
  | rangeGuard (base : Nat) (ch : BitVec 2) (first : Nat) (vs : List Word)
  /-- `fill c, v, s, n`: as `setRange` of `n` copies. -/
  | fill (base : Nat) (ch : BitVec 2) (v : Word) (first n : Nat)
deriving DecidableEq, Repr, Inhabited

/-- A host thread (00_scope.md R18): what is left of its program, the value its last load read, and the result of its
last pseudo-instruction that checks its own bounds (30_encoding.md R142). -/
structure HostThread where
  prog : List HostOp
  rdata : Word
  pres : Code
deriving DecidableEq, Repr, Inhabited

/-- The whole system: the instances (60_exceptions.md R435), the claim registry they share (R60), and the model's own
fields: the parameters (no step writes them, log 1), the host threads (log 6), the instance the access being executed
addresses (log 7), the environment's next moves and the counter of its free moves (log 3). -/
structure State where
  params : Params
  insts : List Instance
  claims : List Claim
  hosts : List HostThread
  sel : Nat
  sched : List Move
  tick : Nat
deriving DecidableEq, Repr, Inhabited

/-- A step that stops the model. -/
inductive Fault where
  /-- Raised by every command when `sel` is no instance of the system, or one without wiring. Safe: no instance of the
  spec is addressed so; no access of a host thread leads there while each wiring has its instance (log 23). -/
  | noSuchInstance
deriving DecidableEq, Repr, Inhabited

/-- An access or a command the model gives no step. -/
inductive Refusal where
  /-- Raised by `exec` for a command not modelled yet. Safe. No arm of `exec` is so. -/
  | notModelled (mnemonic : String)
  /-- Raised by a host access to a reserved offset of `REGS(k)` (20_memory.md R87, 93 U5: refuse). Safe. -/
  | reservedOffset (off : Nat)
  /-- Raised by a host access that is misaligned or not 32 bits wide (R94, 93 U5: refuse). Safe. -/
  | badAccess (addr size : Nat)
  /-- Raised by a host access outside every `REGS(k)`, where the block has nothing (R80, R82). Safe. -/
  | unmapped (addr : Nat)
deriving DecidableEq, Repr, Inhabited

/-- The answer of a step. -/
abbrev Result := Host.Outcome State Fault Refusal

/-- `ARG0`..`ARG6` at reset (R32). -/
def Args.zero : Args := ⟨0, 0, 0, 0, 0, 0, 0⟩

/-- `XERR` = 0. -/
def Xerr.none : Xerr := ⟨false, false, false⟩

/-- `CH[c]` at reset (R38, R41; 70_reset_and_hazards.md R450). -/
def Channel.reset : Channel where
  valid := false
  gpio := 0
  freq := 0
  dma := 0
  invert := false
  bright := 255
  strip := 0x009
  count := 0
  slot := .i0

/-- An instance at power-on reset (R450). The empty memories read as the reset contents: `GAM[c][j]` = j, `PIX` and
`BUF` all 0. -/
def Instance.reset : Instance where
  args := .zero
  result := 0
  resultCode := .ok
  tstate := .uninit
  errpend := false
  seq := 0
  xerr := .none
  ch := .both .reset
  gam := .both []
  pix := .both []
  pdata := 0
  presult := 0
  presultCode := .ok
  buf := .both []
  flen := .both 0
  front := .i0
  sq := none
  dpos := 0
  line := .both .undriven
  mux := []
  emitted := .both []

/-- A host thread with nothing to do. -/
def HostThread.idle : HostThread := ⟨[], 0, .ok⟩

/-- The system at power-on reset, for given parameters: every instance in reset, `CLAIMS` empty (R450). No program is
loaded and no move is scheduled (log 3, log 6). -/
def State.resetWith (p : Params) : State where
  params := p
  insts := p.wiring.map fun _ => Instance.reset
  claims := []
  hosts := [.idle]
  sel := 0
  sched := []
  tick := 0

/-- The system at power-on reset, for the parameter values of 95_test_vectors.md (log 1, log 2). -/
def State.reset : State := .resetWith .suggested

end Sys2Proof.Machine
end

