-- ==== Sys2Proof/Machine/Memory.lean ====
section
/-! DEFINITION. Reading and writing the indexed spaces (20_memory.md R80, R95), and their canonical form. `d` is what an
unlisted index reads as. -/

namespace Sys2Proof.Machine

/-- `PIX` and `BUF` hold 0 at reset (10_state.md R50, R53). -/
def zeroFill : Nat → Word := fun _ => 0

/-- `GAM[c][j]` = j at reset (R48). -/
def identityTable : Nat → Byte := fun j => BitVec.ofNat 8 j

/-- The word at an index. -/
def Memory.read {w : Nat} (d : Nat → BitVec w) : Memory w → Nat → BitVec w
  | [], a => d a
  | (b, v) :: m, a => if a = b then v else Memory.read d m a

/-- The entry for an index put in front of a memory of higher indices: none where the value is what an unlisted index
reads as. -/
def Memory.cons {w : Nat} (d : Nat → BitVec w) (a : Nat) (v : BitVec w) (m : Memory w) : Memory w :=
  if v = d a then m else (a, v) :: m

/-- The memory with the word at one index replaced. -/
def Memory.write {w : Nat} (d : Nat → BitVec w) : Memory w → Nat → BitVec w → Memory w
  | [], a, v => Memory.cons d a v []
  | (b, u) :: m, a, v =>
    if a < b then Memory.cons d a v ((b, u) :: m)
    else if a = b then Memory.cons d a v m
    else (b, u) :: Memory.write d m a v

/-- Words written one after the other. -/
def Memory.writeAll {w : Nat} (d : Nat → BitVec w) (m : Memory w) : List (Nat × BitVec w) → Memory w
  | [] => m
  | (a, v) :: rest => Memory.writeAll d (Memory.write d m a v) rest

/-- The canonical form above a bound: indices from `lo` on, strictly rising, no entry equal to what an unlisted index
reads as. -/
def Memory.wfFrom {w : Nat} (d : Nat → BitVec w) : Nat → Memory w → Bool
  | _, [] => true
  | lo, (a, v) :: m => lo ≤ a && v != d a && Memory.wfFrom d (a + 1) m

/-- The canonical form: equal memories are equal lists. -/
def Memory.wf {w : Nat} (d : Nat → BitVec w) (m : Memory w) : Bool := Memory.wfFrom d 0 m

/-- Byte `n` of a word where it stands in byte-addressed memory: little-endian (R90). -/
def byteOf (v : Word) (n : Nat) : Byte := v.extractLsb' (8 * n) 8

/-- The word four bytes stand for, the first at the lowest address (R90). -/
def wordOf (b0 b1 b2 b3 : Byte) : Word := b3 ++ b2 ++ b1 ++ b0

end Sys2Proof.Machine
end

