-- ==== Sys2Proof/Machine/Ops.lean ====
section
/-! DEFINITION. The operations every command is written with: finding and replacing an instance, completing a command
with a result code, raising an error, and the two ways a command is issued. -/

namespace Sys2Proof.Machine

/-- Instance `k` with its wiring, if the system has it. -/
def State.inst? (s : State) (k : Nat) : Option (Wiring × Instance) :=
  match s.params.wiring[k]?, s.insts[k]? with
  | some w, some n => some (w, n)
  | _, _ => none

/-- The system with instance `k` replaced. -/
def State.setInst (s : State) (k : Nat) (n : Instance) : State := { s with insts := s.insts.set k n }

/-- `STATUS.BUSY`: a main-port command is in flight (10_state.md R34, R57). -/
def Instance.busy (n : Instance) : Bool := n.sq.isSome

/-- `finish(code)`: the command ends, `BUSY` and `SQ` are cleared, and the code is written (00_scope.md R17,
60_exceptions.md R400, R406). -/
def Instance.finish (n : Instance) (c : Code) : Instance := { n with resultCode := c, sq := none }

/-- `raise E` on the main port, this block's only way of taking an error: `finish(E)` before any other change, no trap,
no saved state, no mode change (00_scope.md R17, 60_exceptions.md R405, R406). There is nothing to return from (R407). -/
def Instance.raise (n : Instance) (e : Code) : Instance := n.finish e

/-- A pixel-port operation ends with a code (41_pixel.md R183). -/
def Instance.finishPixel (n : Instance) (c : Code) : Instance := { n with presultCode := c }

/-- The issue step of a main-port command at the addressed instance (30_encoding.md R116). While a command is in flight
the write is held: nothing changes (log 14). -/
def issueMain (s : State) (f : Wiring → Instance → State) : Result :=
  match s.inst? s.sel with
  | none => .fault .noSuchInstance
  | some (w, n) => if n.busy then .next s else .next (f w n)

/-- A main-port command that changes its own instance and nothing else. -/
def issueLocal (s : State) (f : Instance → Instance) : Result :=
  issueMain s fun _ n => s.setInst s.sel (f n)

/-- A pixel-port operation: one step, never held (41_pixel.md R184). -/
def issuePixel (s : State) (f : Instance → Instance) : Result :=
  match s.inst? s.sel with
  | none => .fault .noSuchInstance
  | some (_, n) => .next (s.setInst s.sel (f n))

/-- A word that fails the decode checks completes with `IllegalCommand` and changes nothing else (30_encoding.md R118,
41_pixel.md R183). -/
def issueIllegal (port : Port) (s : State) : Result :=
  match port with
  | .main => issueLocal s fun n => n.raise .illegalCommand
  | .pixel => issuePixel s fun n => n.finishPixel .illegalCommand

/-- The active channels, in ascending order (00_scope.md R20, 44_transport.md R280). -/
def Instance.active (n : Instance) : List Idx := Idx.all.filter fun c => (n.ch.get c).valid

/-- The active channel whose stream goes to slot `t` (43_frame_builder.md R251): the lowest, where a state no run reaches
has two. -/
def Instance.channelOn (n : Instance) (t : Idx) : Option Idx := n.active.find? fun c => (n.ch.get c).slot = t

/-- The level a line in use has between transmissions (10_state.md R59); a slot no active channel uses is not driven. -/
def Instance.idleLevel (n : Instance) (t : Idx) : Level :=
  match n.channelOn t with
  | some c => .driven (n.ch.get c).invert
  | none => .undriven

/-- Every line in use at its idle level, the others `UNDRIVEN`. -/
def Instance.idleLines (n : Instance) : Pair Level := ⟨n.idleLevel .i0, n.idleLevel .i1⟩

/-- Sub-bits put on a slot's line, in order (`emit`, 00_scope.md R17): the line keeps the level of the last one. -/
def Instance.emit (n : Instance) (t : Idx) (bits : List Bool) : Instance :=
  { n with
    line := match bits.getLast? with
      | some b => n.line.set t (.driven b)
      | none => n.line
    emitted := n.emitted.set t (n.emitted.get t ++ bits) }

end Sys2Proof.Machine
end

