-- ==== Sys2Proof/Machine/Operands.lean ====
section
/-! DEFINITION. Operands: the channel a command names, the argument registers, the strip descriptor, the parameter
look-ups, and the register map by offset. -/

namespace Sys2Proof.Machine

/-- The channel `CH` names, if it is below `N_CHANNELS`: check 4 of 30_encoding.md R118 (log 9). -/
def channelOf (ch : BitVec 2) : Option Idx :=
  if ch = 0 then some .i0 else if ch = 1 then some .i1 else none

/-- `n` with a command's effect on the channel it names, or `IllegalCommand` where `CH` names none; the check comes before
any of the command's own (R118). -/
def onChannel (ch : BitVec 2) (n : Instance) (f : Idx → Instance) : Instance :=
  match channelOf ch with
  | none => n.raise .illegalCommand
  | some c => f c

/-- The same for a pixel-port operation (41_pixel.md R183). -/
def onPixelChannel (ch : BitVec 2) (n : Instance) (f : Idx → Instance) : Instance :=
  match channelOf ch with
  | none => n.finishPixel .illegalCommand
  | some c => f c

/-- Argument register `i` (10_state.md R32). -/
def Args.get (a : Args) : ArgNo → Word
  | .a0 => a.a0 | .a1 => a.a1 | .a2 => a.a2 | .a3 => a.a3 | .a4 => a.a4 | .a5 => a.a5 | .a6 => a.a6

/-- A write of argument register `i`. -/
def Args.set (a : Args) (i : ArgNo) (v : Word) : Args :=
  match i with
  | .a0 => { a with a0 := v }
  | .a1 => { a with a1 := v }
  | .a2 => { a with a2 := v }
  | .a3 => { a with a3 := v }
  | .a4 => { a with a4 := v }
  | .a5 => { a with a5 := v }
  | .a6 => { a with a6 := v }

/-- `PIN_SLOT(p)`; none outside its domain, the PWM-capable pins (00_scope.md R11). -/
def pinSlot (p : Params) (pin : Nat) : Option Idx := (p.pins.find? fun r => r.pin == pin).map (·.slot)

/-- `PIN_ALT(p)` (R11). -/
def pinAlt (p : Params) (pin : Nat) : Option Nat := (p.pins.find? fun r => r.pin == pin).map (·.alt)

/-- `SELk` of a strip descriptor: the lane emitted as output byte `k` (30_encoding.md R130). -/
def stripSel (d : BitVec 9) (k : Nat) : Nat := (d.toNat >>> (2 * k)) % 4

/-- `N4`: four output bytes per pixel, else three (R130). -/
def stripFour (d : BitVec 9) : Bool := d.getLsbD 8

/-- Output bytes per pixel (42_encoder.md R218). -/
def stripBytes (d : BitVec 9) : Nat := if stripFour d then 4 else 3

/-- The numbers below `n` each occur among `l`. -/
def coversBelow (n : Nat) (l : List Nat) : Bool := (List.range n).all fun x => l.contains x

/-- The legal 9-bit descriptors (R131): with `N4` = 0, `SEL0..SEL2` a permutation of 0, 1, 2 and `SEL3` = 0; with `N4` = 1,
`SEL0..SEL3` a permutation of 0, 1, 2, 3. -/
def stripLegal (d : BitVec 9) : Bool :=
  if stripFour d then coversBelow 4 [stripSel d 0, stripSel d 1, stripSel d 2, stripSel d 3]
  else coversBelow 3 [stripSel d 0, stripSel d 1, stripSel d 2] && stripSel d 3 == 0

/-- `ARG5` of `CFG` is a legal descriptor: bits 31:9 are 0 and bits 8:0 legal (R131). -/
def stripWordLegal (v : Word) : Bool := v.toNat < 512 && stripLegal (v.extractLsb' 0 9)

/-- A host binding's translation of an upstream strip constant (30_encoding.md R133, 93 G7). A word that is none of the twelve
constants of G7 goes through the same formula, cut to 9 bits; the spec gives no translation of it (DESIGN CHOICE, log 32). -/
def stripOfUpstream (u : Word) : BitVec 9 :=
  let b (lo : Nat) : Nat := (u.extractLsb' lo 8).toNat
  let n4 := if b 24 ≠ 0 then 1 else 0
  BitVec.ofNat 9 (n4 <<< 8 ||| (b 24 / 8) <<< 6 ||| (b 0 / 8) <<< 4 ||| (b 8 / 8) <<< 2 ||| (b 16 / 8))

/-- The offsets of one channel's mirrors from `0x40 + 0x20·c` (20_memory.md R86). -/
def mirrorMap : List (Nat × Mirror) :=
  [(0x00, .gpio), (0x04, .freq), (0x08, .dma), (0x0C, .flags),
   (0x10, .bright), (0x14, .strip), (0x18, .count), (0x1C, .slot)]

/-- The register map (R86). -/
def regMap : List (Nat × Reg) :=
  [(0x00, .cmd), (0x04, .status), (0x08, .arg .a0), (0x0C, .arg .a1), (0x10, .arg .a2), (0x14, .arg .a3),
   (0x18, .arg .a4), (0x1C, .arg .a5), (0x20, .arg .a6), (0x24, .result), (0x28, .seq), (0x2C, .xerr)]
  ++ mirrorMap.map (fun r => (0x40 + r.1, .mirror .i0 r.2))
  ++ mirrorMap.map (fun r => (0x60 + r.1, .mirror .i1 r.2))
  ++ [(0x80, .pcmd), (0x84, .pstatus), (0x88, .pdata), (0x8C, .presult)]

/-- The register at an offset; none where the offset is reserved (R86). -/
def regAt (off : Nat) : Option Reg := regMap.lookup off

/-- The first window of 256 bytes an address falls in, counting from instance `k` (R80, R81), with the offset in it.
DESIGN CHOICE (log 30): `REG_BASE(k)` is open and no rule says that the windows of two instances are disjoint; where they
overlap, the lowest instance is reached. -/
def locateFrom (k : Nat) (addr : Nat) : List Wiring → Option (Nat × Nat)
  | [] => none
  | w :: ws =>
    if w.regBase ≤ addr ∧ addr < w.regBase + 256 then some (k, addr - w.regBase) else locateFrom (k + 1) addr ws

/-- The instance whose register space a byte address falls in, and the offset (R80, R81). -/
def locate (p : Params) (addr : Nat) : Option (Nat × Nat) := locateFrom 0 addr p.wiring

end Sys2Proof.Machine
end

