-- ==== Sys2Proof/Machine/Flags.lean ====
section
/-! DEFINITION. The status words: result codes as numbers, `STATUS`, `XERR`, `PSTATUS`, the channel mirrors, and what a
host reads in each register. -/

namespace Sys2Proof.Machine

/-- The number of a result code (60_exceptions.md R400). -/
def Code.num : Code → Nat
  | .ok => 0
  | .invalidConfiguration => 1
  | .resourceUnavailable => 2
  | .channelOverlap => 3
  | .transmitFailure => 4
  | .indexOutOfRange => 5
  | .illegalCommand => 6

/-- The number of a transport state (10_state.md R34). -/
def TState.num : TState → Nat
  | .uninit => 0
  | .ready => 1
  | .transmitting => 2

/-- A flag as a one-bit field. -/
def bit (b : Bool) : BitVec 1 := BitVec.ofBool b

/-- `STATUS` (R34): `RESULT_CODE` in 11:8, `ERRPEND` in 3, `BUSY` in 2, `STATE` in 1:0, every other bit 0. -/
def Instance.status (n : Instance) : Word :=
  0#20 ++ BitVec.ofNat 4 n.resultCode.num ++ 0#4 ++ bit n.errpend ++ bit n.busy ++ BitVec.ofNat 2 n.tstate.num

/-- `XERR` as a word (R36). -/
def Xerr.word (x : Xerr) : Word := 0#29 ++ bit x.fifoUnderrun ++ bit x.busError ++ bit x.startFail

/-- `XERR` is not 0. -/
def Xerr.any (x : Xerr) : Bool := x.startFail || x.busError || x.fifoUnderrun

/-- `PSTATUS` (R52). -/
def Instance.pstatus (n : Instance) : Word := 0#28 ++ BitVec.ofNat 4 n.presultCode.num

/-- A channel mirror (R42). -/
def Channel.mirror (r : Channel) : Mirror → Word
  | .gpio => r.gpio
  | .freq => r.freq
  | .dma => r.dma
  | .flags => bit r.valid ++ 0#30 ++ bit r.invert
  | .bright => r.bright.setWidth 32
  | .strip => r.strip.setWidth 32
  | .count => r.count.setWidth 32
  | .slot => BitVec.ofNat 32 r.slot.toNat

/-- What a host reads in a register; a write-only register reads 0 and no read changes anything (20_memory.md R88). -/
def Instance.readReg (n : Instance) : Reg → Word
  | .cmd | .pcmd => 0
  | .status => n.status
  | .arg i => n.args.get i
  | .result => n.result
  | .seq => n.seq
  | .xerr => n.xerr.word
  | .mirror c m => (n.ch.get c).mirror m
  | .pstatus => n.pstatus
  | .pdata => n.pdata
  | .presult => n.presult

/-- A host write of a register that issues nothing: `ARGi` and `PDATA` store the value, every other register ignores the
write (R88). -/
def Instance.writeReg (n : Instance) (r : Reg) (v : Word) : Instance :=
  match r with
  | .arg i => { n with args := n.args.set i v }
  | .pdata => { n with pdata := v }
  | .cmd | .status | .result | .seq | .xerr | .mirror _ _ | .pcmd | .pstatus | .presult => n

/-- The next handle: 0xFFFFFFFF is followed by 1 (10_state.md R35, 44_transport.md R296). -/
def nextSeq (q : Word) : Word := if q = 0xFFFFFFFF then 1 else q + 1

end Sys2Proof.Machine
end

