-- ==== Sys2Proof/Machine/Configure.lean ====
section
/-! DEFINITION. The configuration commands `CFG`, `SETBRIGHT` and `GAMMAWR` (40_config.md). -/

namespace Sys2Proof.Machine

/-- Which of the seven checks of 40_config.md R151 a `CFG` fails. -/
inductive CfgCheck where
  | pin | freq | dma | flags | bright | strip | count
deriving DecidableEq, Repr, Inhabited

/-- `validate` (R151): the first check that fails, in the rule's order. -/
def validate (p : Params) (a : Args) : Option CfgCheck :=
  if (pinSlot p a.a0.toNat).isNone then some .pin
  else if !p.freqSet.contains a.a1.toNat then some .freq
  else if p.dmaIdMax < a.a2.toNat || p.reservedDma.contains a.a2.toNat then some .dma
  else if a.a3.extractLsb' 1 31 ≠ 0 then some .flags
  else if 255 < a.a4.toNat then some .bright
  else if !stripWordLegal a.a5 then some .strip
  else if p.maxPixels < a.a6.toNat then some .count
  else none

/-- The record `CFG` stores (R150). -/
def cfgRecord (p : Params) (a : Args) : Channel where
  valid := true
  gpio := a.a0
  freq := a.a1
  dma := a.a2
  invert := a.a3.getLsbD 0
  bright := a.a4.extractLsb' 0 8
  strip := a.a5.extractLsb' 0 9
  count := a.a6.extractLsb' 0 24
  slot := (pinSlot p a.a0.toNat).getD .i0

/-- `CFG c` (R150): only in `UNINIT`; validated; the record is stored and every pixel of the channel becomes 0 (R153). The
gamma table stays. -/
def cfgInst (p : Params) (ch : BitVec 2) (n : Instance) : Instance :=
  onChannel ch n fun c =>
    if n.tstate ≠ .uninit then n.raise .illegalCommand
    else match validate p n.args with
      | some _ => n.raise .invalidConfiguration
      | none =>
        Instance.finish { n with ch := n.ch.set c (cfgRecord p n.args), pix := n.pix.set c [] } .ok

def execCfg (ch : BitVec 2) (s : State) : Result := issueLocal s (cfgInst s.params ch)

/-- `SETBRIGHT c, b` (R156): in every transport state; all 24 bits of `b` are range-checked. -/
def setbrightInst (ch : BitVec 2) (b : BitVec 24) (n : Instance) : Instance :=
  onChannel ch n fun c =>
    if 255 < b.toNat then n.raise .invalidConfiguration
    else Instance.finish { n with ch := n.ch.set c { n.ch.get c with bright := b.extractLsb' 0 8 } } .ok

def execSetbright (ch : BitVec 2) (b : BitVec 24) (s : State) : Result := issueLocal s (setbrightInst ch b)

/-- `GAMMAWR c, j, v` (R160): in every transport state. -/
def gammawrInst (ch : BitVec 2) (j v : BitVec 8) (n : Instance) : Instance :=
  onChannel ch n fun c =>
    Instance.finish { n with gam := n.gam.set c (Memory.write identityTable (n.gam.get c) j.toNat v) } .ok

def execGammawr (ch : BitVec 2) (j v : BitVec 8) (s : State) : Result := issueLocal s (gammawrInst ch j v)

end Sys2Proof.Machine
end

