-- ==== Sys2Proof/Machine/Pixel.lean ====
section
/-! DEFINITION. The pixel port `PIXRD`, `PIXWR`, `PIXLEN`, and the colour packing functions (41_pixel.md). -/

namespace Sys2Proof.Machine

/-- The index check of R183, and the effect of an index in range. -/
def onPixel (n : Instance) (c : Idx) (i : BitVec 24) (f : Instance) : Instance :=
  if (n.ch.get c).count ≤ i then n.finishPixel .indexOutOfRange else f

/-- `PIXRD c, i` (R180). -/
def pixrdInst (ch : BitVec 2) (i : BitVec 24) (n : Instance) : Instance :=
  onPixelChannel ch n fun c => onPixel n c i <|
    Instance.finishPixel { n with presult := Memory.read zeroFill (n.pix.get c) i.toNat } .ok

def execPixrd (ch : BitVec 2) (i : BitVec 24) (s : State) : Result := issuePixel s (pixrdInst ch i)

/-- `PIXWR c, i` (R181): all 32 bits of `PDATA` are stored. -/
def pixwrInst (ch : BitVec 2) (i : BitVec 24) (n : Instance) : Instance :=
  onPixelChannel ch n fun c => onPixel n c i <|
    Instance.finishPixel { n with pix := n.pix.set c (Memory.write zeroFill (n.pix.get c) i.toNat n.pdata) } .ok

def execPixwr (ch : BitVec 2) (i : BitVec 24) (s : State) : Result := issuePixel s (pixwrInst ch i)

/-- `PIXLEN c` (R182). -/
def pixlenInst (ch : BitVec 2) (n : Instance) : Instance :=
  onPixelChannel ch n fun c =>
    Instance.finishPixel { n with presult := (n.ch.get c).count.setWidth 32 } .ok

def execPixlen (ch : BitVec 2) (s : State) : Result := issuePixel s (pixlenInst ch)

/-- `PACK(r, g, b, w)` (R186): each component masked to 8 bits. -/
def pack (r g b w : Nat) : Word :=
  BitVec.ofNat 8 w ++ BitVec.ofNat 8 r ++ BitVec.ofNat 8 g ++ BitVec.ofNat 8 b

/-- `UNPACK(p)` (R187): (r, g, b, w). -/
def unpack (p : Word) : Byte × Byte × Byte × Byte :=
  (p.extractLsb' 16 8, p.extractLsb' 8 8, p.extractLsb' 0 8, p.extractLsb' 24 8)

end Sys2Proof.Machine
end

