-- ==== Sys2Proof/Machine/Encoder.lean ====
section
/-! DEFINITION. The bit encoder (42_encoder.md): gamma, brightness, byte order, line code, reset gap, and the encode step. -/

namespace Sys2Proof.Machine

/-- `bitsMSB(v, n)` (00_scope.md R15). -/
def bitsMSB (v n : Nat) : List Bool := (List.range n).map fun j => v.testBit (n - 1 - j)

/-- Component lane `x` of a pixel word: 0 blue, 1 green, 2 red, 3 white (42_encoder.md R213). -/
def lane (p : Word) (x : Nat) : Byte := p.extractLsb' (8 * x) 8

/-- The brightness scale (R214): a product and a division rounding down. -/
def scale (g bright : Byte) : Byte := BitVec.ofNat 8 (g.toNat * bright.toNat / 255)

/-- `scaled[x]`: lane `x` of a pixel looked up in the gamma table (R213), then scaled (R214). -/
def scaledLane (gam : Memory 8) (bright : Byte) (p : Word) (x : Nat) : Byte :=
  scale (Memory.read identityTable gam (lane p x).toNat) bright

/-- `out[0..n-1]`: the bytes of a pixel in emission order (R218). -/
def outBytes (gam : Memory 8) (bright : Byte) (strip : BitVec 9) (p : Word) : List Byte :=
  (List.range (stripBytes strip)).map fun k => scaledLane gam bright p (stripSel strip k)

/-- The symbol of one data bit (R219). -/
def symbol (p : Params) (b : Bool) : List Bool := bitsMSB (if b then p.oneCode else p.zeroCode) p.symLen

/-- A byte coded most significant bit first (R219). -/
def encodeByte (p : Params) (v : Byte) : List Bool := (bitsMSB v.toNat 8).flatMap (symbol p)

/-- `encodePixel(c, p)` (R219). -/
def encodePixel (p : Params) (r : Channel) (gam : Memory 8) (px : Word) : List Bool :=
  (outBytes gam r.bright r.strip px).flatMap (encodeByte p)

/-- `RESET_SUB(c)` (R230). -/
def resetSub (p : Params) (r : Channel) : Nat := ceilDiv (p.resetUs * r.freq.toNat * p.symLen) 1000000

/-- `resetGap(c)` (R230). -/
def resetGap (p : Params) (r : Channel) : List Bool := List.replicate (resetSub p r) false

/-- The serializer's rate in sub-bits per second (R220). No step reads it: the model keeps no time (log 21). -/
def serializerHz (p : Params) (r : Channel) : Nat := r.freq.toNat * p.symLen

/-- `stream(c)` for the pixel words read (R231): a pure function of them, of the gamma table and of the record (R210). -/
def streamOf (p : Params) (r : Channel) (gam : Memory 8) (pxs : List Word) : List Bool :=
  pxs.flatMap (encodePixel p r gam) ++ resetGap p r

/-- The channels after `c`. -/
def Idx.later : Idx → List Idx
  | .i0 => [.i1]
  | .i1 => []

/-- `next(c, acc)` (R211) over the channels still to come: the next active channel with pixels, each active channel without
pixels getting its reset gap on the way; `BUILD` when none is left. -/
def nextPhase (p : Params) (n : Instance) : List Idx → Pair (List Bool) → Phase
  | [], acc => .build acc
  | c :: cs, acc =>
    if (n.ch.get c).valid then
      if (n.ch.get c).count = 0 then nextPhase p n cs (acc.set c (resetGap p (n.ch.get c)))
      else .enc c 0 acc
    else nextPhase p n cs acc

/-- The first phase of a render: `ENC(first active channel, 0, [])` (44_transport.md R290). -/
def firstPhase (n : Instance) : Phase :=
  match n.active with
  | c :: _ => .enc c 0 (.both [])
  | [] => .build (.both [])

/-- One encode step (R211): one pixel word read. DEDUCED (log 12): the first active channel may have no pixels; its step
reads nothing and appends the reset gap. -/
def encPhase (p : Params) (n : Instance) (c : Idx) (i : Nat) (acc : Pair (List Bool)) : Phase :=
  let r := n.ch.get c
  if i < r.count.toNat then
    let bits := acc.get c ++ encodePixel p r (n.gam.get c) (Memory.read zeroFill (n.pix.get c) i)
    if i + 1 < r.count.toNat then .enc c (i + 1) (acc.set c bits)
    else nextPhase p n (Idx.later c) (acc.set c (bits ++ resetGap p r))
  else nextPhase p n (Idx.later c) (acc.set c (acc.get c ++ resetGap p r))

end Sys2Proof.Machine
end

