-- ==== Sys2Proof/Machine/FrameBuilder.lean ====
section
/-! DEFINITION. The DMA frame builder (43_frame_builder.md). -/

namespace Sys2Proof.Machine

/-- `slotWord(s, w)` of a slot's stream `t` (R253): sub-bit `32w + m` in bit `31 - m`, 0 past the end of the stream. -/
def slotWord (t : List Bool) (w : Nat) : Word :=
  BitVec.ofNat 32 <| (List.range 32).foldl (fun a m => 2 * a + ((t.drop (32 * w)).getD m false).toNat) 0

/-- The stream placed in a slot (R251): `[]` where no active channel uses it. -/
def slotStream (n : Instance) (acc : Pair (List Bool)) (t : Idx) : List Bool :=
  match n.channelOn t with
  | some c => acc.get c
  | none => []

/-- `W`, the word-steps of a frame (R252). -/
def frameSteps (n : Instance) (acc : Pair (List Bool)) : Nat :=
  (n.active.map fun c => ceilDiv (acc.get c).length 32).foldl max 0

/-- The words of a frame with their indices, interleaved slot by slot (R255). -/
def frameWords (n : Instance) (acc : Pair (List Bool)) : List (Nat × Word) :=
  (List.range (frameSteps n acc)).flatMap fun w =>
    [(2 * w, slotWord (slotStream n acc .i0) w), (2 * w + 1, slotWord (slotStream n acc .i1) w)]

/-- The build step (R250, R255): the frame into the back buffer, its length into `FLEN`; words past the frame keep their
old values. -/
def buildFrame (n : Instance) (acc : Pair (List Bool)) : Instance :=
  let b := n.front.other
  { n with
    buf := n.buf.set b (Memory.writeAll zeroFill (n.buf.get b) (frameWords n acc))
    flen := n.flen.set b (frameSteps n acc) }

/-- `RESET_SUB_MAX` (10_state.md R53). -/
def resetSubMax (p : Params) : Nat := ceilDiv (p.resetUs * p.freqSet.foldl max 0 * p.symLen) 1000000

/-- `STEPS_MAX`, the capacity of a buffer in word-steps (R53). -/
def stepsMax (p : Params) : Nat := ceilDiv (p.maxPixels * 32 * p.symLen + resetSubMax p) 32

end Sys2Proof.Machine
end

