-- ==== Sys2Proof/Machine/Transport.lean ====
section
/-! DEFINITION. `INIT`, `RENDER`, `RENDERNB`, `POLL` and `FINI`, the steps of the sequencer and of the drain
(44_transport.md). -/

namespace Sys2Proof.Machine

/-- Every pair of the active channels agrees on a field. -/
def Instance.agree (n : Instance) (f : Channel → Word) : Bool :=
  n.active.all fun c => n.active.all fun d => f (n.ch.get c) == f (n.ch.get d)

/-- `crossValidate(A)` passes (R281). -/
def crossValid (n : Instance) : Bool := !n.active.isEmpty && n.agree (·.freq) && n.agree (·.dma)

/-- `overlapCheck(A)` fails (R283): two distinct active channels on one slot. -/
def overlaps (n : Instance) : Bool :=
  n.active.any fun c => n.active.any fun d => c != d && (n.ch.get c).slot == (n.ch.get d).slot

/-- `claimSet(A)` (R284), as a list. -/
def claimSet (w : Wiring) (n : Instance) : List ClaimId :=
  n.active.map (fun c => .pin (n.ch.get c).gpio.toNat)
  ++ Idx.all.map (fun t => .pwm w.pwmCtrl t)
  ++ n.active.map (fun c => .dma (n.ch.get c).dma.toNat)

/-- `CLAIMS ∪ { (id, me) }` (R285). -/
def addClaims (cs : List Claim) (ids : List ClaimId) (me : Nat) : List Claim :=
  ids.foldl (fun acc i => if acc.contains ⟨i, me⟩ then acc else acc ++ [⟨i, me⟩]) cs

/-- Some id is in the registry, whoever owns it (R284). -/
def claimed (cs : List Claim) (ids : List ClaimId) : Bool := cs.any fun x => ids.contains x.id

/-- The pins of the active channels with the alternate function programmed for each (R282). -/
def muxOf (p : Params) (n : Instance) : List (Nat × Nat) :=
  n.active.map fun c => ((n.ch.get c).gpio.toNat, (pinAlt p (n.ch.get c).gpio.toNat).getD 0)

/-- `INIT` (R280), one atomic step: the state check, then R281, R283 and R284 in that order; the claims are made in the
same step (R285). -/
def initStep (s : State) (w : Wiring) (n : Instance) : State :=
  if n.tstate ≠ .uninit then s.setInst s.sel (n.raise .illegalCommand)
  else if !crossValid n then s.setInst s.sel (n.raise .invalidConfiguration)
  else if overlaps n then s.setInst s.sel (n.raise .channelOverlap)
  else if claimed s.claims (claimSet w n) then s.setInst s.sel (n.raise .resourceUnavailable)
  else
    { s with claims := addClaims s.claims (claimSet w n) w.id }.setInst s.sel
      (Instance.finish { n with tstate := .ready, line := n.idleLines, mux := muxOf s.params n } .ok)

def execInit (s : State) : Result := issueMain s (initStep s)

/-- A render's issue step (R290, R291): refused in `UNINIT`, else the encode phase begins and `BUSY` is set. -/
def renderIssue (cmd : Instr) (n : Instance) : Instance :=
  if n.tstate = .uninit then n.raise .illegalCommand
  else { n with sq := some ⟨cmd, n.args, firstPhase n⟩ }

def execRender (s : State) : Result := issueLocal s (renderIssue .render)

/-- `RENDERNB` (R300): issued as `RENDER`; it differs at its start step. -/
def execRendernb (s : State) : Result := issueLocal s (renderIssue .rendernb)

/-- `POLL` (R310). -/
def pollInst (n : Instance) : Instance :=
  let h := n.args.a0
  if n.tstate = .uninit then n.raise .illegalCommand
  else if h = 0 ∨ n.seq = 0 then n.raise .illegalCommand
  else if h ≠ n.seq then Instance.finish { n with result := 3 } .ok
  else if n.tstate = .transmitting then Instance.finish { n with result := 0 } .ok
  else if n.xerr.any then Instance.finish { n with result := 2, errpend := false } .ok
  else Instance.finish { n with result := 1 } .ok

def execPoll (s : State) : Result := issueLocal s pollInst

/-- `teardown()` (R316): the code is `TransmitFailure` where an abort or an unreported error is to be told; the instance's
own claims are released (R318); every state of the instance returns to its reset value but `RESULT_CODE` (R452), and
what its lines have emitted stays emitted (log 15). -/
def teardown (s : State) (k : Nat) (w : Wiring) (n : Instance) (aborted : Bool) : State :=
  { s with claims := s.claims.filter fun x => x.owner != w.id }.setInst k
    { Instance.reset with
      resultCode := if aborted || n.errpend then .transmitFailure else .ok
      emitted := n.emitted }

/-- `FINI` (R315): a no-op in `UNINIT` (R319), a wait while transmitting, else the teardown. -/
def finiStep (s : State) (w : Wiring) (n : Instance) : State :=
  match n.tstate with
  | .uninit => s.setInst s.sel (n.finish .ok)
  | .transmitting => s.setInst s.sel { n with sq := some ⟨.fini, n.args, .finiWait⟩ }
  | .ready => teardown s s.sel w n false

def execFini (s : State) : Result := issueMain s (finiStep s)

/-- `start(blocking)` (R296, R297, R300), where `ok` is the start draw. -/
def startFrame (p : Params) (n : Instance) (blocking ok : Bool) : Instance :=
  let q := nextSeq n.seq
  let n := { n with front := n.front.other, seq := q, xerr := .none }
  if ok || !p.xferErrors then
    let n := { n with tstate := .transmitting, dpos := 0 }
    if blocking then n.finish .ok else Instance.finish { n with result := q } .ok
  else
    let n := { n with xerr := { n.xerr with startFail := true } }
    if blocking then n.finish .transmitFailure
    else Instance.finish { n with errpend := true, result := q } .ok

/-- The start phase of a render (R290): an error not yet reported is reported instead of starting (R293). -/
def startPhase (p : Params) (n : Instance) (cmd : Instr) (ok : Bool) : Instance :=
  if n.errpend then Instance.finish { n with errpend := false } .transmitFailure
  else startFrame p n (cmd != .rendernb) ok

/-- The instance with the command in flight in another phase. -/
def Instance.toPhase (n : Instance) (q : InFlight) (ph : Phase) : Instance := { n with sq := some { q with phase := ph } }

/-- One step of `Seq(k)` with a command in flight. A phase that holds takes no step (R292, R315). -/
def seqStep (s : State) (k : Nat) (w : Wiring) (n : Instance) (q : InFlight) (ok : Bool) : State :=
  match q.phase with
  | .enc c i acc => s.setInst k (n.toPhase q (encPhase s.params n c i acc))
  | .build acc => s.setInst k ((buildFrame n acc).toPhase q .wait)
  | .wait => if n.tstate = .transmitting then s else s.setInst k (n.toPhase q .start)
  | .start => if n.tstate = .transmitting then s else s.setInst k (startPhase s.params n q.cmd ok)
  | .finiWait => if n.tstate = .transmitting then s else teardown s k w n false

/-- `Seq(k)` is offered a step: with no command in flight it takes none. -/
def seqMove (k : Nat) (ok : Bool) (s : State) : State :=
  match s.inst? k with
  | none => s
  | some (w, n) =>
    match n.sq with
    | none => s
    | some q => seqStep s k w n q ok

/-- The sub-bits word-step `DPOS` of the front buffer puts on a slot's line (R320): bit 31 first, each XOR `invert`;
nothing on a slot no active channel uses. -/
def stepBits (n : Instance) (t : Idx) : List Bool :=
  match n.channelOn t with
  | none => []
  | some c =>
    (bitsMSB (Memory.read zeroFill (n.buf.get n.front) (2 * n.dpos + t.toNat)).toNat 32).map
      fun b => b ^^ (n.ch.get c).invert

/-- The sub-bits an erroring word-step puts on a slot's line (R322, 93 U2): any, up to 32; nothing on a slot not in use. -/
def errorBits (n : Instance) (bits : Pair (List Bool)) (t : Idx) : List Bool :=
  match n.channelOn t with
  | none => []
  | some _ => (bits.get t).take 32

/-- Both slots emit in parallel. -/
def Instance.emitBoth (n : Instance) (f : Idx → List Bool) : Instance := (n.emit .i0 (f .i0)).emit .i1 (f .i1)

/-- A word-step without error (R320), and the end of the frame after the last one (R321). -/
def drainGood (n : Instance) : Instance :=
  let m := { n.emitBoth (stepBits n) with dpos := n.dpos + 1 }
  if m.dpos = n.flen.get n.front then { m with tstate := .ready, line := n.idleLines } else m

/-- A word-step that draws an error (R322). -/
def drainError (n : Instance) (x : Xerr) (bits : Pair (List Bool)) : Instance :=
  { n.emitBoth (errorBits n bits) with
    xerr := x
    errpend := true
    tstate := .ready
    line := n.idleLines }

/-- One step of `Drain(k)` with the draw `e`, which is none where errors are not admitted (R320, R11 `XFER_ERRORS`). -/
def drainInst (p : Params) (n : Instance) (e : DrainDraw) : Instance :=
  match if p.xferErrors then e else .good with
  | .good => drainGood n
  | .busError bits => drainError n { n.xerr with busError := true } bits
  | .fifoUnderrun bits => drainError n { n.xerr with fifoUnderrun := true } bits

/-- The drain has a word-step to emit (R320). -/
def Instance.draining (n : Instance) : Bool := n.tstate == .transmitting && n.dpos < n.flen.get n.front

/-- `Drain(k)` is offered a step. -/
def drainMove (k : Nat) (e : DrainDraw) (s : State) : State :=
  match s.inst? k with
  | none => s
  | some (_, n) => if n.draining then s.setInst k (drainInst s.params n e) else s

/-- What the drain still emits when it is stopped (R317, 93 U3): the first `cut` sub-bits of the next word-step (log 17). -/
def cutBits (n : Instance) (cut : Pair Nat) (t : Idx) : List Bool :=
  if n.draining then (stepBits n t).take (cut.get t) else []

/-- `abort()` (R317): enabled at every point of `FINI_WAIT`; the drain stops and the teardown reports the abort. -/
def abortMove (k : Nat) (cut : Pair Nat) (s : State) : State :=
  match s.inst? k with
  | none => s
  | some (w, n) =>
    match n.sq with
    | some ⟨_, _, .finiWait⟩ => teardown s k w (n.emitBoth (cutBits n cut)) true
    | _ => s

end Sys2Proof.Machine
end

