-- ==== Sys2Proof/Machine/Dispatch.lean ====
section
/-! DEFINITION. One arm per command: what it does when it is issued at the instance `sel` of the state. -/

namespace Sys2Proof.Machine

def exec (i : Instr) (s : State) : Host.Outcome State Fault Refusal :=
  match i with
  | .cfg ch => Sys2Proof.Machine.execCfg ch s
  | .init => Sys2Proof.Machine.execInit s
  | .setbright ch b => Sys2Proof.Machine.execSetbright ch b s
  | .gammawr ch j v => Sys2Proof.Machine.execGammawr ch j v s
  | .render => Sys2Proof.Machine.execRender s
  | .rendernb => Sys2Proof.Machine.execRendernb s
  | .poll => Sys2Proof.Machine.execPoll s
  | .fini => Sys2Proof.Machine.execFini s
  | .pixrd ch x => Sys2Proof.Machine.execPixrd ch x s
  | .pixwr ch x => Sys2Proof.Machine.execPixwr ch x s
  | .pixlen ch => Sys2Proof.Machine.execPixlen ch s

end Sys2Proof.Machine
end

