-- ==== Sys2Proof/Machine/HostPort.lean ====
section
/-! DEFINITION. The host threads: their accesses to the register space (20_memory.md R86-R94), the issue of the words they
store to `CMD` and `PCMD` (30_encoding.md R116, R118), and the pseudo-instructions (R140-R142). -/

namespace Sys2Proof.Machine

/-- A word written to a port of the instance `sel` is decoded, and the command runs or completes with `IllegalCommand`
(R118). -/
def issueWord (port : Port) (v : Word) (s : State) : Result :=
  match decode port v with
  | .ok i => exec i s
  | .error _ => issueIllegal port s

/-- The system with host thread `h` replaced. -/
def State.setHost (s : State) (h : Nat) (t : HostThread) : State := { s with hosts := s.hosts.set h t }

/-- What an access reaches: an instance and one of its registers, or the reason there is none (R86, R87, R94). -/
def accessReg (p : Params) (addr size : Nat) : Except Refusal (Nat × Reg) :=
  match locate p addr with
  | none => .error (.unmapped addr)
  | some (k, off) =>
    if size ≠ 4 ∨ off % 4 ≠ 0 then .error (.badAccess addr size)
    else match regAt off with
      | none => .error (.reservedOffset off)
      | some r => .ok (k, r)

/-- A write of a register of instance `k` by thread `h`, which `t` becomes when the write is done. A write of `CMD` while
the instance is busy is held: the thread takes no step (30_encoding.md R116, D29). -/
def storeReg (h : Nat) (t : HostThread) (k : Nat) (r : Reg) (v : Word) (s : State) : Result :=
  match s.inst? k with
  | none => .fault .noSuchInstance
  | some (_, n) =>
    match r with
    | .cmd => if n.busy then .next s else issueWord .main v { s.setHost h t with sel := k }
    | .pcmd => issueWord .pixel v { s.setHost h t with sel := k }
    | _ => .next ((s.setHost h t).setInst k (n.writeReg r v))

/-- A read of a register of instance `k` by thread `h`: the value goes to the thread, nothing else changes (R88). `f` says
what the thread becomes. -/
def loadReg (h : Nat) (k : Nat) (r : Reg) (f : Word → HostThread) (s : State) : Result :=
  match s.inst? k with
  | none => .fault .noSuchInstance
  | some (_, n) => .next (s.setHost h (f (n.readReg r)))

/-- The assembler's `wr` (R140). -/
def asmWr (base off : Nat) (v : Word) : HostOp := .store (base + off) 4 v

/-- The assembler's `rd` (R140). -/
def asmRd (base off : Nat) : HostOp := .load (base + off) 4

/-- The assembler's command forms: the word of R114 or R115, written to the command's port (R140). -/
def asmCmd (base : Nat) (i : Instr) : HostOp :=
  asmWr base (match i.port with | .main => 0x00 | .pixel => 0x80) (encode i)

/-- `configure c, pin, f, d, inv, b, st, n` (R141). -/
def asmConfigure (base : Nat) (ch : BitVec 2) (pin f d inv b st n : Word) : List HostOp :=
  [asmWr base 0x08 pin, asmWr base 0x0C f, asmWr base 0x10 d, asmWr base 0x14 inv, asmWr base 0x18 b,
   asmWr base 0x1C st, asmWr base 0x20 n, asmCmd base (.cfg ch)]

/-- `setBrightness c, b` (R141). -/
def asmSetBrightness (base : Nat) (ch : BitVec 2) (b : BitVec 24) : List HostOp := [asmCmd base (.setbright ch b)]

/-- `setGamma c, T` (R141): a host step that expands to `GAMMAWR`s. -/
def asmSetGamma (base : Nat) (ch : BitVec 2) (table : List Nat) : List HostOp := [.setGamma base ch table]

/-- `init` (R141). -/
def asmInit (base : Nat) : List HostOp := [asmCmd base .init]

/-- `render` (R141). -/
def asmRender (base : Nat) : List HostOp := [asmCmd base .render, .waitIdle base]

/-- `renderNB` (R141): the handle is the value read. -/
def asmRenderNB (base : Nat) : List HostOp := [asmCmd base .rendernb, .waitIdle base, asmRd base 0x24]

/-- `poll h` (R141). -/
def asmPoll (base : Nat) (h : Word) : List HostOp := [asmWr base 0x08 h, asmCmd base .poll, asmRd base 0x24]

/-- `fini` (R141). -/
def asmFini (base : Nat) : List HostOp := [asmCmd base .fini, .waitIdle base]

/-- `get c, i` (R141). -/
def asmGet (base : Nat) (ch : BitVec 2) (i : BitVec 24) : List HostOp :=
  [asmCmd base (.pixrd ch i), asmRd base 0x84, asmRd base 0x8C]

/-- `set c, i, v` (R141). -/
def asmSet (base : Nat) (ch : BitVec 2) (i : BitVec 24) (v : Word) : List HostOp :=
  [asmWr base 0x88 v, asmCmd base (.pixwr ch i), asmRd base 0x84]

/-- `len c` (R141). -/
def asmLen (base : Nat) (ch : BitVec 2) : List HostOp := [asmCmd base (.pixlen ch), asmRd base 0x8C]

/-- `setRange c, s, [v0..]` (R141). -/
def asmSetRange (base : Nat) (ch : BitVec 2) (first : Nat) (vs : List Word) : List HostOp := [.setRange base ch first vs]

/-- `fill c, v, s, n` (R141). -/
def asmFill (base : Nat) (ch : BitVec 2) (v : Word) (first n : Nat) : List HostOp := [.fill base ch v first n]

/-- `Color(r, g, b, w)` (R141). -/
def asmColor (r g b w : Nat) : Word := pack r g b w

/-- The `GAMMAWR`s of `setGamma`, from entry `j` on (R141). -/
def gammaOps (base : Nat) (ch : BitVec 2) : Nat → List Nat → List HostOp
  | _, [] => []
  | j, v :: vs => asmCmd base (.gammawr ch (BitVec.ofNat 8 j) (BitVec.ofNat 8 v)) :: gammaOps base ch (j + 1) vs

/-- The `set`s of `setRange`, from index `i` on, in ascending order (R141). An index that does not
fit the 24 bits of `IMM` is taken modulo 2^24; the spec is silent there (DESIGN CHOICE, log 31). -/
def rangeOps (base : Nat) (ch : BitVec 2) : Nat → List Word → List HostOp
  | _, [] => []
  | i, v :: vs => asmSet base ch (BitVec.ofNat 24 i) v ++ rangeOps base ch (i + 1) vs

/-- `setGamma`'s check: 256 entries, none above 255 (R142). -/
def gammaTableOk (table : List Nat) : Bool := table.length == 256 && table.all (fun v => v ≤ 255)

/-- One step of a host thread with `op` next and `rest` after it (R18, R140-R142). -/
def hostOp (h : Nat) (t : HostThread) (op : HostOp) (rest : List HostOp) (s : State) : Result :=
  match op with
  | .store addr size v =>
    match accessReg s.params addr size with
    | .error e => .refused e
    | .ok (k, r) => storeReg h { t with prog := rest } k r v s
  | .load addr size =>
    match accessReg s.params addr size with
    | .error e => .refused e
    | .ok (k, r) => loadReg h k r (fun v => { t with prog := rest, rdata := v }) s
  | .waitIdle base =>
    match accessReg s.params (base + 0x04) 4 with
    | .error e => .refused e
    | .ok (k, r) =>
      loadReg h k r (fun v => { t with prog := if v.getLsbD 2 then op :: rest else rest, rdata := v }) s
  | .setGamma base ch table =>
    .next <| s.setHost h <|
      if gammaTableOk table then { t with prog := gammaOps base ch 0 table ++ rest, pres := .ok }
      else { t with prog := rest, pres := .invalidConfiguration }
  | .setRange base ch first vs =>
    .next <| s.setHost h { t with prog := asmLen base ch ++ .rangeGuard base ch first vs :: rest }
  | .rangeGuard base ch first vs =>
    .next <| s.setHost h <|
      if first + vs.length ≤ t.rdata.toNat then { t with prog := rangeOps base ch first vs ++ rest, pres := .ok }
      else { t with prog := rest, pres := .indexOutOfRange }
  | .fill base ch v first n =>
    .next <| s.setHost h { t with prog := .setRange base ch first (List.replicate n v) :: rest }

/-- `Host(h)` is offered a step; a thread whose program is done takes none. -/
def hostMove (h : Nat) (s : State) : Result :=
  match s.hosts[h]? with
  | none => .next s
  | some t =>
    match t.prog with
    | [] => .next s
    | op :: rest => hostOp h t op rest s

/-- One move of one agent (00_scope.md R18). An agent that has no step, or whose step is held, leaves everything as it is
(log 5). -/
def perform (m : Move) (s : State) : Result :=
  match m with
  | .host h => hostMove h s
  | .seq k ok => .next (seqMove k ok s)
  | .abort k cut => .next (abortMove k cut s)
  | .drain k e => .next (drainMove k e s)

/-- The register space address of a port of instance 0. -/
def portAddr (p : Params) (port : Port) : Nat :=
  (match p.wiring with | [] => 0 | w :: _ => w.regBase) + (match port with | .main => 0x00 | .pixel => 0x80)

/-- The first thread's program with one operation put in front. -/
def pushOp (op : HostOp) : List HostThread → List HostThread
  | [] => [{ HostThread.idle with prog := [op] }]
  | t :: ts => { t with prog := op :: t.prog } :: ts

/-- Instance 0 with no main-port command in flight, so that its main port accepts the next word (R116). -/
def freePort : List Instance → List Instance
  | [] => []
  | n :: ns => { n with sq := none } :: ns

/-- The state whose next step is the first host thread's store of a word to a port of instance 0. -/
def placeWord (port : Port) (v : Word) (s : State) : State :=
  { s with
    hosts := pushOp (.store (portAddr s.params port) 4 v) s.hosts
    sched := .host 0 :: s.sched
    insts := match port with | .main => freePort s.insts | .pixel => s.insts }

end Sys2Proof.Machine
end

