-- ==== Sys2Proof/Machine/Step.lean ====
section
/-! DEFINITION. One step of the system: the next move of the schedule, or a free one (log 3). -/

namespace Sys2Proof.Machine

/-- One step: the first move of `sched`; when it lists none, the free move of `tick`, which nothing constrains. -/
def step (s : State) : Host.Outcome State Fault Refusal :=
  match s.sched with
  | m :: ms => perform m { s with sched := ms }
  | [] => perform (Config.freeMove s.tick) { s with tick := s.tick + 1 }

/-- The state whose very next step issues the word of a table row at instance 0, on the port `tablePort` gives
(log 6, log 9). -/
def State.withFetchWord (s : State) (nbits w : Nat) : State :=
  placeWord (tablePort (tableWord nbits w)) (tableWord nbits w) s

end Sys2Proof.Machine
end

