-- ==== Sys2Proof/Machine/Runs.lean ====
section
/-! DEFINITION. Runs of the system: which agents have a step and which take one, weak fairness (70_reset_and_hazards.md
R470), and where a run ends and what it shows (R471). A run is an unbounded sequence of states, no part of State. -/

namespace Sys2Proof.Machine

/-- The move the next step makes. -/
def State.nextMove (s : State) : Move :=
  match s.sched with
  | m :: _ => m
  | [] => Config.freeMove s.tick

/-- The state the next move is made in: the schedule, or the counter of the free moves, has gone on by one. -/
def State.moved (s : State) : State :=
  match s.sched with
  | _ :: ms => { s with sched := ms }
  | [] => { s with tick := s.tick + 1 }

/-- The next step stores the word of command `i` to that command's port of instance `k` (30_encoding.md R110, R140). Where a
main-port command is in flight the store is held (R116). -/
def State.Issues (s : State) (k : Nat) (i : Instr) : Prop :=
  ∃ (h : Nat) (th : HostThread) (addr : Nat) (v : Word) (rest : List HostOp),
    s.nextMove = .host h ∧ s.hosts[h]? = some th ∧ th.prog = .store addr 4 v :: rest
      ∧ locate s.params addr = some (k, match i.port with | .main => 0x00 | .pixel => 0x80)
      ∧ decode i.port v = .ok i

/-- `Seq(k)` has a step other than the abort: an encode or build phase always; `WAIT`, `START` and `FINI_WAIT` when no
transmission is in flight (42_encoder.md R211, 44_transport.md R292, R296, R315). -/
def Instance.seqReady (n : Instance) : Bool :=
  match n.sq with
  | none => false
  | some q =>
    match q.phase with
    | .enc _ _ _ | .build _ => true
    | .wait | .start | .finiWait => n.tstate != .transmitting

/-- The abort is enabled: at every point of `FINI_WAIT` (44_transport.md R317). -/
def Instance.abortReady (n : Instance) : Bool :=
  match n.sq with
  | none => false
  | some q => q.phase == .finiWait

/-- A step of `Seq(k)` is enabled; the abort is one of its steps (R317). -/
def State.seqEnabled (s : State) (k : Nat) : Bool :=
  match s.inst? k with
  | some (_, n) => n.seqReady || n.abortReady
  | none => false

/-- The step of `Drain(k)` is enabled (44_transport.md R320). -/
def State.drainEnabled (s : State) (k : Nat) : Bool :=
  match s.inst? k with
  | some (_, n) => n.draining
  | none => false

/-- The next step is one that `Seq(k)` takes. -/
def State.seqTakes (s : State) (k : Nat) : Bool :=
  match s.inst? k with
  | some (_, n) =>
    match s.nextMove with
    | .seq j _ => j == k && n.seqReady
    | .abort j _ => j == k && n.abortReady
    | .host _ | .drain _ _ => false
  | none => false

/-- The next step is one that `Drain(k)` takes. -/
def State.drainTakes (s : State) (k : Nat) : Bool :=
  match s.inst? k with
  | some (_, n) =>
    match s.nextMove with
    | .drain j _ => j == k && n.draining
    | .host _ | .seq _ _ | .abort _ _ => false
  | none => false

/-- A run: each state is what the step answers at the one before. -/
def IsRun (r : Nat → State) : Prop := ∀ i, step (r i) = .next (r (i + 1))

/-- Weak fairness (R470): if from some point on a step of the agent stays enabled, the agent takes one from there on. -/
def WeaklyFair (enabled takes : State → Bool) (r : Nat → State) : Prop :=
  ∀ i, (∀ j, i ≤ j → enabled (r j) = true) → ∃ j, i ≤ j ∧ takes (r j) = true

/-- The fairness of R470, which is the block's pace (00_scope.md R18, 60_exceptions.md R425): weak fairness of every `Seq(k)`
and every `Drain(k)`. Host threads are not assumed fair. Not every run is fair: this is a premise of claims about progress
(log 3). -/
def FairRun (r : Nat → State) : Prop :=
  ∀ k, WeaklyFair (·.seqEnabled k) (·.seqTakes k) r ∧ WeaklyFair (·.drainEnabled k) (·.drainTakes k) r

/-- A run of instance `k` ends at this state (R471): `BUSY` = 0, `TSTATE` is not `TRANSMITTING`, and no host has a further
access to issue. The model reads the last as: every thread's program is empty. A thread whose only step left is the host's
own and will issue nothing (a `setGamma` or `rangeGuard` that fails) keeps the run from its end (DESIGN CHOICE, log 33). The
step goes on after the end (log 3), but changes nothing of the instance any more. -/
def State.ended (s : State) (k : Nat) : Bool :=
  match s.inst? k with
  | some (_, n) => !n.busy && n.tstate != .transmitting && s.hosts.all fun t => t.prog.isEmpty
  | none => false

/-- What a run of an instance shows (R471): its final state, and for each slot the levels emitted on its line. -/
def Instance.shown (n : Instance) : Instance × Pair (List Bool) := ({ n with emitted := .both [] }, n.emitted)

end Sys2Proof.Machine
end

