-- ==== Sys2Proof/WellFormed.lean ====
section
/-! DEFINITION. Which commands are well formed (check 4 of 30_encoding.md R118) and which parameter values the spec
describes (00_scope.md R11, R12). -/

namespace Sys2Proof

/-- `CH` names a channel: `CH` < `N_CHANNELS` (30_encoding.md R111, R118 check 4). -/
def chOk (ch : BitVec 2) : Bool := ch.toNat < 2

/-- A command is well formed when the channel it names exists. Every other field admits every value of its width (R112). -/
def Instr.wf : Instr → Bool
  | .cfg ch | .setbright ch _ | .gammawr ch _ _ | .pixrd ch _ | .pixwr ch _ | .pixlen ch => chOk ch
  | .init | .render | .rendernb | .poll | .fini => true

/-- The number of leading 1 sub-bits of an `n`-sub-bit code, first sub-bit in the most significant bit. -/
def leadingOnes (code : Nat) : Nat → Nat
  | 0 => 0
  | n + 1 => if code.testBit n then leadingOnes code n + 1 else 0

/-- The constraints on the line code (R12). -/
def Params.codesOk (p : Params) : Bool :=
  2 ≤ p.symLen
    && p.oneCode.testBit (p.symLen - 1) && !p.oneCode.testBit 0 && p.oneCode < 2 ^ p.symLen
    && p.zeroCode.testBit (p.symLen - 1) && !p.zeroCode.testBit 0 && p.zeroCode < 2 ^ p.symLen
    && leadingOnes p.zeroCode p.symLen < leadingOnes p.oneCode p.symLen

/-- Two register windows of 256 bytes (20_memory.md R80) do not meet. -/
def Wiring.apart (a b : Wiring) : Bool := a.regBase + 256 ≤ b.regBase || b.regBase + 256 ≤ a.regBase

/-- The instances are wired apart: at least one and identities distinct (R11), and register windows disjoint. The last is
DESIGN CHOICE (log 30): `REG_BASE(k)` is open (20_memory.md R81) and no rule excludes windows that overlap. -/
def Params.wiringOk (p : Params) : Bool :=
  !p.wiring.isEmpty
    && decide (p.wiring.Pairwise fun a b => (a.id != b.id && a.apart b) = true)

/-- The parameter values the claims are about: R11's ranges, R12's constraints, and windows that do not overlap, which is
the model's (log 30). -/
def Params.wf (p : Params) : Bool :=
  p.codesOk && p.wiringOk
    && 1 ≤ p.resetUs
    && !p.freqSet.isEmpty && p.freqSet.all (fun f => 0 < f)
    && 1 ≤ p.maxPixels && p.maxPixels ≤ 2 ^ 24 - 1
    && p.reservedDma.all (fun d => d ≤ 15)

end Sys2Proof
end

