-- ==== Sys2Proof/Safety.lean ====
section
/-! DEFINITION. What counts as a safe run, and the invariants that claims are stated in terms of. -/

namespace Sys2Proof.Machine

/-- A step is safe when it answers a next state: no fault, no refusal. -/
def State.safe (s : State) : Prop := ∃ t, step s = .next t

/-- The main port of the addressed instance accepts the next command (30_encoding.md R116). -/
def State.accepts (s : State) (w : Wiring) (n : Instance) : Prop := s.inst? s.sel = some (w, n) ∧ n.sq = none

/-- Every memory of an instance is in canonical form. -/
def Instance.memWf (n : Instance) : Prop :=
  ∀ i, Memory.wf identityTable (n.gam.get i) = true ∧ Memory.wf zeroFill (n.pix.get i) = true
    ∧ Memory.wf zeroFill (n.buf.get i) = true

/-- Every memory of the system is in canonical form. -/
def State.memWf (s : State) : Prop := ∀ n ∈ s.insts, n.memWf

/-- A channel record is one `CFG` can have stored, or the channel is unconfigured with no pixels (10_state.md R38, 41_pixel.md R183); no pixel
past its length has been written (R50). -/
def Channel.ok (p : Params) (r : Channel) (pix : Memory 32) : Prop :=
  (∀ e ∈ pix, e.1 < r.count.toNat) ∧
  (if r.valid then
    pinSlot p r.gpio.toNat = some r.slot ∧ r.freq.toNat ∈ p.freqSet
      ∧ r.dma.toNat ≤ p.dmaIdMax ∧ r.dma.toNat ∉ p.reservedDma
      ∧ stripLegal r.strip = true ∧ r.count.toNat ≤ p.maxPixels
  else r.count = 0)

/-- What holds of a render's phase (R57): the encode position is within the channel, the streams already made are not empty,
a built frame has a word-step. -/
def Phase.ok (n : Instance) : Phase → Prop
  | .enc c i acc =>
    (n.ch.get c).valid = true ∧ (i = 0 ∨ i < (n.ch.get c).count.toNat)
      ∧ ∀ d, d.toNat < c.toNat → (n.ch.get d).valid = true → acc.get d ≠ []
  | .build acc => ∀ d, (n.ch.get d).valid = true → acc.get d ≠ []
  | .wait | .start => 0 < n.flen.get n.front.other
  | .finiWait => True

/-- The transport of one instance is consistent:
in `UNINIT` everything the transport owns has its reset value (44_transport.md R286, R316);
out of `UNINIT` the configuration is one `INIT` accepts (R281, R283), and immutable (10_state.md R39);
while transmitting there is a handle, a word-step left to emit and no error (R296, R320, R36);
between transmissions the lines are idle (R59); an unreported error has its kind in `XERR` (R36, R56). -/
structure Instance.Consistent (p : Params) (n : Instance) : Prop where
  channels : ∀ c, (n.ch.get c).ok p (n.pix.get c)
  uninit : n.tstate = .uninit →
    n.sq = none ∧ n.seq = 0 ∧ n.xerr = .none ∧ n.errpend = false ∧ n.buf = .both [] ∧ n.flen = .both 0
      ∧ n.front = .i0 ∧ n.dpos = 0 ∧ n.line = .both .undriven ∧ n.mux = []
  configured : n.tstate ≠ .uninit → crossValid n = true ∧ overlaps n = false
  transmitting : n.tstate = .transmitting →
    n.seq ≠ 0 ∧ n.xerr = .none ∧ n.errpend = false ∧ n.dpos < n.flen.get n.front
  ready : n.tstate = .ready → n.line = n.idleLines
  pending : n.errpend = true → n.xerr.any = true
  flight : ∀ q, n.sq = some q →
    q.phase.ok n ∧ (q.cmd = .render ∨ q.cmd = .rendernb ∨ q.cmd = .fini) ∧ (q.cmd = .fini ↔ q.phase = .finiWait)

/-- The transport of every instance is consistent, for parameters in the ranges of `Params.wf`. -/
def State.Transport (s : State) : Prop :=
  s.params.wf = true ∧ ∀ k w n, s.inst? k = some (w, n) → n.Consistent s.params

/-- The claim registry (10_state.md R60, 44_transport.md R284): at most one pair for each id; every pair belongs to an
initialised instance and is one `INIT` claims for it; an initialised instance holds all of these. So an instance in
`UNINIT` owns no claim. -/
structure State.ClaimsOk (s : State) : Prop where
  wiring : s.params.wiringOk = true
  wired : s.insts.length = s.params.wiring.length
  once : s.claims.Pairwise fun a b => a.id ≠ b.id
  owned : ∀ x ∈ s.claims, ∃ k w n, s.inst? k = some (w, n) ∧ x.owner = w.id ∧ n.tstate ≠ .uninit ∧ x.id ∈ claimSet w n
  held : ∀ k w n, s.inst? k = some (w, n) → n.tstate ≠ .uninit → ∀ i ∈ claimSet w n, ⟨i, w.id⟩ ∈ s.claims

end Sys2Proof.Machine
end

