-- ==== Sys2Proof/Certificates/Slice0/Obligations.lean ====
section
/-! DEFINITION. The statements for the provers. Most come from the numbered rules of spec/, each named in the docstring. -/

open Sys2Proof Sys2Proof.Machine

/-! ### Command words -/

/-- Assembling a command and decoding its word gives it back, with every field at every value (30_encoding.md §3, §5). -/
def Obligations.DecodeInvertsEncode : Prop :=
  ∀ i : Instr, decode i.port (encode i) = .ok i

/-- A word a port accepts is the word of the command it stands for, and no other port's (30_encoding.md §2). -/
def Obligations.EncodeInvertsDecode : Prop :=
  ∀ (port : Port) (v : Word) (i : Instr), decode port v = .ok i → i.port = port ∧ encode i = v

/-- The first of checks 1 to 3 that fails decides (30_encoding.md §3). -/
def Obligations.DecodeChecksInOrder : Prop :=
  ∀ (port : Port) (v : Word) (top : Nat), top = (match port with | .main => 8 | .pixel => 3) →
    (v.extractLsb' 26 2 ≠ 0 → decode port v = .error .reservedBits)
    ∧ (v.extractLsb' 26 2 = 0 → ((v.extractLsb' 28 4).toNat = 0 ∨ top < (v.extractLsb' 28 4).toNat) →
        decode port v = .error .reservedOpcode)
    ∧ (v.extractLsb' 26 2 = 0 → 1 ≤ (v.extractLsb' 28 4).toNat → (v.extractLsb' 28 4).toNat ≤ top →
        (∀ i : Instr, i.port = port → encode i ≠ v) → decode port v = .error .notZero)

/-- Words of 95_test_vectors.md V-W1, each with the command it stands for. -/
def Obligations.SpecWordsDecode : Prop :=
  decode .main 0x11000000 = .ok (.cfg 1) ∧ decode .main 0x20000000 = .ok .init
    ∧ decode .main 0x310000FF = .ok (.setbright 1 255) ∧ decode .main 0x41001003 = .ok (.gammawr 1 0x10 0x03)
    ∧ decode .main 0x50000000 = .ok .render ∧ decode .main 0x60000000 = .ok .rendernb
    ∧ decode .main 0x70000000 = .ok .poll ∧ decode .main 0x80000000 = .ok .fini
    ∧ decode .pixel 0x11000009 = .ok (.pixrd 1 9) ∧ decode .pixel 0x20FFFFFF = .ok (.pixwr 0 0xFFFFFF)
    ∧ decode .pixel 0x31000000 = .ok (.pixlen 1)

/-! ### A step runs the command written to a port -/

/-- When the next move is a host thread's store to `CMD` of an instance that is not busy and the word decodes to `i`, the
step is `exec i`, at that instance, with the store taken off the thread's program (30_encoding.md §3; that the instance
addressed stands in `sel` is the model's, log 7). -/
def Obligations.StepRunsMainCommand : Prop :=
  ∀ (s : State) (ms : List Move) (h : Nat) (th : HostThread) (addr : Nat) (v : Word) (rest : List HostOp) (k : Nat)
    (w : Wiring) (n : Instance) (i : Instr),
    s.sched = .host h :: ms → s.hosts[h]? = some th → th.prog = .store addr 4 v :: rest →
    locate s.params addr = some (k, 0x00) → s.inst? k = some (w, n) → n.sq = none → decode .main v = .ok i →
    step s = exec i { s with sched := ms, hosts := s.hosts.set h { th with prog := rest }, sel := k }

/-- The same for a store to `PCMD`, which is never held (41_pixel.md, common rules). -/
def Obligations.StepRunsPixelOperation : Prop :=
  ∀ (s : State) (ms : List Move) (h : Nat) (th : HostThread) (addr : Nat) (v : Word) (rest : List HostOp) (k : Nat)
    (w : Wiring) (n : Instance) (i : Instr),
    s.sched = .host h :: ms → s.hosts[h]? = some th → th.prog = .store addr 4 v :: rest →
    locate s.params addr = some (k, 0x80) → s.inst? k = some (w, n) → decode .pixel v = .ok i →
    step s = exec i { s with sched := ms, hosts := s.hosts.set h { th with prog := rest }, sel := k }

/-- A store to `CMD` while a command is in flight is held: the thread keeps it, and nothing changes but that the move is
used up (30_encoding.md §3; that a held move is used up is the model's, log 5). -/
def Obligations.BusyPortHoldsTheWrite : Prop :=
  ∀ (s : State) (ms : List Move) (h : Nat) (th : HostThread) (addr : Nat) (v : Word) (rest : List HostOp) (k : Nat)
    (w : Wiring) (n : Instance),
    s.sched = .host h :: ms → s.hosts[h]? = some th → th.prog = .store addr 4 v :: rest →
    locate s.params addr = some (k, 0x00) → s.inst? k = some (w, n) → n.sq ≠ none →
    step s = .next { s with sched := ms }

/-- A word that fails a decode check completes with `IllegalCommand` in its port's code and changes nothing else of any
instance (30_encoding.md §3, 41_pixel.md common rules). -/
def Obligations.IllegalWordOnlySetsCode : Prop :=
  ∀ (s : State) (ms : List Move) (h : Nat) (th : HostThread) (addr : Nat) (v : Word) (rest : List HostOp) (k : Nat)
    (w : Wiring) (n : Instance) (e : DecodeError),
    s.sched = .host h :: ms → s.hosts[h]? = some th → th.prog = .store addr 4 v :: rest → s.inst? k = some (w, n) →
    (locate s.params addr = some (k, 0x00) → n.sq = none → decode .main v = .error e →
      step s = .next { s with
        sched := ms, hosts := s.hosts.set h { th with prog := rest }, sel := k
        insts := s.insts.set k { n with resultCode := .illegalCommand } })
    ∧ (locate s.params addr = some (k, 0x80) → decode .pixel v = .error e →
      step s = .next { s with
        sched := ms, hosts := s.hosts.set h { th with prog := rest }, sel := k
        insts := s.insts.set k { n with presultCode := .illegalCommand } })

/-- A command whose `CH` is not below `N_CHANNELS` completes with `IllegalCommand` and no other effect, in every transport
state (check 4 of 30_encoding.md §3). -/
def Obligations.ChannelOutOfRangeIsIllegal : Prop :=
  ∀ (i : Instr) (s : State) (w : Wiring) (n : Instance), i.wf = false → s.inst? s.sel = some (w, n) →
    (i.port = .main → n.sq = none →
      exec i s = .next { s with insts := s.insts.set s.sel { n with resultCode := .illegalCommand } })
    ∧ (i.port = .pixel →
      exec i s = .next { s with insts := s.insts.set s.sel { n with presultCode := .illegalCommand } })

/-! ### Registers -/

/-- 20_memory.md R86 and R88. The offset of every register; every other offset is reserved. A load gives the thread the
register's value and changes nothing else; `CMD` and `PCMD` read 0. A store to `ARGi` or `PDATA` only stores the value; a
store to a read-only register changes no instance; a store to `CMD` or `PCMD` issues the word. And what the registers
read: `ARGi`, `RESULT`, `SEQ`, `PDATA` and `PRESULT` their values, `XERR` its three bits (10_state.md §3), `PSTATUS` the
pixel port's code (§6); `STATUS` and the mirrors are in the two statements that follow. -/
def Obligations.RegisterAccesses : Prop :=
  (∀ (s : State) (ms : List Move) (h : Nat) (th : HostThread) (addr off : Nat) (v : Word) (rest : List HostOp) (k : Nat)
    (w : Wiring) (n : Instance) (r : Reg),
    s.sched = .host h :: ms → s.hosts[h]? = some th → locate s.params addr = some (k, off) → regAt off = some r →
    s.inst? k = some (w, n) →
    (th.prog = .load addr 4 :: rest →
      step s = .next { s with
        sched := ms, hosts := s.hosts.set h { th with prog := rest, rdata := n.readReg r } })
    ∧ (r = .cmd ∨ r = .pcmd → n.readReg r = 0)
    ∧ (th.prog = .store addr 4 v :: rest →
      match r with
      | .arg i => ∃ a : Args,
          step s = .next { s with
            sched := ms, hosts := s.hosts.set h { th with prog := rest }, insts := s.insts.set k { n with args := a } }
          ∧ a.get i = v ∧ ∀ j, j ≠ i → a.get j = n.args.get j
      | .pdata =>
          step s = .next { s with
            sched := ms, hosts := s.hosts.set h { th with prog := rest }, insts := s.insts.set k { n with pdata := v } }
      | .cmd => n.sq = none →
          step s = issueWord .main v { s with sched := ms, hosts := s.hosts.set h { th with prog := rest }, sel := k }
      | .pcmd =>
          step s = issueWord .pixel v { s with sched := ms, hosts := s.hosts.set h { th with prog := rest }, sel := k }
      | _ => step s = .next { s with sched := ms, hosts := s.hosts.set h { th with prog := rest } }))
  ∧ (∀ n : Instance,
    n.readReg (.arg .a0) = n.args.a0 ∧ n.readReg (.arg .a1) = n.args.a1 ∧ n.readReg (.arg .a2) = n.args.a2
    ∧ n.readReg (.arg .a3) = n.args.a3 ∧ n.readReg (.arg .a4) = n.args.a4 ∧ n.readReg (.arg .a5) = n.args.a5
    ∧ n.readReg (.arg .a6) = n.args.a6
    ∧ n.readReg .result = n.result ∧ n.readReg .seq = n.seq ∧ n.readReg .pdata = n.pdata
    ∧ n.readReg .presult = n.presult
    ∧ (n.readReg .xerr).getLsbD 0 = n.xerr.startFail
    ∧ (n.readReg .xerr).getLsbD 1 = n.xerr.busError
    ∧ (n.readReg .xerr).getLsbD 2 = n.xerr.fifoUnderrun
    ∧ (n.readReg .xerr).extractLsb' 3 29 = 0
    ∧ (n.readReg .pstatus).extractLsb' 0 4 = (match n.presultCode with
        | .ok => 0 | .invalidConfiguration => 1 | .resourceUnavailable => 2 | .channelOverlap => 3
        | .transmitFailure => 4 | .indexOutOfRange => 5 | .illegalCommand => 6)
    ∧ (n.readReg .pstatus).extractLsb' 4 28 = 0)
  ∧ (let map : List (Nat × Reg) :=
      [(0x00, .cmd), (0x04, .status), (0x08, .arg .a0), (0x0C, .arg .a1), (0x10, .arg .a2), (0x14, .arg .a3),
       (0x18, .arg .a4), (0x1C, .arg .a5), (0x20, .arg .a6), (0x24, .result), (0x28, .seq), (0x2C, .xerr)]
      ++ [(0x40, .mirror .i0 .gpio), (0x44, .mirror .i0 .freq), (0x48, .mirror .i0 .dma), (0x4C, .mirror .i0 .flags),
       (0x50, .mirror .i0 .bright), (0x54, .mirror .i0 .strip), (0x58, .mirror .i0 .count), (0x5C, .mirror .i0 .slot)]
      ++ [(0x60, .mirror .i1 .gpio), (0x64, .mirror .i1 .freq), (0x68, .mirror .i1 .dma), (0x6C, .mirror .i1 .flags),
       (0x70, .mirror .i1 .bright), (0x74, .mirror .i1 .strip), (0x78, .mirror .i1 .count), (0x7C, .mirror .i1 .slot)]
      ++ [(0x80, .pcmd), (0x84, .pstatus), (0x88, .pdata), (0x8C, .presult)]
    ∀ off r, regAt off = some r ↔ (off, r) ∈ map)

/-- A misaligned or non-32-bit access, and an access to a reserved offset, have no step: they are refused (20_memory.md §2,
§4). Which reason is named, and that an access that is misaligned as well as at a reserved offset is named `badAccess`, is
the model's choice (log 8). -/
def Obligations.UndefinedAccessesAreRefused : Prop :=
  ∀ (s : State) (ms : List Move) (h : Nat) (th : HostThread) (addr off size : Nat) (v : Word) (rest : List HostOp) (k : Nat),
    s.sched = .host h :: ms → s.hosts[h]? = some th → locate s.params addr = some (k, off) →
    (th.prog = .store addr size v :: rest ∨ th.prog = .load addr size :: rest) →
    (size ≠ 4 ∨ off % 4 ≠ 0 → step s = .refused (.badAccess addr size))
    ∧ (size = 4 → off % 4 = 0 → ((0x30 ≤ off ∧ off < 0x40) ∨ 0x90 ≤ off) → step s = .refused (.reservedOffset off))

/-- 10_state.md R34: the fields of `STATUS`, its reserved bits, that writes are ignored, and that it resets to 0. -/
def Obligations.StatusWordFields : Prop :=
  (∀ n : Instance,
    (n.readReg .status).extractLsb' 0 2 = (match n.tstate with | .uninit => 0 | .ready => 1 | .transmitting => 2)
    ∧ (n.readReg .status).getLsbD 2 = n.sq.isSome
    ∧ (n.readReg .status).getLsbD 3 = n.errpend
    ∧ (n.readReg .status).extractLsb' 4 4 = 0
    ∧ (n.readReg .status).extractLsb' 8 4 = (match n.resultCode with
        | .ok => 0 | .invalidConfiguration => 1 | .resourceUnavailable => 2 | .channelOverlap => 3
        | .transmitFailure => 4 | .indexOutOfRange => 5 | .illegalCommand => 6)
    ∧ (n.readReg .status).extractLsb' 12 20 = 0
    ∧ ∀ v, n.writeReg .status v = n)
  ∧ Instance.reset.readReg .status = 0

/-- 10_state.md R42: the bits of the channel mirrors, that writes are ignored, and their reset values. -/
def Obligations.ChannelMirrors : Prop :=
  (∀ (n : Instance) (c : Idx),
    n.readReg (.mirror c .gpio) = (n.ch.get c).gpio
    ∧ n.readReg (.mirror c .freq) = (n.ch.get c).freq
    ∧ n.readReg (.mirror c .dma) = (n.ch.get c).dma
    ∧ (n.readReg (.mirror c .flags)).getLsbD 0 = (n.ch.get c).invert
    ∧ (n.readReg (.mirror c .flags)).extractLsb' 1 30 = 0
    ∧ (n.readReg (.mirror c .flags)).getLsbD 31 = (n.ch.get c).valid
    ∧ (n.readReg (.mirror c .bright)).toNat = (n.ch.get c).bright.toNat
    ∧ (n.readReg (.mirror c .strip)).toNat = (n.ch.get c).strip.toNat
    ∧ (n.readReg (.mirror c .count)).toNat = (n.ch.get c).count.toNat
    ∧ (n.readReg (.mirror c .slot)).toNat = (n.ch.get c).slot.toNat
    ∧ ∀ m v, n.writeReg (.mirror c m) v = n)
  ∧ ∀ c m, Instance.reset.readReg (.mirror c m) = (match m with | .bright => 255 | .strip => 0x009 | _ => 0)

/-! ### Configuration commands -/

/-- A valid `CFG` in `UNINIT` stores the record; every pixel of the channel reads 0; nothing else changes but the code
(40_config.md R153 and the pseudocode of `CFG`). -/
def Obligations.CfgStoresRecord : Prop :=
  ∀ (s : State) (w : Wiring) (n : Instance) (ch : BitVec 2) (c t : Idx), s.accepts w n → ch.toNat = c.toNat →
    n.tstate = .uninit → pinSlot s.params n.args.a0.toNat = some t → n.args.a1.toNat ∈ s.params.freqSet →
    n.args.a2.toNat ≤ s.params.dmaIdMax → n.args.a2.toNat ∉ s.params.reservedDma → n.args.a3.toNat ≤ 1 →
    n.args.a4.toNat ≤ 255 → n.args.a5.toNat < 512 → stripLegal (n.args.a5.setWidth 9) = true →
    n.args.a6.toNat ≤ s.params.maxPixels →
    ∃ m : Memory 32,
      exec (.cfg ch) s = .next { s with insts := s.insts.set s.sel { n with
        ch := n.ch.set c
          { valid := true, gpio := n.args.a0, freq := n.args.a1, dma := n.args.a2, invert := n.args.a3.getLsbD 0,
            bright := n.args.a4.setWidth 8, strip := n.args.a5.setWidth 9, count := n.args.a6.setWidth 24, slot := t }
        pix := n.pix.set c m
        resultCode := .ok } }
      ∧ ∀ i, Memory.read zeroFill m i = 0

/-- 40_config.md R151: each of the seven checks that fails makes `CFG` in `UNINIT` end with `InvalidConfiguration` and no
state change. -/
def Obligations.CfgRejectsInvalid : Prop :=
  ∀ (s : State) (w : Wiring) (n : Instance) (ch : BitVec 2), s.accepts w n → ch.toNat < 2 → n.tstate = .uninit →
    (pinSlot s.params n.args.a0.toNat = none ∨ n.args.a1.toNat ∉ s.params.freqSet
      ∨ s.params.dmaIdMax < n.args.a2.toNat ∨ n.args.a2.toNat ∈ s.params.reservedDma ∨ n.args.a3.extractLsb' 1 31 ≠ 0
      ∨ 255 < n.args.a4.toNat ∨ 512 ≤ n.args.a5.toNat ∨ stripLegal (n.args.a5.setWidth 9) = false
      ∨ s.params.maxPixels < n.args.a6.toNat) →
    exec (.cfg ch) s = .next { s with insts := s.insts.set s.sel { n with resultCode := .invalidConfiguration } }

/-- `CFG` outside `UNINIT` is `IllegalCommand`, whatever its arguments (40_config.md, CFG: state check). -/
def Obligations.CfgOnlyInUninit : Prop :=
  ∀ (s : State) (w : Wiring) (n : Instance) (ch : BitVec 2), s.accepts w n → n.tstate ≠ .uninit →
    exec (.cfg ch) s = .next { s with insts := s.insts.set s.sel { n with resultCode := .illegalCommand } }

/-- 40_config.md R156: `SETBRIGHT c, b`, in every transport state. -/
def Obligations.SetbrightCommand : Prop :=
  ∀ (s : State) (w : Wiring) (n : Instance) (ch : BitVec 2) (c : Idx) (b : BitVec 24), s.accepts w n → ch.toNat = c.toNat →
    (Instr.setbright ch b).port = .main ∧ encode (.setbright ch b) = 0x3#4 ++ 0#2 ++ ch ++ b
    ∧ (255 < b.toNat →
      exec (.setbright ch b) s =
        .next { s with insts := s.insts.set s.sel { n with resultCode := .invalidConfiguration } })
    ∧ (b.toNat ≤ 255 →
      exec (.setbright ch b) s = .next { s with insts := s.insts.set s.sel { n with
        ch := n.ch.set c { n.ch.get c with bright := b.setWidth 8 }, resultCode := .ok } })

/-- 40_config.md R160: `GAMMAWR c, j, v`, in every transport state: entry `j` becomes `v`, every other entry of the table
reads as before, nothing else changes but the code; a word whose bits 23:16 are not 0 is no `GAMMAWR`. -/
def Obligations.GammawrCommand : Prop :=
  ∀ (s : State) (w : Wiring) (n : Instance) (ch : BitVec 2) (c : Idx) (j v : BitVec 8), s.accepts w n → ch.toNat = c.toNat →
    Memory.wf identityTable (n.gam.get c) = true →
    (Instr.gammawr ch j v).port = .main ∧ encode (.gammawr ch j v) = 0x4#4 ++ 0#2 ++ ch ++ 0#8 ++ j ++ v
    ∧ (∀ x : BitVec 8, x ≠ 0 → decode .main (0x4#4 ++ 0#2 ++ ch ++ x ++ j ++ v) = .error .notZero)
    ∧ ∃ m : Memory 8,
      exec (.gammawr ch j v) s =
        .next { s with insts := s.insts.set s.sel { n with gam := n.gam.set c m, resultCode := .ok } }
      ∧ ∀ a, Memory.read identityTable m a = if a = j.toNat then v else Memory.read identityTable (n.gam.get c) a

/-! ### INIT, RENDER, POLL, FINI -/

/-- `INIT` of a configuration that passes every check: the claims of 44_transport.md R284 are added and no other, the lines in
use go to their idle level, the pins to their alternate function, the state to `READY`, all in one step; nothing else
changes (44_transport.md, INIT; that the machine holds the pins' alternate functions is the model's, log 16). -/
def Obligations.InitAcquires : Prop :=
  ∀ (s : State) (w : Wiring) (n : Instance), s.accepts w n → n.tstate = .uninit →
    (∃ c, (n.ch.get c).valid = true) →
    (∀ c d, (n.ch.get c).valid = true → (n.ch.get d).valid = true →
      (n.ch.get c).freq = (n.ch.get d).freq ∧ (n.ch.get c).dma = (n.ch.get d).dma
        ∧ (c ≠ d → (n.ch.get c).slot ≠ (n.ch.get d).slot)) →
    (∀ x ∈ s.claims, ¬ ((∃ t, x.id = .pwm w.pwmCtrl t) ∨ ∃ c, (n.ch.get c).valid = true
      ∧ (x.id = .pin (n.ch.get c).gpio.toNat ∨ x.id = .dma (n.ch.get c).dma.toNat))) →
    ∃ (cs : List Claim) (ln : Pair Level) (mx : List (Nat × Nat)),
      exec .init s = .next { s with
        claims := cs
        insts := s.insts.set s.sel { n with tstate := .ready, line := ln, mux := mx, resultCode := .ok } }
      ∧ (∀ x : Claim, x ∈ cs ↔ x ∈ s.claims ∨ (x.owner = w.id ∧
          ((∃ t, x.id = .pwm w.pwmCtrl t) ∨ ∃ c, (n.ch.get c).valid = true
            ∧ (x.id = .pin (n.ch.get c).gpio.toNat ∨ x.id = .dma (n.ch.get c).dma.toNat))))
      ∧ (∀ c, (n.ch.get c).valid = true → ln.get (n.ch.get c).slot = .driven (n.ch.get c).invert)
      ∧ (∀ t, (∀ c, (n.ch.get c).valid = true → (n.ch.get c).slot ≠ t) → ln.get t = .undriven)
      ∧ (∀ c alt, (n.ch.get c).valid = true → pinAlt s.params (n.ch.get c).gpio.toNat = some alt →
          ((n.ch.get c).gpio.toNat, alt) ∈ mx)

/-- The errors of `INIT` in their order: state, `crossValidate` (44_transport.md R281), `overlapCheck` (R283), a claimed
resource. Each changes the result code and nothing else: no claim is made. -/
def Obligations.InitReportsFirstError : Prop :=
  ∀ (s : State) (w : Wiring) (n : Instance), s.accepts w n →
    let fails (e : Code) := exec .init s = .next { s with insts := s.insts.set s.sel { n with resultCode := e } }
    let clash := (∀ c, (n.ch.get c).valid = false) ∨ ∃ c d, (n.ch.get c).valid = true ∧ (n.ch.get d).valid = true
      ∧ ((n.ch.get c).freq ≠ (n.ch.get d).freq ∨ (n.ch.get c).dma ≠ (n.ch.get d).dma)
    let overlap := ∃ c d, c ≠ d ∧ (n.ch.get c).valid = true ∧ (n.ch.get d).valid = true
      ∧ (n.ch.get c).slot = (n.ch.get d).slot
    let taken := ∃ x ∈ s.claims, (∃ t, x.id = .pwm w.pwmCtrl t) ∨ ∃ c, (n.ch.get c).valid = true
      ∧ (x.id = .pin (n.ch.get c).gpio.toNat ∨ x.id = .dma (n.ch.get c).dma.toNat)
    (n.tstate ≠ .uninit → fails .illegalCommand)
    ∧ (n.tstate = .uninit → clash → fails .invalidConfiguration)
    ∧ (n.tstate = .uninit → ¬ clash → overlap → fails .channelOverlap)
    ∧ (n.tstate = .uninit → ¬ clash → ¬ overlap → taken → fails .resourceUnavailable)

/-- 44_transport.md R291, for `RENDER` and for `RENDERNB`, which is issued as `RENDER` is: accepted in `READY` and
`TRANSMITTING`, where the encode phase begins at the lowest active channel; `IllegalCommand` and no other effect in
`UNINIT`; not issued while a command is in flight, where `exec` answers the state unchanged (log 14, DEDUCED). -/
def Obligations.RenderIssue : Prop :=
  ∀ (s : State) (w : Wiring) (n : Instance) (cmd : Instr), s.inst? s.sel = some (w, n) → cmd = .render ∨ cmd = .rendernb →
    (n.sq = none → n.tstate ≠ .uninit →
      ∀ c, (n.ch.get c).valid = true → (∀ d, d.toNat < c.toNat → (n.ch.get d).valid = false) →
        exec cmd s = .next { s with insts := s.insts.set s.sel { n with
          sq := some ⟨cmd, n.args, .enc c 0 ⟨[], []⟩⟩ } })
    ∧ (n.sq = none → n.tstate = .uninit →
      exec cmd s = .next { s with insts := s.insts.set s.sel { n with resultCode := .illegalCommand } })
    ∧ (n.sq ≠ none → exec cmd s = .next s)

/-- 44_transport.md R310: `POLL` of the handle in `ARG0`, every case. -/
def Obligations.PollCommand : Prop :=
  ∀ (s : State) (w : Wiring) (n : Instance), s.accepts w n →
    Instr.poll.port = .main ∧ encode .poll = 0x70000000
    ∧ (n.tstate = .uninit ∨ n.args.a0 = 0 ∨ n.seq = 0 →
      exec .poll s = .next { s with insts := s.insts.set s.sel { n with resultCode := .illegalCommand } })
    ∧ (n.tstate ≠ .uninit → n.args.a0 ≠ 0 → n.seq ≠ 0 →
      (n.args.a0 ≠ n.seq →
        exec .poll s = .next { s with insts := s.insts.set s.sel { n with result := 3, resultCode := .ok } })
      ∧ (n.args.a0 = n.seq → n.tstate = .transmitting →
        exec .poll s = .next { s with insts := s.insts.set s.sel { n with result := 0, resultCode := .ok } })
      ∧ (n.args.a0 = n.seq → n.tstate = .ready → n.readReg .xerr = 0 →
        exec .poll s = .next { s with insts := s.insts.set s.sel { n with result := 1, resultCode := .ok } })
      ∧ (n.args.a0 = n.seq → n.tstate = .ready → n.readReg .xerr ≠ 0 →
        exec .poll s = .next { s with insts := s.insts.set s.sel { n with
          result := 2, errpend := false, resultCode := .ok } }))

/-- `FINI` at issue: a no-op in `UNINIT`, a wait in `TRANSMITTING`, in `READY` the teardown, which releases exactly the
instance's own claims (44_transport.md R318) and puts everything but the result code back to its reset value (what the
lines have emitted, the model's own record, stays: log 15). -/
def Obligations.FiniCommand : Prop :=
  ∀ (s : State) (w : Wiring) (n : Instance), s.accepts w n →
    (n.tstate = .uninit →
      exec .fini s = .next { s with insts := s.insts.set s.sel { n with resultCode := .ok } })
    ∧ (n.tstate = .transmitting →
      exec .fini s = .next { s with insts := s.insts.set s.sel { n with sq := some ⟨.fini, n.args, .finiWait⟩ } })
    ∧ (n.tstate = .ready → ∃ cs : List Claim,
      exec .fini s = .next { s with
        claims := cs
        insts := s.insts.set s.sel { Instance.reset with
          resultCode := if n.errpend then .transmitFailure else .ok, emitted := n.emitted } }
      ∧ ∀ x : Claim, x ∈ cs ↔ x ∈ s.claims ∧ x.owner ≠ w.id)

/-- 44_transport.md R319: a second `FINI` right after the first succeeds and changes nothing; after both the instance is in
`UNINIT` and holds no claim. -/
def Obligations.FiniIsIdempotent : Prop :=
  ∀ (s : State) (w : Wiring) (n : Instance), s.accepts w n →
    (n.tstate = .uninit →
      exec .fini s = .next { s with insts := s.insts.set s.sel { n with resultCode := .ok } })
    ∧ (n.tstate = .ready → n.errpend = false →
      ∃ (t : State) (m : Instance), exec .fini s = .next t ∧ exec .fini t = .next t ∧ t.inst? s.sel = some (w, m)
        ∧ m.tstate = .uninit ∧ m.resultCode = .ok ∧ ∀ x ∈ t.claims, x.owner ≠ w.id)

/-! ### The pixel port -/

/-- 41_pixel.md R180: `PIXRD c, i`, in every transport state and while the main port is busy; on an error `PRESULT` is
unchanged. -/
def Obligations.PixrdCommand : Prop :=
  ∀ (s : State) (w : Wiring) (n : Instance) (ch : BitVec 2) (i : BitVec 24), s.inst? s.sel = some (w, n) →
    let answers (m : Instance) := exec (.pixrd ch i) s = .next { s with insts := s.insts.set s.sel m }
    (Instr.pixrd ch i).port = .pixel ∧ encode (.pixrd ch i) = 0x1#4 ++ 0#2 ++ ch ++ i
    ∧ (∀ c : Idx, ch.toNat = c.toNat → i.toNat < (n.ch.get c).count.toNat →
        answers { n with presult := Memory.read zeroFill (n.pix.get c) i.toNat, presultCode := .ok })
    ∧ (∀ c : Idx, ch.toNat = c.toNat → (n.ch.get c).count.toNat ≤ i.toNat →
        answers { n with presultCode := .indexOutOfRange })
    ∧ (2 ≤ ch.toNat → answers { n with presultCode := .illegalCommand })

/-- 41_pixel.md R181: `PIXWR c, i` stores all 32 bits of `PDATA` at pixel `i`; every other pixel of both channels reads as
before and nothing else changes but the code; on an error no pixel changes. -/
def Obligations.PixwrCommand : Prop :=
  ∀ (s : State) (w : Wiring) (n : Instance) (ch : BitVec 2) (i : BitVec 24), s.inst? s.sel = some (w, n) →
    (∀ c, Memory.wf zeroFill (n.pix.get c) = true) →
    let answers (m : Instance) := exec (.pixwr ch i) s = .next { s with insts := s.insts.set s.sel m }
    (Instr.pixwr ch i).port = .pixel ∧ encode (.pixwr ch i) = 0x2#4 ++ 0#2 ++ ch ++ i
    ∧ (∀ c : Idx, ch.toNat = c.toNat → i.toNat < (n.ch.get c).count.toNat → ∃ m : Memory 32,
        answers { n with pix := n.pix.set c m, presultCode := .ok }
        ∧ ∀ a, Memory.read zeroFill m a = if a = i.toNat then n.pdata else Memory.read zeroFill (n.pix.get c) a)
    ∧ (∀ c : Idx, ch.toNat = c.toNat → (n.ch.get c).count.toNat ≤ i.toNat →
        answers { n with presultCode := .indexOutOfRange })
    ∧ (2 ≤ ch.toNat → answers { n with presultCode := .illegalCommand })

/-- 41_pixel.md R182: `PIXLEN c`; in a state whose transport is consistent an unconfigured channel answers 0. -/
def Obligations.PixlenCommand : Prop :=
  ∀ (s : State) (w : Wiring) (n : Instance) (ch : BitVec 2), s.inst? s.sel = some (w, n) →
    let answers (m : Instance) := exec (.pixlen ch) s = .next { s with insts := s.insts.set s.sel m }
    (Instr.pixlen ch).port = .pixel ∧ encode (.pixlen ch) = 0x3#4 ++ 0#2 ++ ch ++ 0#24
    ∧ (∀ c : Idx, ch.toNat = c.toNat →
        answers { n with presult := (n.ch.get c).count.setWidth 32, presultCode := .ok })
    ∧ (s.Transport → ∀ c : Idx, ch.toNat = c.toNat → (n.ch.get c).valid = false →
        answers { n with presult := 0, presultCode := .ok })
    ∧ (2 ≤ ch.toNat → answers { n with presultCode := .illegalCommand })

/-- 41_pixel.md R183, for the word `v` a host stores to `PCMD`, in every transport state: a word that fails one of the four
encoding checks ends with `IllegalCommand`, a `PIXRD` or `PIXWR` past the channel's length with `IndexOutOfRange`, and
neither has another effect. In a state whose transport is consistent, which every step keeps and reset meets, an
unconfigured channel has count 0, and every index of it ends with `IndexOutOfRange`. -/
def Obligations.PixelPortErrors : Prop :=
  (∀ (s : State) (ms : List Move) (h : Nat) (th : HostThread) (addr : Nat) (v : Word) (rest : List HostOp) (k : Nat)
    (w : Wiring) (n : Instance),
    s.sched = .host h :: ms → s.hosts[h]? = some th → th.prog = .store addr 4 v :: rest →
    locate s.params addr = some (k, 0x80) → s.inst? k = some (w, n) →
    let ends (c : Code) := step s = .next { s with
      sched := ms, hosts := s.hosts.set h { th with prog := rest }, sel := k
      insts := s.insts.set k { n with presultCode := c } }
    let op := (v.extractLsb' 28 4).toNat
    let ch := (v.extractLsb' 24 2).toNat
    let imm := (v.extractLsb' 0 24).toNat
    (v.extractLsb' 26 2 ≠ 0 ∨ op = 0 ∨ 3 < op ∨ (op = 3 ∧ imm ≠ 0) ∨ 2 ≤ ch → ends .illegalCommand)
    ∧ (v.extractLsb' 26 2 = 0 → op = 1 ∨ op = 2 →
        ∀ c : Idx, ch = c.toNat → (n.ch.get c).count.toNat ≤ imm → ends .indexOutOfRange)
    ∧ (s.Transport → ∀ c : Idx, (n.ch.get c).valid = false →
        (n.ch.get c).count.toNat = 0
        ∧ (v.extractLsb' 26 2 = 0 → op = 1 ∨ op = 2 → ch = c.toNat → ends .indexOutOfRange)))
  ∧ ∀ c, (Instance.reset.ch.get c).valid = false ∧ (Instance.reset.ch.get c).count.toNat = 0

/-- A command that ends with an error when it is issued has no effect but its port's result code; `FINI`, whose teardown is
done whatever its code, apart (60_exceptions.md §2). The start phase's errors are in `StartStep` and
`StartReportsPendingError`. -/
def Obligations.ErrorIsPrecise : Prop :=
  ∀ (i : Instr) (s t : State) (w : Wiring) (n m : Instance), s.inst? s.sel = some (w, n) → exec i s = .next t →
    t.inst? s.sel = some (w, m) →
    (i.port = .main → i ≠ .fini → n.sq = none → m.sq = none → m.resultCode ≠ .ok →
      t = { s with insts := s.insts.set s.sel { n with resultCode := m.resultCode } })
    ∧ (i.port = .pixel → m.presultCode ≠ .ok →
      t = { s with insts := s.insts.set s.sel { n with presultCode := m.presultCode } })

/-! ### The encoder -/

/-- One encode step reads one pixel word and appends its sub-bits to the channel's stream, and at the last pixel the reset
gap; then it goes on to the next active channel (42_encoder.md §1). -/
def Obligations.EncodeStepReadsOnePixel : Prop :=
  ∀ (s : State) (ms : List Move) (k : Nat) (ok : Bool) (w : Wiring) (n : Instance) (q : InFlight) (c : Idx) (i : Nat)
    (acc : Pair (List Bool)) (bits : List Bool) (ph : Phase),
    s.sched = .seq k ok :: ms → s.inst? k = some (w, n) → n.sq = some q → q.phase = .enc c i acc →
    i < (n.ch.get c).count.toNat →
    bits = acc.get c ++ encodePixel s.params (n.ch.get c) (n.gam.get c) (Memory.read zeroFill (n.pix.get c) i) →
    ph = (if i + 1 < (n.ch.get c).count.toNat then .enc c (i + 1) (acc.set c bits)
      else
        let done := acc.set c (bits ++ resetGap s.params (n.ch.get c))
        if c = .i0 ∧ (n.ch.get .i1).valid = true then
          if (n.ch.get .i1).count = 0 then .build (done.set .i1 (resetGap s.params (n.ch.get .i1))) else .enc .i1 0 done
        else .build done) →
    step s = .next { s with sched := ms, insts := s.insts.set k { n with sq := some { q with phase := ph } } }

/-- 42_encoder.md R213, R214, R218, R219: sub-bit `m` of the symbol of bit `7 - j` of output byte `k` of a pixel: the lane
`SELk` names, looked up, scaled, its bit coded by `ONE_CODE` or `ZERO_CODE`; and how many sub-bits there are. -/
def Obligations.EncodePixelSubBits : Prop :=
  ∀ (p : Params) (r : Channel) (gam : Memory 8) (px : Word),
    let nb := if r.strip.getLsbD 8 then 4 else 3
    let byte (k : Nat) : Nat :=
      (Memory.read identityTable gam (px.extractLsb' (8 * (r.strip.extractLsb' (2 * k) 2).toNat) 8).toNat).toNat
        * r.bright.toNat / 255
    (encodePixel p r gam px).length = 8 * nb * p.symLen
    ∧ ∀ k j m, k < nb → j < 8 → m < p.symLen →
      (encodePixel p r gam px)[(8 * k + j) * p.symLen + m]? =
        some ((if (byte k).testBit (7 - j) then p.oneCode else p.zeroCode).testBit (p.symLen - 1 - m))

/-- 42_encoder.md R215: full brightness leaves the gamma output, and with an identity table the pixel's lanes, as they are. -/
def Obligations.FullBrightnessIsIdentity : Prop :=
  ∀ (gam : Memory 8) (px : Word) (x : Nat),
    scaledLane gam 255 px x = Memory.read identityTable gam (lane px x).toNat
    ∧ ((∀ j, j < 256 → Memory.read identityTable gam j = BitVec.ofNat 8 j) → scaledLane gam 255 px x = lane px x)

/-- 42_encoder.md R216: at brightness 0 every lane scales to 0 and every data bit of every pixel is a 0-bit, whatever the
pixel and the gamma table. -/
def Obligations.ZeroBrightnessIsDark : Prop :=
  ∀ (p : Params) (r : Channel) (gam : Memory 8) (px : Word), r.bright = 0 →
    (∀ x, scaledLane gam r.bright px x = 0)
    ∧ encodePixel p r gam px
      = (List.replicate (8 * if r.strip.getLsbD 8 then 4 else 3) (bitsMSB p.zeroCode p.symLen)).flatten

/-- 42_encoder.md R231: encoding a whole channel, one step for each pixel, appends to nothing the sub-bits of its pixels in
ascending order and then the reset gap; and the length of that stream. No other step interferes with the `count` steps. -/
def Obligations.EncodePhaseYieldsStream : Prop :=
  ∀ (s : State) (rest : List Move) (k : Nat) (ok : Bool) (w : Wiring) (n : Instance) (q : InFlight) (c : Idx)
    (acc : Pair (List Bool)) (stream : List Bool),
    s.inst? k = some (w, n) → n.sq = some q → q.phase = .enc c 0 acc → acc.get c = [] →
    0 < (n.ch.get c).count.toNat →
    s.sched = List.replicate (n.ch.get c).count.toNat (.seq k ok) ++ rest →
    stream = ((List.range (n.ch.get c).count.toNat).map fun i =>
        encodePixel s.params (n.ch.get c) (n.gam.get c) (Memory.read zeroFill (n.pix.get c) i)).flatten
      ++ List.replicate ((s.params.resetUs * (n.ch.get c).freq.toNat * s.params.symLen + 999999) / 1000000) false →
    Sys2Proof.core.run (n.ch.get c).count.toNat s = .next { s with
      sched := rest
      insts := s.insts.set k { n with sq := some { q with
        phase := nextPhase s.params n (Idx.later c) (acc.set c stream) } } }
    ∧ stream.length = (n.ch.get c).count.toNat * 8 * (if (n.ch.get c).strip.getLsbD 8 then 4 else 3) * s.params.symLen
      + (s.params.resetUs * (n.ch.get c).freq.toNat * s.params.symLen + 999999) / 1000000

/-! ### The frame builder -/

/-- 43_frame_builder.md R253, R255: the build step writes the back buffer only: `W` word-steps, slot `t`'s word of word-step
`j` at `2j + t`, sub-bit `32j + m` of its stream in bit `31 - m`, 0 past the stream's end; words past the frame keep their
old values, and `FLEN` of the back buffer is `W`, the longest active stream in words. -/
def Obligations.BuildLaysOutTheFrame : Prop :=
  ∀ (s : State) (ms : List Move) (k : Nat) (ok : Bool) (w : Wiring) (n : Instance) (q : InFlight)
    (acc : Pair (List Bool)), s.sched = .seq k ok :: ms → s.inst? k = some (w, n) → n.sq = some q →
    q.phase = .build acc → Memory.wf zeroFill (n.buf.get n.front.other) = true →
    ∃ (m : Memory 32) (W : Nat),
      step s = .next { s with
        sched := ms
        insts := s.insts.set k { n with
          buf := n.buf.set n.front.other m
          flen := n.flen.set n.front.other W
          sq := some { q with phase := .wait } } }
      ∧ (∀ c, (n.ch.get c).valid = true → ((acc.get c).length + 31) / 32 ≤ W)
      ∧ (W = 0 ∨ ∃ c, (n.ch.get c).valid = true ∧ ((acc.get c).length + 31) / 32 = W)
      ∧ (∀ j t b, j < W → b < 32 → (Memory.read zeroFill m (2 * j + t.toNat)).getLsbD (31 - b)
          = (match n.channelOn t with
            | some c => (acc.get c).getD (32 * j + b) false
            | none => false))
      ∧ ∀ a, 2 * W ≤ a → Memory.read zeroFill m a = Memory.read zeroFill (n.buf.get n.front.other) a

/-- A frame of legal channels fits its buffer: `W` ≤ `STEPS_MAX`, and every index written is below `N_SLOTS x STEPS_MAX`
(43_frame_builder.md §3). -/
def Obligations.FrameFitsTheBuffer : Prop :=
  ∀ (p : Params) (n : Instance) (acc : Pair (List Bool)),
    (∀ c, (n.ch.get c).valid = true → (n.ch.get c).freq.toNat ∈ p.freqSet ∧ (n.ch.get c).count.toNat ≤ p.maxPixels
      ∧ ∃ pxs : List Word, pxs.length = (n.ch.get c).count.toNat
        ∧ acc.get c = streamOf p (n.ch.get c) (n.gam.get c) pxs) →
    frameSteps n acc ≤ stepsMax p ∧ ∀ e ∈ frameWords n acc, e.1 < 2 * stepsMax p

/-! ### The later phases of a render, and the drain -/

/-- The `WAIT` phase holds while the previous frame drains, and goes on when it does not; so does `FINI_WAIT`, which goes on
to the teardown (44_transport.md §RENDER, §FINI). Of the model: a held move is used up (log 5); that `WAIT` goes to `START`
by a step of its own is DEDUCED (log 13); what the lines have emitted survives the teardown (log 15). -/
def Obligations.WaitsHoldWhileTransmitting : Prop :=
  ∀ (s : State) (ms : List Move) (k : Nat) (ok : Bool) (w : Wiring) (n : Instance) (q : InFlight),
    s.sched = .seq k ok :: ms → s.inst? k = some (w, n) → n.sq = some q →
    (n.tstate = .transmitting → q.phase = .wait ∨ q.phase = .finiWait → step s = .next { s with sched := ms })
    ∧ (n.tstate ≠ .transmitting → q.phase = .wait →
      step s = .next { s with sched := ms, insts := s.insts.set k { n with sq := some { q with phase := .start } } })
    ∧ (n.tstate ≠ .transmitting → q.phase = .finiWait → ∃ cs : List Claim,
      step s = .next { s with
        sched := ms
        claims := cs
        insts := s.insts.set k { Instance.reset with
          resultCode := if n.errpend then .transmitFailure else .ok, emitted := n.emitted } }
      ∧ ∀ x : Claim, x ∈ cs ↔ x ∈ s.claims ∧ x.owner ≠ w.id)

/-- 44_transport.md R293: with an unreported error the start phase reports it and starts nothing: `F`, `SEQ`, `XERR`,
`TSTATE` and both buffers stay. -/
def Obligations.StartReportsPendingError : Prop :=
  ∀ (s : State) (ms : List Move) (k : Nat) (ok : Bool) (w : Wiring) (n : Instance) (q : InFlight),
    s.sched = .seq k ok :: ms → s.inst? k = some (w, n) → n.sq = some q → q.phase = .start → n.tstate = .ready →
    n.errpend = true →
    step s = .next { s with
      sched := ms
      insts := s.insts.set k { n with errpend := false, resultCode := .transmitFailure, sq := none } }

/-- 44_transport.md R296, R297: the start step swaps the buffers, advances the handle (0xFFFFFFFF to 1) and clears `XERR`;
a start that is not refused begins the transmission; a refused one is reported at once by `RENDER` and left pending by
`RENDERNB`; no refusal is drawn where errors are not admitted. While a transmission is in flight the step is not enabled;
that the move is then used up is the model's (log 5). -/
def Obligations.StartStep : Prop :=
  ∀ (s : State) (ms : List Move) (k : Nat) (ok : Bool) (w : Wiring) (n : Instance) (q : InFlight) (h : Word),
    s.sched = .seq k ok :: ms → s.inst? k = some (w, n) → n.sq = some q → q.phase = .start → n.errpend = false →
    q.cmd = .render ∨ q.cmd = .rendernb → h = (if n.seq = 0xFFFFFFFF then 1 else n.seq + 1) →
    (n.tstate = .transmitting → step s = .next { s with sched := ms })
    ∧ (n.tstate = .ready → ok = true ∨ s.params.xferErrors = false →
      step s = .next { s with
        sched := ms
        insts := s.insts.set k { n with
          front := n.front.other, seq := h, xerr := ⟨false, false, false⟩, tstate := .transmitting, dpos := 0
          sq := none, resultCode := .ok, result := if q.cmd = .rendernb then h else n.result } })
    ∧ (n.tstate = .ready → ok = false → s.params.xferErrors = true → q.cmd = .render →
      step s = .next { s with
        sched := ms
        insts := s.insts.set k { n with
          front := n.front.other, seq := h, xerr := ⟨true, false, false⟩, sq := none, resultCode := .transmitFailure } })
    ∧ (n.tstate = .ready → ok = false → s.params.xferErrors = true → q.cmd = .rendernb →
      step s = .next { s with
        sched := ms
        insts := s.insts.set k { n with
          front := n.front.other, seq := h, xerr := ⟨true, false, false⟩, sq := none, resultCode := .ok
          errpend := true, result := h } })

/-- 44_transport.md R320, R321: a drain step without error puts word `DPOS` of each slot in use on its line, bit 31 first,
each bit XOR `invert`, and nothing on a slot not in use; after the last word-step the state is `READY` and the lines are
at their idle level, else a line keeps the last bit (log 29). -/
def Obligations.DrainEmitsOneWordStep : Prop :=
  ∀ (s : State) (ms : List Move) (k : Nat) (e : DrainDraw) (w : Wiring) (n : Instance),
    s.sched = .drain k e :: ms → s.inst? k = some (w, n) → e = .good ∨ s.params.xferErrors = false →
    n.tstate = .transmitting → n.dpos < n.flen.get n.front →
    let word (t : Idx) := Memory.read zeroFill (n.buf.get n.front) (2 * n.dpos + t.toNat)
    let out (t : Idx) := match n.channelOn t with
      | some c => (List.range 32).map fun m => (word t).getLsbD (31 - m) ^^ (n.ch.get c).invert
      | none => []
    let kept (t : Idx) := match n.channelOn t with
      | some c => Level.driven ((word t).getLsbD 0 ^^ (n.ch.get c).invert)
      | none => n.line.get t
    let idle (t : Idx) := match n.channelOn t with
      | some c => Level.driven (n.ch.get c).invert
      | none => Level.undriven
    let done := n.dpos + 1 = n.flen.get n.front
    step s = .next { s with
      sched := ms
      insts := s.insts.set k { n with
        dpos := n.dpos + 1
        emitted := ⟨n.emitted.at0 ++ out .i0, n.emitted.at1 ++ out .i1⟩
        tstate := if done then .ready else .transmitting
        line := if done then ⟨idle .i0, idle .i1⟩ else ⟨kept .i0, kept .i1⟩ } }

/-- 44_transport.md R322: a drain step that draws an error sets its bit of `XERR` and `ERRPEND`, ends the transmission, and
puts on each line in use at most 32 sub-bits, which are the draw's; then the lines are at their idle level. That `DPOS`
keeps its value is the model's reading (log 18, DEDUCED); `emitted` is the model's record (log 15). -/
def Obligations.DrainErrorEndsTransmission : Prop :=
  ∀ (s : State) (ms : List Move) (k : Nat) (bits : Pair (List Bool)) (w : Wiring) (n : Instance),
    s.inst? k = some (w, n) → s.params.xferErrors = true → n.tstate = .transmitting → n.dpos < n.flen.get n.front →
    let out (t : Idx) := match n.channelOn t with
      | some _ => (bits.get t).take 32
      | none => []
    let idle (t : Idx) := match n.channelOn t with
      | some c => Level.driven (n.ch.get c).invert
      | none => Level.undriven
    let after (x : Xerr) : Host.Outcome State Fault Refusal := .next { s with
      sched := ms
      insts := s.insts.set k { n with
        xerr := x, errpend := true, tstate := .ready, line := ⟨idle .i0, idle .i1⟩
        emitted := ⟨n.emitted.at0 ++ out .i0, n.emitted.at1 ++ out .i1⟩ } }
    (s.sched = .drain k (.busError bits) :: ms → step s = after { n.xerr with busError := true })
    ∧ (s.sched = .drain k (.fifoUnderrun bits) :: ms → step s = after { n.xerr with fifoUnderrun := true })

/-- 44_transport.md R317: at every point of `FINI_WAIT` the abort is enabled: each line in use emits a part from the beginning of the
next word-step's sub-bits, as the draw says, and the teardown reports `TransmitFailure`. That the part is drawn for each
slot is the model's (log 17), and so is that `emitted` survives the teardown (log 15). -/
def Obligations.AbortTearsDown : Prop :=
  ∀ (s : State) (ms : List Move) (k : Nat) (cut : Pair Nat) (w : Wiring) (n : Instance) (q : InFlight),
    s.sched = .abort k cut :: ms → s.inst? k = some (w, n) → n.sq = some q → q.phase = .finiWait →
    let out (t : Idx) := match n.channelOn t with
      | some c =>
        if n.tstate = .transmitting ∧ n.dpos < n.flen.get n.front then
          ((List.range 32).map fun m =>
            (Memory.read zeroFill (n.buf.get n.front) (2 * n.dpos + t.toNat)).getLsbD (31 - m)
              ^^ (n.ch.get c).invert).take (cut.get t)
        else []
      | none => []
    ∃ cs : List Claim,
      step s = .next { s with
        sched := ms
        claims := cs
        insts := s.insts.set k { Instance.reset with
          resultCode := .transmitFailure
          emitted := ⟨n.emitted.at0 ++ out .i0, n.emitted.at1 ++ out .i1⟩ } }
      ∧ ∀ x : Claim, x ∈ cs ↔ x ∈ s.claims ∧ x.owner ≠ w.id

/-! ### Whole runs of an agent -/

/-- A render issued in `READY` with no unreported error, whose sequencer takes enough steps (one for each pixel and four more
are enough) while no other agent moves, transmits the frame built from the streams of its active channels
(44_transport.md §RENDER, §RENDERNB; 42_encoder.md; 43_frame_builder.md). -/
def Obligations.RenderTransmitsTheFrame : Prop :=
  ∀ (s : State) (rest : List Move) (k m : Nat) (w : Wiring) (n : Instance) (cmd : Instr) (a : Args) (h : Word)
    (acc : Pair (List Bool)),
    s.inst? k = some (w, n) → cmd = .render ∨ cmd = .rendernb → n.sq = some ⟨cmd, a, firstPhase n⟩ →
    n.tstate = .ready → n.errpend = false → (∃ c, (n.ch.get c).valid = true) →
    (n.ch.get .i0).count.toNat + (n.ch.get .i1).count.toNat + 4 ≤ m →
    s.sched = List.replicate m (.seq k true) ++ rest →
    h = (if n.seq = 0xFFFFFFFF then 1 else n.seq + 1) →
    (∀ c, acc.get c = if (n.ch.get c).valid then
      streamOf s.params (n.ch.get c) (n.gam.get c)
        ((List.range (n.ch.get c).count.toNat).map (Memory.read zeroFill (n.pix.get c)))
      else []) →
    Sys2Proof.core.run m s = .next { s with
      sched := rest
      insts := s.insts.set k { buildFrame n acc with
        front := n.front.other, seq := h, xerr := ⟨false, false, false⟩, tstate := .transmitting, dpos := 0
        sq := none, resultCode := .ok, result := if cmd = .rendernb then h else n.result } }

/-- A frame laid out as 43_frame_builder.md says, drained without error and with no other agent moving, puts on the line of
each slot in use exactly the stream of its channel, padded with 0 to whole words, each sub-bit XOR `invert`; and the
transmission ends in `READY` with the lines idle (44_transport.md §Drain). -/
def Obligations.LinesCarryTheStreams : Prop :=
  ∀ (s : State) (rest : List Move) (k W : Nat) (w : Wiring) (n : Instance) (acc : Pair (List Bool)),
    s.inst? k = some (w, n) → n.tstate = .transmitting → n.dpos = 0 → n.flen.get n.front = W → 0 < W →
    (∀ c, (n.ch.get c).valid = true → (acc.get c).length ≤ 32 * W) →
    (∀ j t c b, j < W → b < 32 → n.channelOn t = some c →
      (Memory.read zeroFill (n.buf.get n.front) (2 * j + t.toNat)).getLsbD (31 - b)
        = (acc.get c).getD (32 * j + b) false) →
    s.sched = List.replicate W (.drain k .good) ++ rest →
    let out (t : Idx) := match n.channelOn t with
      | some c =>
        (acc.get c ++ List.replicate (32 * W - (acc.get c).length) false).map fun b => b ^^ (n.ch.get c).invert
      | none => []
    let idle (t : Idx) := match n.channelOn t with
      | some c => Level.driven (n.ch.get c).invert
      | none => Level.undriven
    Sys2Proof.core.run W s = .next { s with
      sched := rest
      insts := s.insts.set k { n with
        tstate := .ready, dpos := W, line := ⟨idle .i0, idle .i1⟩
        emitted := ⟨n.emitted.at0 ++ out .i0, n.emitted.at1 ++ out .i1⟩ } }

/-! ### Invariants and rules about the whole machine -/

/-- Every step keeps every memory in canonical form. The form is the model's own (log 10, DESIGN CHOICE): the spec gives the
memories their contents, not a representation; with it, memories that read alike are equal data. -/
def Obligations.StepKeepsMemoriesCanonical : Prop :=
  ∀ s t : State, s.memWf → step s = .next t → t.memWf

/-- Every step keeps every instance's transport consistent (`Instance.Consistent`, Safety.lean). -/
def Obligations.StepKeepsTransportConsistent : Prop :=
  ∀ s t : State, s.Transport → step s = .next t → t.Transport

/-- Every step keeps the claim registry right (`State.ClaimsOk`, Safety.lean), in states whose transport is consistent: a
command in flight in `UNINIT`, which no run has, could start a transmission without claims. -/
def Obligations.StepKeepsClaims : Prop :=
  ∀ s t : State, s.Transport → s.ClaimsOk → step s = .next t → t.ClaimsOk

/-- The state after reset meets the three invariants, for all parameters in the ranges of `Params.wf` (those of R11 and R12,
and register windows that do not overlap, which is the model's: log 30), and for those of `State.reset` (log 1, log 2). -/
def Obligations.ResetMeetsTheInvariants : Prop :=
  (∀ p : Params, p.wf = true →
    (State.resetWith p).memWf ∧ (State.resetWith p).Transport ∧ (State.resetWith p).ClaimsOk)
  ∧ State.reset.memWf ∧ State.reset.Transport ∧ State.reset.ClaimsOk

/-- 70_reset_and_hazards.md R450: the value of every state element of every instance after power-on reset. -/
def Obligations.ResetState : Prop :=
  ∀ p : Params, (State.resetWith p).claims = [] ∧ (State.resetWith p).insts.length = p.wiring.length
    ∧ ∀ n ∈ (State.resetWith p).insts,
      n.tstate = .uninit ∧ n.sq = none ∧ n.errpend = false ∧ n.resultCode = .ok
      ∧ (∀ i, n.args.get i = 0) ∧ n.result = 0 ∧ n.seq = 0 ∧ n.readReg .xerr = 0
      ∧ (∀ c, (n.ch.get c).valid = false ∧ (n.ch.get c).gpio = 0 ∧ (n.ch.get c).freq = 0 ∧ (n.ch.get c).dma = 0
          ∧ (n.ch.get c).count = 0 ∧ (n.ch.get c).slot.toNat = 0 ∧ (n.ch.get c).invert = false
          ∧ (n.ch.get c).bright = 255 ∧ (n.ch.get c).strip = 0x009)
      ∧ (∀ c j, j < 256 → Memory.read identityTable (n.gam.get c) j = BitVec.ofNat 8 j)
      ∧ (∀ c i, Memory.read zeroFill (n.pix.get c) i = 0)
      ∧ n.pdata = 0 ∧ n.presult = 0 ∧ n.readReg .pstatus = 0
      ∧ (∀ b a, Memory.read zeroFill (n.buf.get b) a = 0) ∧ (∀ b, n.flen.get b = 0)
      ∧ n.front.toNat = 0 ∧ n.dpos = 0 ∧ ∀ t, n.line.get t = .undriven

/-- 44_transport.md R330: a step changes `TSTATE` of an instance only as the table says, and by the event it names, in states
whose transport is consistent (no command is in flight in `UNINIT`). To `READY` from `UNINIT`: the step stores the word of
`INIT` to `CMD`, and `INIT` succeeds. To `TRANSMITTING`: the start step of a render, not refused. Back to `READY`: the
drain's last word-step, or its error. To `UNINIT` from `READY`: the step stores the word of `FINI`, or is the end of a
`FINI`'s wait; from `TRANSMITTING`: the abort of a waiting `FINI`. -/
def Obligations.TransportTransitions : Prop :=
  ∀ (s t : State) (k : Nat) (w : Wiring) (n n' : Instance), s.Transport → step s = .next t →
    s.inst? k = some (w, n) → t.inst? k = some (w, n') →
    match n.tstate, n'.tstate with
    | .uninit, .transmitting => False
    | .uninit, .ready =>
        s.Issues k .init ∧ n.sq = none ∧ crossValid n = true ∧ overlaps n = false
        ∧ claimed s.claims (claimSet w n) = false ∧ n'.resultCode = .ok
    | .ready, .transmitting =>
        (∃ ok, s.nextMove = .seq k ok ∧ (ok = true ∨ s.params.xferErrors = false))
        ∧ (∃ q, n.sq = some q ∧ q.phase = .start ∧ (q.cmd = .render ∨ q.cmd = .rendernb))
        ∧ n'.front = n.front.other ∧ n'.seq = (if n.seq = 0xFFFFFFFF then 1 else n.seq + 1) ∧ n'.dpos = 0
    | .transmitting, .ready =>
        ∃ e, s.nextMove = .drain k e ∧ n.dpos < n.flen.get n.front
        ∧ (((e = .good ∨ s.params.xferErrors = false) ∧ n.dpos + 1 = n.flen.get n.front ∧ n'.dpos = n.flen.get n.front
            ∧ n'.xerr = n.xerr ∧ n'.errpend = n.errpend)
          ∨ (e ≠ .good ∧ s.params.xferErrors = true ∧ n'.errpend = true ∧ n'.readReg .xerr ≠ 0))
    | .transmitting, .uninit =>
        (∃ cut, s.nextMove = .abort k cut) ∧ (∃ q, n.sq = some q ∧ q.cmd = .fini ∧ q.phase = .finiWait)
        ∧ n'.resultCode = .transmitFailure
    | .ready, .uninit =>
        (s.Issues k .fini ∧ n.sq = none)
        ∨ ((∃ q, n.sq = some q ∧ q.cmd = .fini ∧ q.phase = .finiWait)
          ∧ ((∃ ok, s.nextMove = .seq k ok) ∨ ∃ cut, s.nextMove = .abort k cut))
    | _, _ => True

/-- 70_reset_and_hazards.md R470: in a run that is weakly fair to `Seq(k)` and `Drain(k)`, from a state whose transport is
consistent, a transmission in flight ends, by at most `FLEN[F]` drain steps; every `WAIT` hold ends, in a
`START` phase of its own (log 13, DEDUCED); every encode and
build phase ends, in at most `N_CHANNELS x MAX_PIXELS + 1` sequencer steps; every `FINI_WAIT` ends; and so does the start
phase. Host threads are not assumed fair. And the end of a run of an instance (§4, R471): `BUSY` = 0, not transmitting, no
host with a further access, which the model reads as every program empty (log 33); from there on every step answers next,
and the instance shows what it showed, its state and the levels its lines have emitted. That the step goes on after the end
is the model's (log 3). -/
def Obligations.ProgressAndTheEndOfARun : Prop :=
  (∀ (r : Nat → State) (i k : Nat) (w : Wiring) (n : Instance), IsRun r → FairRun r → (r 0).Transport →
    (r i).inst? k = some (w, n) →
    let steps (takes : State → Nat → Bool) (j : Nat) : Nat := (List.range (j - i)).countP fun d => takes (r (i + d)) k
    let reaches (j : Nat) (m : Instance) : Prop := i < j ∧ (r j).inst? k = some (w, m)
    (n.tstate = .transmitting → ∃ j m, reaches j m ∧ m.tstate ≠ .transmitting
      ∧ steps State.drainTakes j ≤ n.flen.get n.front)
    ∧ ∀ q, n.sq = some q →
      (q.phase = .wait → ∃ j m, reaches j m ∧ m.sq = some { q with phase := .start } ∧ m.tstate ≠ .transmitting)
      ∧ ((∃ c x acc, q.phase = .enc c x acc) ∨ (∃ acc, q.phase = .build acc) →
        ∃ j m, reaches j m ∧ m.sq = some { q with phase := .wait }
          ∧ steps State.seqTakes j ≤ 2 * (r i).params.maxPixels + 1)
      ∧ (q.phase = .finiWait → ∃ j m, reaches j m ∧ m.sq = none ∧ m.tstate = .uninit)
      ∧ (q.phase = .start → ∃ j m, reaches j m ∧ m.sq = none))
  ∧ ∀ (s : State) (k : Nat) (w : Wiring) (n : Instance), s.inst? k = some (w, n) →
    (s.ended k = true ↔ n.sq = none ∧ n.tstate ≠ .transmitting ∧ ∀ th ∈ s.hosts, th.prog = [])
    ∧ (s.ended k = true → ∃ t m, step s = .next t ∧ t.ended k = true ∧ t.inst? k = some (w, m) ∧ m.shown = n.shown)

/-- 10_state.md R39: from `INIT` until `FINI` no step changes a channel's record but its brightness. -/
def Obligations.ConfigurationIsImmutable : Prop :=
  ∀ (s t : State) (k : Nat) (n n' : Instance), step s = .next t → s.insts[k]? = some n → t.insts[k]? = some n' →
    n.tstate ≠ .uninit → n'.tstate ≠ .uninit →
    ∀ c, n'.ch.get c = { n.ch.get c with bright := (n'.ch.get c).bright }

/-- The buffer being drained is never written, and the buffers are swapped only by a start step, when no transmission is in
flight, or reset by a teardown (43_frame_builder.md §3, 10_state.md §7). -/
def Obligations.DrainedBufferIsUntouched : Prop :=
  ∀ (s t : State) (k : Nat) (n n' : Instance), step s = .next t → s.insts[k]? = some n → t.insts[k]? = some n' →
    n'.tstate ≠ .uninit →
    (n'.buf.get n.front = n.buf.get n.front ∧ n'.flen.get n.front = n.flen.get n.front)
    ∧ (n'.front ≠ n.front → n.tstate ≠ .transmitting ∧ ∃ q, n.sq = some q ∧ q.phase = .start)

/-- A step changes at most one instance, and in the claim registry at most the pairs of that instance; it never changes the
parameters (60_exceptions.md §8). -/
def Obligations.StepTouchesOneInstance : Prop :=
  ∀ s t : State, step s = .next t → t.params = s.params ∧ t.insts.length = s.insts.length
    ∧ ∃ k : Nat, (∀ j : Nat, j ≠ k → t.insts[j]? = s.insts[j]?)
      ∧ ∀ x : Claim, (∀ w : Wiring, s.params.wiring[k]? = some w → x.owner ≠ w.id) → (x ∈ t.claims ↔ x ∈ s.claims)

/-- Two initialised instances claim nothing in common: no pin, no slot of a PWM controller, no DMA channel
(10_state.md §11, 60_exceptions.md §8). -/
def Obligations.InitialisedInstancesShareNothing : Prop :=
  ∀ (s : State) (j k : Nat) (v w : Wiring) (m n : Instance), s.ClaimsOk → j ≠ k → s.inst? j = some (v, m) →
    s.inst? k = some (w, n) → m.tstate ≠ .uninit → n.tstate ≠ .uninit → ∀ i ∈ claimSet v m, i ∉ claimSet w n

/-- An `INIT` on a pin that another, initialised instance uses fails with `ResourceUnavailable` and claims nothing
(44_transport.md §INIT, the source's two-instance property). -/
def Obligations.SecondInitOnPinFails : Prop :=
  ∀ (s : State) (j : Nat) (v w : Wiring) (m n : Instance) (c d : Idx), s.ClaimsOk → s.accepts w n → j ≠ s.sel →
    s.inst? j = some (v, m) → m.tstate ≠ .uninit → n.tstate = .uninit → crossValid n = true → overlaps n = false →
    (m.ch.get c).valid = true → (n.ch.get d).valid = true → (m.ch.get c).gpio = (n.ch.get d).gpio →
    exec .init s = .next { s with insts := s.insts.set s.sel { n with resultCode := .resourceUnavailable } }

/-! ### Pixels, strips and the host's own steps -/

/-- 41_pixel.md R186, R187, R188: the layout of a packed pixel, and that unpacking gives the low 8 bits of each component. -/
def Obligations.PackUnpack : Prop :=
  ∀ r g b w : Nat,
    (pack r g b w).toNat = (w % 256) * 2 ^ 24 + (r % 256) * 2 ^ 16 + (g % 256) * 2 ^ 8 + b % 256
    ∧ unpack (pack r g b w) = (BitVec.ofNat 8 r, BitVec.ofNat 8 g, BitVec.ofNat 8 b, BitVec.ofNat 8 w)
    ∧ (r < 256 → g < 256 → b < 256 → w < 256 →
        (unpack (pack r g b w)).1.toNat = r ∧ (unpack (pack r g b w)).2.1.toNat = g
          ∧ (unpack (pack r g b w)).2.2.1.toNat = b ∧ (unpack (pack r g b w)).2.2.2.toNat = w)

/-- 30_encoding.md R131: the legal strip descriptors; with any other value in `ARG5` a `CFG` fails with
`InvalidConfiguration`. -/
def Obligations.LegalStripDescriptors : Prop :=
  ∀ v : Word,
    let legal := v.extractLsb' 9 23 = 0 ∧
      ((v.getLsbD 8 = false ∧ [v.extractLsb' 0 2, v.extractLsb' 2 2, v.extractLsb' 4 2].Perm [0, 1, 2]
          ∧ v.extractLsb' 6 2 = 0)
        ∨ (v.getLsbD 8 = true
          ∧ [v.extractLsb' 0 2, v.extractLsb' 2 2, v.extractLsb' 4 2, v.extractLsb' 6 2].Perm [0, 1, 2, 3]))
    (stripWordLegal v = true ↔ legal)
    ∧ ∀ (s : State) (w : Wiring) (n : Instance) (ch : BitVec 2), s.accepts w n → ch.toNat < 2 → n.tstate = .uninit →
      n.args.a5 = v → ¬ legal →
      exec (.cfg ch) s = .next { s with insts := s.insts.set s.sel { n with resultCode := .invalidConfiguration } }

/-- 20_memory.md R91: a pixel word in byte-addressed memory has blue at byte +0, green at +1, red at +2, white at +3; and
four bytes so laid out are the word. -/
def Obligations.PixelWordInMemory : Prop :=
  ∀ (r g b w : Nat) (v : Word),
    byteOf (pack r g b w) 0 = BitVec.ofNat 8 b ∧ byteOf (pack r g b w) 1 = BitVec.ofNat 8 g
    ∧ byteOf (pack r g b w) 2 = BitVec.ofNat 8 r ∧ byteOf (pack r g b w) 3 = BitVec.ofNat 8 w
    ∧ wordOf (byteOf v 0) (byteOf v 1) (byteOf v 2) (byteOf v 3) = v

/-- 30_encoding.md §5: what the pseudo-instructions expand to, and that `setGamma`, `setRange` and `fill` check their bounds
before they issue anything: `setGamma` its table; `setRange` the length it has just asked for by `PIXLEN` and read at
0x8C; `fill` is `setRange` of copies. A failed check leaves every instance as it is and takes the whole
pseudo-instruction off the thread's program. That a check or an expansion is one step of the host thread, and that the
result stands in the thread, is the model's (log 26), and so is an index past 24 bits taken modulo 2^24 (log 31). The second part is a whole
`setRange` that does not fit: its four
steps change nothing of the instance but `PRESULT` and the pixel code, by its `PIXLEN`. `wait_idle` reads `STATUS` once a
step until `BUSY` reads 0 (log 28). -/
def Obligations.PseudoInstructionsCheckFirst : Prop :=
  (∀ (s : State) (ms : List Move) (h : Nat) (th : HostThread) (base : Nat) (ch : BitVec 2) (table : List Nat) (first : Nat)
    (vs : List Word) (v : Word) (cnt : Nat) (rest : List HostOp), s.sched = .host h :: ms → s.hosts[h]? = some th →
    let becomes (prog : List HostOp) (pres : Code) : Prop :=
      step s = .next { s with sched := ms, hosts := s.hosts.set h { th with prog := prog, pres := pres } }
    let put (x : Word) (i : Nat) : List HostOp :=
      [.store (base + 0x88) 4 x, .store (base + 0x80) 4 (0x2#4 ++ 0#2 ++ ch ++ BitVec.ofNat 24 i), .load (base + 0x84) 4]
    (th.prog = .setGamma base ch table :: rest → (table.length ≠ 256 ∨ ∃ g ∈ table, 255 < g) →
      becomes rest .invalidConfiguration)
    ∧ (th.prog = .setGamma base ch table :: rest → table.length = 256 → (∀ g ∈ table, g ≤ 255) →
      becomes ((List.range 256).map (fun j => HostOp.store base 4
        (0x4#4 ++ 0#2 ++ ch ++ 0#8 ++ BitVec.ofNat 8 j ++ BitVec.ofNat 8 (table.getD j 0))) ++ rest) .ok)
    ∧ (th.prog = .setRange base ch first vs :: rest →
      becomes (.store (base + 0x80) 4 (0x3#4 ++ 0#2 ++ ch ++ 0#24) :: .load (base + 0x8C) 4
        :: .rangeGuard base ch first vs :: rest) th.pres)
    ∧ (th.prog = .rangeGuard base ch first vs :: rest → th.rdata.toNat < first + vs.length →
      becomes rest .indexOutOfRange)
    ∧ (th.prog = .rangeGuard base ch first vs :: rest → first + vs.length ≤ th.rdata.toNat →
      becomes ((List.range vs.length).flatMap (fun j => put (vs.getD j 0) (first + j)) ++ rest) .ok)
    ∧ (th.prog = .fill base ch v first cnt :: rest →
      becomes (.setRange base ch first (List.replicate cnt v) :: rest) th.pres))
  ∧ (∀ (s : State) (ms : List Move) (h k : Nat) (th : HostThread) (base : Nat) (ch : BitVec 2) (c : Idx) (first : Nat)
    (vs : List Word) (rest : List HostOp) (w : Wiring) (n : Instance),
    s.sched = List.replicate 4 (.host h) ++ ms → s.hosts[h]? = some th → th.prog = .setRange base ch first vs :: rest →
    locate s.params (base + 0x80) = some (k, 0x80) → locate s.params (base + 0x8C) = some (k, 0x8C) →
    s.inst? k = some (w, n) → ch.toNat = c.toNat → (n.ch.get c).count.toNat < first + vs.length →
    Sys2Proof.core.run 4 s = .next { s with
      sched := ms, sel := k
      hosts := s.hosts.set h
        { th with prog := rest, rdata := (n.ch.get c).count.setWidth 32, pres := .indexOutOfRange }
      insts := s.insts.set k { n with presult := (n.ch.get c).count.setWidth 32, presultCode := .ok } })
  ∧ (∀ (s : State) (ms : List Move) (h k : Nat) (th : HostThread) (base : Nat) (rest : List HostOp) (w : Wiring)
    (n : Instance), s.sched = .host h :: ms → s.hosts[h]? = some th → th.prog = .waitIdle base :: rest →
    locate s.params (base + 0x04) = some (k, 0x04) → s.inst? k = some (w, n) →
    step s = .next { s with
      sched := ms
      hosts := s.hosts.set h
        { th with prog := if n.sq = none then rest else .waitIdle base :: rest, rdata := n.readReg .status } })
  ∧ ∀ (base : Nat) (ch : BitVec 2) (pin f d inv b st cnt hnd v : Word) (br i : BitVec 24),
    let wr (off : Nat) (x : Word) : HostOp := .store (base + off) 4 x
    let rd (off : Nat) : HostOp := .load (base + off) 4
    asmConfigure base ch pin f d inv b st cnt =
      [wr 0x08 pin, wr 0x0C f, wr 0x10 d, wr 0x14 inv, wr 0x18 b, wr 0x1C st, wr 0x20 cnt, wr 0x00 (0x1#4 ++ 0#2 ++ ch ++ 0#24)]
    ∧ asmSetBrightness base ch br = [wr 0x00 (0x3#4 ++ 0#2 ++ ch ++ br)]
    ∧ asmInit base = [wr 0x00 0x20000000]
    ∧ asmRender base = [wr 0x00 0x50000000, .waitIdle base]
    ∧ asmRenderNB base = [wr 0x00 0x60000000, .waitIdle base, rd 0x24]
    ∧ asmPoll base hnd = [wr 0x08 hnd, wr 0x00 0x70000000, rd 0x24]
    ∧ asmFini base = [wr 0x00 0x80000000, .waitIdle base]
    ∧ asmGet base ch i = [wr 0x80 (0x1#4 ++ 0#2 ++ ch ++ i), rd 0x84, rd 0x8C]
    ∧ asmSet base ch i v = [wr 0x88 v, wr 0x80 (0x2#4 ++ 0#2 ++ ch ++ i), rd 0x84]
    ∧ asmLen base ch = [wr 0x80 (0x3#4 ++ 0#2 ++ ch ++ 0#24), rd 0x8C]
end

