-- ==== Sys2Proof/Laws/Decode.lean ====
section
/-! SUPPORT. The fields of a word of format `C` (30_encoding.md R111), and a word put together again from its fields. -/

namespace Sys2Proof

theorem opField_formatC (op : BitVec 4) (ch : BitVec 2) (imm : BitVec 24) : opField (formatC op ch imm) = op := by
  apply BitVec.eq_of_getLsbD_eq
  intro i hi
  simp only [opField, formatC, BitVec.getLsbD_extractLsb', BitVec.getLsbD_append, hi, decide_true, Bool.true_and]
  rw [if_neg (by omega), if_neg (by omega), if_neg (by omega)]
  congr 1
  omega

theorem rsvField_formatC (op : BitVec 4) (ch : BitVec 2) (imm : BitVec 24) : rsvField (formatC op ch imm) = 0 := by
  apply BitVec.eq_of_getLsbD_eq
  intro i hi
  simp only [rsvField, formatC, BitVec.getLsbD_extractLsb', BitVec.getLsbD_append, hi, decide_true, Bool.true_and]
  rw [if_neg (by omega), if_neg (by omega), if_pos (by omega)]
  simp

theorem chField_formatC (op : BitVec 4) (ch : BitVec 2) (imm : BitVec 24) : chField (formatC op ch imm) = ch := by
  apply BitVec.eq_of_getLsbD_eq
  intro i hi
  simp only [chField, formatC, BitVec.getLsbD_extractLsb', BitVec.getLsbD_append, hi, decide_true, Bool.true_and]
  rw [if_neg (by omega), if_pos (by omega)]
  congr 1
  omega

theorem immField_formatC (op : BitVec 4) (ch : BitVec 2) (imm : BitVec 24) : immField (formatC op ch imm) = imm := by
  apply BitVec.eq_of_getLsbD_eq
  intro i hi
  simp only [immField, formatC, BitVec.getLsbD_extractLsb', BitVec.getLsbD_append, hi, decide_true, Bool.true_and]
  rw [if_pos (by omega)]
  congr 1
  omega

/-- A word whose reserved bits are 0 is its fields put together. -/
theorem formatC_fields (v : Word) (h : rsvField v = 0) : formatC (opField v) (chField v) (immField v) = v := by
  apply BitVec.eq_of_getLsbD_eq
  intro i hi
  have h26 : v.getLsbD 26 = false := by simpa [rsvField] using congrArg (fun b : BitVec 2 => b.getLsbD 0) h
  have h27 : v.getLsbD 27 = false := by simpa [rsvField] using congrArg (fun b : BitVec 2 => b.getLsbD 1) h
  simp only [formatC, opField, chField, immField, BitVec.getLsbD_append, BitVec.getLsbD_extractLsb']
  split
  · simp [*]
  · split
    · have : 24 + (i - 24) = i := by omega
      have : i - 24 < 2 := by omega
      simp [*]
    · split
      · have : i = 26 ∨ i = 27 := by omega
        rcases this with rfl | rfl
        · simpa using h26
        · simpa using h27
      · have : 28 + (i - 24 - 2 - 2) = i := by omega
        have : i - 24 - 2 - 2 < 4 := by omega
        simp [*]

/-- A 24-bit immediate whose upper byte is 0 is its two lower bytes put together (`GAMMAWR`, R112). -/
theorem imm_bytes (m : BitVec 24) (h : m.extractLsb' 16 8 = 0) :
    (0#8 ++ m.extractLsb' 8 8 ++ m.extractLsb' 0 8 : BitVec 24) = m := by
  apply BitVec.eq_of_getLsbD_eq
  intro i hi
  simp only [BitVec.getLsbD_append, BitVec.getLsbD_extractLsb']
  split
  · simp [*]
  · split
    · have : 8 + (i - 8) = i := by omega
      have : i - 8 < 8 := by omega
      simp [*]
    · have hb := congrArg (fun b : BitVec 8 => b.getLsbD (i - 16)) h
      have h1 : i - 16 < 8 := by omega
      have h2 : 16 + (i - 16) = i := by omega
      simp only [BitVec.getLsbD_extractLsb', h1, h2, decide_true, Bool.true_and] at hb
      simp [hb]

/-- The lower two bytes of an immediate with a zero upper byte. -/
theorem bytes_imm (j v : BitVec 8) :
    (0#8 ++ j ++ v : BitVec 24).extractLsb' 16 8 = 0 ∧ (0#8 ++ j ++ v : BitVec 24).extractLsb' 8 8 = j
      ∧ (0#8 ++ j ++ v : BitVec 24).extractLsb' 0 8 = v := by
  refine ⟨?_, ?_, ?_⟩ <;> apply BitVec.eq_of_getLsbD_eq <;> intro i hi <;>
    simp only [BitVec.getLsbD_append, BitVec.getLsbD_extractLsb', hi, decide_true, Bool.true_and]
  · rw [if_neg (by omega), if_neg (by omega)]; simp
  · rw [if_neg (by omega), if_pos (by omega)]; congr 1; omega
  · rw [if_pos (by omega)]; congr 1; omega

end Sys2Proof
end

