-- ==== Sys2Proof/Laws/Memory.lean ====
section
/-! SUPPORT. Read after write, and that every memory operation keeps the canonical form. -/

namespace Sys2Proof.Machine

variable {w : Nat} (d : Nat → BitVec w)

@[simp] theorem Memory.read_nil (a : Nat) : Memory.read d [] a = d a := rfl

@[simp] theorem Memory.wf_nil : Memory.wf d ([] : Memory w) = true := rfl

/-- Below the bound of its canonical form a memory lists nothing. -/
theorem Memory.read_below {m : Memory w} {lo a : Nat} (h : Memory.wfFrom d lo m = true) (ha : a < lo) :
    Memory.read d m a = d a := by
  induction m generalizing lo with
  | nil => rfl
  | cons e m ih =>
    obtain ⟨b, v⟩ := e
    simp only [Memory.wfFrom, Bool.and_eq_true, decide_eq_true_eq] at h
    have hb : a ≠ b := by omega
    simp only [Memory.read, if_neg hb]
    exact ih h.2 (by omega)

theorem Memory.wfFrom_mono {m : Memory w} {lo lo' : Nat} (h : Memory.wfFrom d lo m = true) (hl : lo' ≤ lo) :
    Memory.wfFrom d lo' m = true := by
  cases m with
  | nil => rfl
  | cons e m =>
    simp only [Memory.wfFrom, Bool.and_eq_true, decide_eq_true_eq] at h ⊢
    exact ⟨⟨by omega, h.1.2⟩, h.2⟩

theorem Memory.wfFrom_cons {m : Memory w} {lo a : Nat} (v : BitVec w) (hl : lo ≤ a) (h : Memory.wfFrom d (a + 1) m = true) :
    Memory.wfFrom d lo (Memory.cons d a v m) = true := by
  unfold Memory.cons
  split
  · exact Memory.wfFrom_mono d h (by omega)
  · simp [Memory.wfFrom, *]

theorem Memory.wfFrom_write {m : Memory w} {lo a : Nat} (v : BitVec w) (h : Memory.wfFrom d lo m = true) (hl : lo ≤ a) :
    Memory.wfFrom d lo (Memory.write d m a v) = true := by
  induction m generalizing lo with
  | nil => exact Memory.wfFrom_cons d v hl rfl
  | cons e m ih =>
    obtain ⟨b, u⟩ := e
    have h' := h
    simp only [Memory.wfFrom, Bool.and_eq_true, decide_eq_true_eq] at h'
    unfold Memory.write
    split
    · refine Memory.wfFrom_cons d v hl ?_
      simp only [Memory.wfFrom, Bool.and_eq_true, decide_eq_true_eq]
      exact ⟨⟨by omega, h'.1.2⟩, h'.2⟩
    · split
      · subst a
        exact Memory.wfFrom_cons d v hl h'.2
      · simp only [Memory.wfFrom, Bool.and_eq_true, decide_eq_true_eq]
        exact ⟨h'.1, ih h'.2 (by omega)⟩

/-- A write keeps the canonical form. -/
theorem Memory.wf_write {m : Memory w} (a : Nat) (v : BitVec w) (h : Memory.wf d m = true) :
    Memory.wf d (Memory.write d m a v) = true := Memory.wfFrom_write d v h (Nat.zero_le a)

/-- Writes one after the other keep the canonical form. -/
theorem Memory.wf_writeAll {m : Memory w} (l : List (Nat × BitVec w)) (h : Memory.wf d m = true) :
    Memory.wf d (Memory.writeAll d m l) = true := by
  induction l generalizing m with
  | nil => exact h
  | cons e l ih => exact ih (Memory.wf_write d e.1 e.2 h)

theorem Memory.read_cons {m : Memory w} {a b : Nat} (v : BitVec w) (h : Memory.wfFrom d (a + 1) m = true) :
    Memory.read d (Memory.cons d a v m) b = if b = a then v else Memory.read d m b := by
  unfold Memory.cons
  split
  · rename_i hv
    split
    · subst b; rw [Memory.read_below d h (by omega), hv]
    · rfl
  · rfl

/-- What a memory in canonical form reads as after a write. -/
theorem Memory.read_write {m : Memory w} {lo : Nat} (h : Memory.wfFrom d lo m = true) (a b : Nat) (v : BitVec w) :
    Memory.read d (Memory.write d m a v) b = if b = a then v else Memory.read d m b := by
  induction m generalizing lo with
  | nil => exact Memory.read_cons d v rfl
  | cons e m ih =>
    obtain ⟨c, u⟩ := e
    have h' := h
    simp only [Memory.wfFrom, Bool.and_eq_true, decide_eq_true_eq] at h'
    unfold Memory.write
    split
    · refine Memory.read_cons d v ?_
      simp only [Memory.wfFrom, Bool.and_eq_true, decide_eq_true_eq]
      exact ⟨⟨by omega, h'.1.2⟩, h'.2⟩
    · split
      · subst a
        rw [Memory.read_cons d v h'.2]
        simp only [Memory.read]
        split <;> rfl
      · simp only [Memory.read, ih h'.2]
        split
        · subst b
          rw [if_neg (by omega)]
        · rfl

/-- Two memories in canonical form that read alike everywhere are equal lists. -/
theorem Memory.ext_read {m m' : Memory w} {lo : Nat} (h : Memory.wfFrom d lo m = true) (h' : Memory.wfFrom d lo m' = true)
    (hr : ∀ a, Memory.read d m a = Memory.read d m' a) : m = m' := by
  induction m generalizing m' lo with
  | nil =>
    cases m' with
    | nil => rfl
    | cons e m' =>
      have := hr e.1
      simp_all [Memory.read, Memory.wfFrom]
  | cons e m ih =>
    cases m' with
    | nil =>
      have := hr e.1
      simp_all [Memory.read, Memory.wfFrom]
    | cons e' m' =>
      obtain ⟨a, v⟩ := e
      obtain ⟨b, u⟩ := e'
      simp only [Memory.wfFrom, Bool.and_eq_true, decide_eq_true_eq, bne_iff_ne] at h h'
      have hab : a = b := by
        rcases Nat.lt_trichotomy a b with hl | he | hl
        · have := hr a
          rw [Memory.read_below d (lo := b) (m := (b, u) :: m') (by simp [Memory.wfFrom, h'.1.2, h'.2]) hl] at this
          simp [Memory.read] at this
          exact absurd this h.1.2
        · exact he
        · have := hr b
          rw [Memory.read_below d (lo := a) (m := (a, v) :: m) (by simp [Memory.wfFrom, h.1.2, h.2]) hl] at this
          simp [Memory.read] at this
          exact absurd this.symm h'.1.2
      subst b
      have hv : v = u := by simpa [Memory.read] using hr a
      subst u
      congr 1
      refine ih h.2 h'.2 fun x => ?_
      by_cases hx : x = a
      · subst x
        rw [Memory.read_below d h.2 (by omega), Memory.read_below d h'.2 (by omega)]
      · simpa [Memory.read, hx] using hr x

end Sys2Proof.Machine
end

