-- ==== Sys2Proof/Laws/State.lean ====
section
/-! SUPPORT. One lemma per field per update, so that no proof unfolds a record update; and finding an instance again after
one was replaced. -/

namespace Sys2Proof

/-- `ceilDiv` is the spec's `ceil_div` (00_scope.md R16). -/
theorem ceilDiv_eq (a b : Nat) : ceilDiv a b = (a + b - 1) / b := by
  unfold ceilDiv
  rcases Nat.eq_zero_or_pos b with rfl | h
  · simp
  · congr 1
    omega

@[simp] theorem Idx.other_other (i : Idx) : i.other.other = i := by cases i <;> rfl
@[simp] theorem Idx.other_ne (i : Idx) : i.other ≠ i := by cases i <;> simp [Idx.other]
@[simp] theorem Idx.ne_other (i : Idx) : i ≠ i.other := by cases i <;> simp [Idx.other]
theorem Idx.eq_other_of_ne {i j : Idx} (h : i ≠ j) : i = j.other := by cases i <;> cases j <;> simp_all [Idx.other]

@[simp] theorem Pair.get_set {α : Type} (p : Pair α) (i : Idx) (v : α) : (p.set i v).get i = v := by cases i <;> rfl
theorem Pair.get_set_ne {α : Type} (p : Pair α) {i j : Idx} (v : α) (h : j ≠ i) : (p.set i v).get j = p.get j := by
  cases i <;> cases j <;> first | rfl | exact absurd rfl h
@[simp] theorem Pair.get_set_other {α : Type} (p : Pair α) (i : Idx) (v : α) : (p.set i.other v).get i = p.get i := by
  cases i <;> rfl
@[simp] theorem Pair.get_both {α : Type} (v : α) (i : Idx) : (Pair.both v).get i = v := by cases i <;> rfl
theorem Pair.ext_get {α : Type} {p q : Pair α} (h : ∀ i, p.get i = q.get i) : p = q := by
  cases p; cases q; simpa [Pair.get] using And.intro (h .i0) (h .i1)

namespace Machine

@[simp] theorem State.setInst_params (s : State) (k : Nat) (n : Instance) : (s.setInst k n).params = s.params := rfl
@[simp] theorem State.setInst_insts (s : State) (k : Nat) (n : Instance) : (s.setInst k n).insts = s.insts.set k n := rfl
@[simp] theorem State.setInst_claims (s : State) (k : Nat) (n : Instance) : (s.setInst k n).claims = s.claims := rfl
@[simp] theorem State.setInst_hosts (s : State) (k : Nat) (n : Instance) : (s.setInst k n).hosts = s.hosts := rfl
@[simp] theorem State.setInst_sel (s : State) (k : Nat) (n : Instance) : (s.setInst k n).sel = s.sel := rfl
@[simp] theorem State.setInst_sched (s : State) (k : Nat) (n : Instance) : (s.setInst k n).sched = s.sched := rfl
@[simp] theorem State.setInst_tick (s : State) (k : Nat) (n : Instance) : (s.setInst k n).tick = s.tick := rfl

@[simp] theorem State.setHost_params (s : State) (h : Nat) (t : HostThread) : (s.setHost h t).params = s.params := rfl
@[simp] theorem State.setHost_insts (s : State) (h : Nat) (t : HostThread) : (s.setHost h t).insts = s.insts := rfl
@[simp] theorem State.setHost_claims (s : State) (h : Nat) (t : HostThread) : (s.setHost h t).claims = s.claims := rfl
@[simp] theorem State.setHost_hosts (s : State) (h : Nat) (t : HostThread) : (s.setHost h t).hosts = s.hosts.set h t := rfl
@[simp] theorem State.setHost_sel (s : State) (h : Nat) (t : HostThread) : (s.setHost h t).sel = s.sel := rfl
@[simp] theorem State.setHost_sched (s : State) (h : Nat) (t : HostThread) : (s.setHost h t).sched = s.sched := rfl
@[simp] theorem State.setHost_tick (s : State) (h : Nat) (t : HostThread) : (s.setHost h t).tick = s.tick := rfl

/-- Finding an instance reads the wiring and the instances only. -/
theorem State.inst?_congr {s t : State} (hp : t.params = s.params) (hi : t.insts = s.insts) (k : Nat) :
    t.inst? k = s.inst? k := by simp [State.inst?, hp, hi]

@[simp] theorem State.setHost_inst? (s : State) (h : Nat) (t : HostThread) (k : Nat) :
    (s.setHost h t).inst? k = s.inst? k := rfl

theorem State.inst?_eq_some {s : State} {k : Nat} {w : Wiring} {n : Instance} :
    s.inst? k = some (w, n) ↔ s.params.wiring[k]? = some w ∧ s.insts[k]? = some n := by
  unfold State.inst?
  split <;> simp_all

/-- The instance just replaced is found again. -/
theorem State.setInst_inst?_self {s : State} {k : Nat} {w : Wiring} {n : Instance} (m : Instance)
    (h : s.inst? k = some (w, n)) : (s.setInst k m).inst? k = some (w, m) := by
  obtain ⟨hw, hn⟩ := State.inst?_eq_some.mp h
  refine State.inst?_eq_some.mpr ⟨hw, ?_⟩
  have := (List.getElem?_eq_some_iff.mp hn).1
  simp [State.setInst, this]

/-- Every other instance is found as before. -/
theorem State.setInst_inst?_ne {s : State} {j k : Nat} (m : Instance) (h : j ≠ k) :
    (s.setInst k m).inst? j = s.inst? j := by
  simp [State.inst?, State.setInst, List.getElem?_set_ne (Ne.symm h)]

theorem State.setInst_setInst (s : State) (k : Nat) (m m' : Instance) : (s.setInst k m).setInst k m' = s.setInst k m' := by
  simp [State.setInst]

@[simp] theorem Instance.finish_sq (n : Instance) (c : Code) : (n.finish c).sq = none := rfl
@[simp] theorem Instance.finish_resultCode (n : Instance) (c : Code) : (n.finish c).resultCode = c := rfl
@[simp] theorem Instance.finish_args (n : Instance) (c : Code) : (n.finish c).args = n.args := rfl
@[simp] theorem Instance.finish_result (n : Instance) (c : Code) : (n.finish c).result = n.result := rfl
@[simp] theorem Instance.finish_tstate (n : Instance) (c : Code) : (n.finish c).tstate = n.tstate := rfl
@[simp] theorem Instance.finish_errpend (n : Instance) (c : Code) : (n.finish c).errpend = n.errpend := rfl
@[simp] theorem Instance.finish_seq (n : Instance) (c : Code) : (n.finish c).seq = n.seq := rfl
@[simp] theorem Instance.finish_xerr (n : Instance) (c : Code) : (n.finish c).xerr = n.xerr := rfl
@[simp] theorem Instance.finish_ch (n : Instance) (c : Code) : (n.finish c).ch = n.ch := rfl
@[simp] theorem Instance.finish_gam (n : Instance) (c : Code) : (n.finish c).gam = n.gam := rfl
@[simp] theorem Instance.finish_pix (n : Instance) (c : Code) : (n.finish c).pix = n.pix := rfl
@[simp] theorem Instance.finish_buf (n : Instance) (c : Code) : (n.finish c).buf = n.buf := rfl
@[simp] theorem Instance.finish_flen (n : Instance) (c : Code) : (n.finish c).flen = n.flen := rfl
@[simp] theorem Instance.finish_front (n : Instance) (c : Code) : (n.finish c).front = n.front := rfl
@[simp] theorem Instance.finish_dpos (n : Instance) (c : Code) : (n.finish c).dpos = n.dpos := rfl
@[simp] theorem Instance.finish_line (n : Instance) (c : Code) : (n.finish c).line = n.line := rfl
@[simp] theorem Instance.finish_mux (n : Instance) (c : Code) : (n.finish c).mux = n.mux := rfl
@[simp] theorem Instance.finish_emitted (n : Instance) (c : Code) : (n.finish c).emitted = n.emitted := rfl
@[simp] theorem Instance.raise_eq (n : Instance) (c : Code) : n.raise c = n.finish c := rfl

@[simp] theorem Instance.finishPixel_presultCode (n : Instance) (c : Code) : (n.finishPixel c).presultCode = c := rfl
@[simp] theorem Instance.finishPixel_sq (n : Instance) (c : Code) : (n.finishPixel c).sq = n.sq := rfl
@[simp] theorem Instance.finishPixel_tstate (n : Instance) (c : Code) : (n.finishPixel c).tstate = n.tstate := rfl
@[simp] theorem Instance.finishPixel_ch (n : Instance) (c : Code) : (n.finishPixel c).ch = n.ch := rfl
@[simp] theorem Instance.finishPixel_pix (n : Instance) (c : Code) : (n.finishPixel c).pix = n.pix := rfl
@[simp] theorem Instance.finishPixel_gam (n : Instance) (c : Code) : (n.finishPixel c).gam = n.gam := rfl
@[simp] theorem Instance.finishPixel_buf (n : Instance) (c : Code) : (n.finishPixel c).buf = n.buf := rfl

@[simp] theorem Instance.toPhase_sq (n : Instance) (q : InFlight) (ph : Phase) :
    (n.toPhase q ph).sq = some { q with phase := ph } := rfl
@[simp] theorem Instance.toPhase_tstate (n : Instance) (q : InFlight) (ph : Phase) : (n.toPhase q ph).tstate = n.tstate := rfl
@[simp] theorem Instance.toPhase_ch (n : Instance) (q : InFlight) (ph : Phase) : (n.toPhase q ph).ch = n.ch := rfl
@[simp] theorem Instance.toPhase_pix (n : Instance) (q : InFlight) (ph : Phase) : (n.toPhase q ph).pix = n.pix := rfl
@[simp] theorem Instance.toPhase_gam (n : Instance) (q : InFlight) (ph : Phase) : (n.toPhase q ph).gam = n.gam := rfl
@[simp] theorem Instance.toPhase_buf (n : Instance) (q : InFlight) (ph : Phase) : (n.toPhase q ph).buf = n.buf := rfl

/-- Which channels are active, and which slots they are on, is a matter of the channel records alone. -/
theorem Instance.active_congr {n m : Instance} (h : m.ch = n.ch) : m.active = n.active := by
  simp [Instance.active, h]
theorem Instance.channelOn_congr {n m : Instance} (h : m.ch = n.ch) (t : Idx) : m.channelOn t = n.channelOn t := by
  simp [Instance.channelOn, Instance.active_congr h, h]
theorem Instance.idleLines_congr {n m : Instance} (h : m.ch = n.ch) : m.idleLines = n.idleLines := by
  simp [Instance.idleLines, Instance.idleLevel, Instance.channelOn_congr h, h]

theorem Instance.mem_active {n : Instance} {c : Idx} : c ∈ n.active ↔ (n.ch.get c).valid = true := by
  cases c <;> simp [Instance.active, Idx.all]

/-- Emitting changes the line and what it has carried, nothing else. -/
theorem Instance.emitBoth_eq (n : Instance) (f : Idx → List Bool) :
    n.emitBoth f = { n with
      line := (n.emitBoth f).line
      emitted := ⟨n.emitted.at0 ++ f .i0, n.emitted.at1 ++ f .i1⟩ } := rfl

end Machine
end Sys2Proof
end

