-- ==== Sys2Proof/Laws/Ops.lean ====
section
/-! SUPPORT. The shared operations, each with what it does said once: issuing a command, the channel operand,
`validate`, the checks and
the claims of `INIT`, the lines in use. -/

namespace Sys2Proof.Machine

/-- A `CH` that is not well formed names no channel. -/
theorem channelOf_of_not_ok {ch : BitVec 2} : chOk ch = false → channelOf ch = none := by revert ch; decide

theorem channelOf_big {ch : BitVec 2} : 2 ≤ ch.toNat → channelOf ch = none := by revert ch; decide

theorem channelOf_some {ch : BitVec 2} {c : Idx} : ch.toNat = c.toNat → channelOf ch = some c :=
    by revert ch c; intro ch c; cases c <;> revert ch <;> decide

/-- Completing with no command in flight writes the code and nothing else. -/
theorem Instance.finish_of_idle {n : Instance} (hq : n.sq = none) (c) : n.finish c = { n with resultCode := c } := by
  cases n; simp_all [Instance.finish]

/-- Replacing an instance by itself. -/
theorem State.set_found {s : State} {k w n} (hn : s.inst? k = some (w,n)) : s.insts.set k n = s.insts := by
  have := (State.inst?_eq_some.mp hn).2
  obtain ⟨hk, he⟩ := List.getElem?_eq_some_iff.mp this
  subst he; exact List.set_getElem_self hk

/-- A main-port command that changes its own instance, on a port that accepts it. -/
theorem issueLocal_idle {s : State} {w n f} (hn : s.inst? s.sel = some (w, n)) (hq : n.sq = none) :
    issueLocal s f = .next (s.setInst s.sel (f n)) := by
  simp [issueLocal, issueMain, hn, Instance.busy, hq]

theorem issueMain_idle {s : State} {w n f} (hn : s.inst? s.sel = some (w, n)) (hq : n.sq = none) :
    issueMain s f = .next (f w n) := by
  simp [issueMain, hn, Instance.busy, hq]

theorem issuePixel_found {s : State} {w n f} (hn : s.inst? s.sel = some (w, n)) :
    issuePixel s f = .next (s.setInst s.sel (f n)) := by
  simp [issuePixel, hn]

theorem setW {a : Nat} (v : Word) : v.extractLsb' 0 a = v.setWidth a := by
  apply BitVec.eq_of_getLsbD_eq; intro i hi; simp [hi]

theorem flags_zero {v : Word} : v.extractLsb' 1 31 = 0 ↔ v.toNat ≤ 1 := by
  constructor
  · intro h
    have := congrArg BitVec.toNat h
    simp [BitVec.extractLsb'_toNat, Nat.shiftRight_eq_div_pow] at this
    omega
  · intro h
    apply BitVec.eq_of_toNat_eq
    simp [BitVec.extractLsb'_toNat, Nat.shiftRight_eq_div_pow]
    omega

/-- `validate` passes exactly when each of the seven checks does (40_config.md R151). -/
theorem validate_eq_none {p : Params} {a : Args} : validate p a = none ↔
    (∃ t, pinSlot p a.a0.toNat = some t) ∧ a.a1.toNat ∈ p.freqSet ∧ a.a2.toNat ≤ p.dmaIdMax
        ∧ a.a2.toNat ∉ p.reservedDma
      ∧ a.a3.extractLsb' 1 31 = 0 ∧ a.a4.toNat ≤ 255 ∧ a.a5.toNat < 512 ∧ stripLegal (a.a5.extractLsb' 0 9) = true
      ∧ a.a6.toNat ≤ p.maxPixels := by
  unfold validate
  rw [← Option.isSome_iff_exists]
  constructor
  · intro h
    split at h; · cases h
    split at h; · cases h
    split at h; · cases h
    split at h; · cases h
    split at h; · cases h
    split at h; · cases h
    split at h; · cases h
    simp_all [stripWordLegal, Option.isSome_iff_ne_none]
  · rintro ⟨h0, h1, h2, h2', h3, h4, h5, h5', h6⟩
    rw [if_neg (by simpa [Option.isSome_iff_ne_none] using h0), if_neg (by simpa using h1), if_neg (by simp [h2']; omega), if_neg (by simpa using h3),
      if_neg (by omega), if_neg (by simp [stripWordLegal, h5, h5']), if_neg (by omega)]

/-- `crossValidate` passes (44_transport.md R281). -/
theorem crossValid_iff {n} : crossValid n = true ↔ (∃ c, (n.ch.get c).valid = true)
    ∧ ∀ c d, (n.ch.get c).valid = true → (n.ch.get d).valid = true → (n.ch.get c).freq = (n.ch.get d).freq
    ∧ (n.ch.get c).dma = (n.ch.get d).dma := by
  simp only [crossValid, Instance.agree, Bool.and_eq_true, List.all_eq_true, Instance.mem_active, beq_iff_eq]
  constructor
  · rintro ⟨⟨h1, h2⟩, h3⟩
    refine ⟨?_, fun c d hc hd => ⟨h2 c hc d hd, h3 c hc d hd⟩⟩
    cases ha : n.active with
    | nil => simp [ha] at h1
    | cons c l => exact ⟨c, Instance.mem_active.mp (by simp [ha])⟩
  · rintro ⟨⟨c, hc⟩, h⟩
    refine ⟨⟨?_, fun c hc d hd => (h c d hc hd).1⟩, fun c hc d hd => (h c d hc hd).2⟩
    have := Instance.mem_active.mpr hc
    cases ha : n.active <;> simp_all

/-- `overlapCheck` fails (R283). -/
theorem overlaps_iff {n} : overlaps n = true ↔ ∃ c d, c ≠ d ∧ (n.ch.get c).valid = true ∧ (n.ch.get d).valid = true
    ∧ (n.ch.get c).slot = (n.ch.get d).slot := by
  simp only [overlaps, List.any_eq_true, Instance.mem_active, Bool.and_eq_true, beq_iff_eq, bne_iff_ne]
  constructor
  · rintro ⟨c, hc, d, hd, h1, h2⟩; exact ⟨c, d, h1, hc, hd, h2⟩
  · rintro ⟨c, d, h1, hc, hd, h2⟩; exact ⟨c, hc, d, hd, h1, h2⟩

/-- What an `INIT` claims (R284). -/
theorem mem_claimSet {w n i} : i ∈ claimSet w n ↔ (∃ t, i = .pwm w.pwmCtrl t) ∨ ∃ c, (n.ch.get c).valid = true
    ∧ (i = .pin (n.ch.get c).gpio.toNat ∨ i = .dma (n.ch.get c).dma.toNat) := by
  simp only [claimSet, List.mem_append, List.mem_map, Instance.mem_active]
  constructor
  · rintro ((⟨c, h, rfl⟩ | ⟨t, h, rfl⟩) | ⟨c, h, rfl⟩)
    · exact .inr ⟨c, h, .inl rfl⟩
    · exact .inl ⟨t, rfl⟩
    · exact .inr ⟨c, h, .inr rfl⟩
  · rintro (⟨t, rfl⟩ | ⟨c, h, rfl | rfl⟩)
    · exact .inl (.inr ⟨t, by cases t <;> simp [Idx.all], rfl⟩)
    · exact .inl (.inl ⟨c, h, rfl⟩)
    · exact .inr ⟨c, h, rfl⟩

theorem claimed_iff {cs ids} : claimed cs ids = true ↔ ∃ x ∈ cs, x.id ∈ ids := by simp [claimed]

/-- The registry after the claims are made (R285). -/
theorem mem_addClaims (cs : List Claim) (ids me) (x : Claim) : x ∈ addClaims cs ids me ↔ x ∈ cs ∨ (x.owner = me
    ∧ x.id ∈ ids) := by
  unfold addClaims
  induction ids generalizing cs with
  | nil => simp
  | cons i ids ih =>
    simp only [List.foldl_cons]
    rw [ih]
    cases x with | mk id owner =>
    split
    · rename_i h; simp at h
      constructor
      · rintro (h1 | ⟨h1, h2⟩); exact .inl h1; exact .inr ⟨h1, .tail _ h2⟩
      · rintro (h1 | ⟨h1, h2⟩); exact .inl h1
        simp only at h1 h2; subst h1
        rcases List.mem_cons.mp h2 with rfl | h2
        · exact .inl h
        · exact .inr ⟨rfl, h2⟩
    · simp
      constructor
      · rintro ((h1 | ⟨rfl, rfl⟩) | ⟨h1, h2⟩); exact .inl h1; exact .inr ⟨rfl, .inl rfl⟩; exact .inr ⟨h1, .inr h2⟩
      · rintro (h1 | ⟨rfl, rfl | h2⟩); exact .inl (.inl h1); exact .inl (.inr ⟨rfl, rfl⟩); exact .inr ⟨rfl, h2⟩

/-- The registry after a release (R318). -/
theorem mem_release {cs : List Claim} {o : Nat} {x} : x ∈ (cs.filter fun x => x.owner != o) ↔ x ∈ cs
    ∧ x.owner ≠ o := by simp

theorem channelOn_some {n : Instance} {t c} (h : n.channelOn t = some c) : (n.ch.get c).valid = true
    ∧ (n.ch.get c).slot = t := by
  unfold Instance.channelOn at h
  have h1 := List.find?_some h
  have h2 := List.mem_of_find?_eq_some h
  exact ⟨Instance.mem_active.mp h2, by simpa using h1⟩

theorem channelOn_of {n : Instance} {c} (hv : (n.ch.get c).valid = true) (ho : ∀ d, (n.ch.get d).valid = true →
    (n.ch.get d).slot = (n.ch.get c).slot → d = c) : n.channelOn (n.ch.get c).slot = some c := by
  cases h : n.channelOn (n.ch.get c).slot with
  | some d => have := channelOn_some h; rw [ho d this.1 this.2]
  | none =>
    unfold Instance.channelOn at h
    have := List.find?_eq_none.mp h c (Instance.mem_active.mpr hv)
    simp at this

theorem channelOn_none {n : Instance} {t} (h : ∀ c, (n.ch.get c).valid = true →
    (n.ch.get c).slot ≠ t) : n.channelOn t = none := by
  cases hh : n.channelOn t with
  | none => rfl
  | some d => have := channelOn_some hh; exact absurd this.2 (h d this.1)

theorem idleLines_get (n : Instance) (t) : n.idleLines.get t = n.idleLevel t := by cases t <;> rfl

theorem idleLines_mk (n : Instance) : n.idleLines =
    ⟨match n.channelOn .i0 with
      | some c => Level.driven (n.ch.get c).invert
      | none => Level.undriven,
    match n.channelOn .i1 with
      | some c => Level.driven (n.ch.get c).invert
      | none => Level.undriven⟩ := rfl

theorem xerr_word {x : Xerr} : x.word = 0 ↔ x.any = false := by
  obtain ⟨a, b, c⟩ := x
  cases a <;> cases b <;> cases c <;> decide

/-- No handle is 0 (10_state.md R35). -/
theorem nextSeq_ne (q : Word) : nextSeq q ≠ 0 := by
  unfold nextSeq; split
  · decide
  · rename_i h; intro h0; apply h; 
    have := congrArg (· - 1) h0
    simp at this; rw [this]; decide

end Sys2Proof.Machine
end

