-- ==== Sys2Proof/Laws/Render.lean ====
section
/-! SUPPORT. The encoder and the frame builder: lengths, the bits of a built frame, the phases of an encode, and what
a start and a drain
step leave alone. -/

namespace Sys2Proof.Machine

theorem bitsMSB_length (v n) : (bitsMSB v n).length = n := by simp [bitsMSB]

theorem symbol_length (p b) : (symbol p b).length = p.symLen := by simp [symbol, bitsMSB_length]

theorem getElem?_flatten_of_length {α} (L : Nat) : ∀ (l : List (List α)) (_ : ∀ x ∈ l, x.length = L) (a b : Nat) (_ :
    b < L), l.flatten[a * L + b]? = (l[a]?).bind (·[b]?) := by
  intro l
  induction l with
  | nil => intro _ a b _; simp
  | cons x l ih =>
    intro h a b hb
    have hx := h x (by simp)
    cases a with
    | zero => simp [List.getElem?_append, hx, hb]
    | succ a =>
      have : (a + 1) * L + b = L + (a * L + b) := by ring
      rw [this, List.flatten_cons, List.getElem?_append_right (by omega), hx, Nat.add_sub_cancel_left, ih
          (fun y hy => h y (by simp [hy])) a b hb]
      simp

theorem length_flatten_of_length {α} (L : Nat) : ∀ (l : List (List α)) (_ :
    ∀ x ∈ l, x.length = L), l.flatten.length = l.length * L := by
  intro l
  induction l with
  | nil => intro _; simp
  | cons x l ih => intro h; simp [ih (fun y hy => h y (by simp [hy])), h x (by simp)]; ring

theorem encodeByte_length (p v) : (encodeByte p v).length = 8 * p.symLen := by
  rw [encodeByte, List.flatMap, length_flatten_of_length p.symLen]
  · simp [bitsMSB_length]
  · intro x hx; obtain ⟨b, _, rfl⟩ := List.mem_map.mp hx; exact symbol_length p b

theorem strip_bytes (d : BitVec 9) : stripBytes d = if d.getLsbD 8 then 4 else 3 := rfl

theorem encodePixel_length (p r gam px) : (encodePixel p r gam px).length = 8 * stripBytes r.strip * p.symLen := by
  rw [encodePixel, List.flatMap, length_flatten_of_length (8 * p.symLen)]
  · simp [outBytes]; ring
  · intro x hx; simp at hx; obtain ⟨v, _, rfl⟩ := hx; exact encodeByte_length p v

/-- The scale does not overflow a byte (42_encoder.md R214). -/
theorem div255 (g b : Byte) : (scale g b).toNat = g.toNat * b.toNat / 255 := by
  have := g.isLt; have := b.isLt
  have : g.toNat * b.toNat ≤ 255 * 255 := Nat.mul_le_mul (by omega) (by omega)
  simp [scale]
  omega

theorem stripSel_eq (d : BitVec 9) (k : Nat) : stripSel d k = (d.extractLsb' (2 * k) 2).toNat := by
  simp [stripSel, BitVec.extractLsb'_toNat]

theorem streamOf_nil (p r g) : streamOf p r g [] = resetGap p r := by
  rw [streamOf, List.flatMap_nil, List.nil_append]

/-- A channel without pixels has the reset gap as its stream (42_encoder.md R230). -/
theorem streamOf_no_pixels (p : Params) (n : Instance) (c : Idx) (h0 : (n.ch.get c).count.toNat = 0) :
    streamOf p (n.ch.get c) (n.gam.get c)
        ((List.range (n.ch.get c).count.toNat).map (Memory.read zeroFill (n.pix.get c))) = resetGap p (n.ch.get c) :=
            by
  have : (List.range (n.ch.get c).count.toNat).map (Memory.read zeroFill (n.pix.get c)) = [] := by
    rw [List.map_eq_nil_iff, List.range_eq_nil]; exact h0
  rw [this, streamOf_nil]

theorem pair_set_set {α} (p : Pair α) (c : Idx) (a b : α) : (p.set c a).set c b = p.set c b := by cases c <;> rfl

theorem nextPhase_sq (p : Params) (n : Instance) (x) : ∀ (l : List Idx) (acc), nextPhase p { n with sq :=
    x } l acc = nextPhase p n l acc := by
  intro l
  induction l with
  | nil => intro acc; rfl
  | cons c l ih => intro acc; simp only [nextPhase, ih]

/-- An encode step before the last pixel. -/
theorem encPhase_more {p : Params} {n : Instance} {c i acc} (h : i + 1 < (n.ch.get c).count.toNat) :
    encPhase p n c i acc = .enc c (i + 1) (acc.set c (acc.get c ++ encodePixel p (n.ch.get c) (n.gam.get c)
        (Memory.read zeroFill (n.pix.get c) i))) := by
  simp only [encPhase]; rw [if_pos (by omega), if_pos h]

/-- An encode step at the last pixel. -/
theorem encPhase_last {p : Params} {n : Instance} {c i acc} (h : i + 1 = (n.ch.get c).count.toNat) :
    encPhase p n c i acc = nextPhase p n (Idx.later c) (acc.set c (acc.get c ++ encodePixel p (n.ch.get c)
        (n.gam.get c) (Memory.read zeroFill (n.pix.get c) i) ++ resetGap p (n.ch.get c))) := by
  simp only [encPhase]; rw [if_pos (by omega), if_neg (by omega)]

/-- The encode step of a channel without pixels (log 12). -/
theorem encPhase_empty {p : Params} {n : Instance} {c i acc} (h : (n.ch.get c).count.toNat ≤ i) :
    encPhase p n c i acc = nextPhase p n (Idx.later c) (acc.set c (acc.get c ++ resetGap p (n.ch.get c))) := by
  simp only [encPhase]; rw [if_neg (by omega)]

theorem firstPhase_eq {n : Instance} {c} (hv : (n.ch.get c).valid = true) (hd : ∀ d, d.toNat < c.toNat →
    (n.ch.get d).valid = false) : firstPhase n = .enc c 0 ⟨[], []⟩ := by
  unfold firstPhase Instance.active Idx.all
  cases c
  · have : (n.ch.get .i0).valid = true := hv
    simp [List.filter, this]; rfl
  · have h1 : (n.ch.get .i1).valid = true := hv
    have h0 : (n.ch.get .i0).valid = false := hd .i0 (by decide)
    simp [List.filter, h0, h1]; rfl

theorem slotWord_acc (f : Nat → Bool) (N : Nat) : ∀ b < N, (List.range N).foldl (fun a m => 2 * a +
    (f m).toNat) 0 < 2 ^ N ∧
    ((List.range N).foldl (fun a m => 2 * a + (f m).toNat) 0).testBit (N - 1 - b) = f b := by
  induction N with
  | zero => intro b h; omega
  | succ N ih =>
    intro b hb
    rw [List.range_succ, List.foldl_append]
    simp only [List.foldl_cons, List.foldl_nil]
    generalize hA : (List.range N).foldl (fun a m => 2 * a + (f m).toNat) 0 = A at *
    have hbit : (f N).toNat < 2 := by cases f N <;> simp
    have hA2 : A < 2 ^ N := by
      cases N with
      | zero => simp at hA; omega
      | succ N => exact (ih 0 (by omega)).1
    refine ⟨by rw [pow_succ]; omega, ?_⟩
    by_cases hbN : b = N
    · subst b
      simp only [Nat.add_sub_cancel, Nat.sub_self, Nat.testBit_zero]
      cases f N <;> simp
    · have h1 : N + 1 - 1 - b = (N - 1 - b) + 1 := by omega
      rw [h1, Nat.testBit_succ, show (2 * A + (f N).toNat) / 2 = A by omega]
      exact (ih b (by omega)).2

/-- The bits of a buffer word (43_frame_builder.md R253). -/
theorem slotWord_bit (t : List Bool) (w b : Nat) (hb : b < 32) : (slotWord t w).getLsbD (31 - b) = t.getD
    (32 * w + b) false := by
  have := (slotWord_acc (fun m => (t.drop (32 * w)).getD m false) 32 b hb).2
  simp only [slotWord, BitVec.getLsbD_ofNat]
  rw [this]
  simp [List.getD_eq_getElem?_getD, List.getElem?_drop]; omega

theorem read_writeAll {m : Memory 32} (l : List (Nat × Word)) (hm : Memory.wf zeroFill m = true) (hl :
    (l.map Prod.fst).Nodup) (a : Nat) :
    (∀ v, (a, v) ∈ l → Memory.read zeroFill (Memory.writeAll zeroFill m l) a = v) ∧
    ((∀ e ∈ l, e.1 ≠ a) → Memory.read zeroFill (Memory.writeAll zeroFill m l) a = Memory.read zeroFill m a) := by
  induction l generalizing m with
  | nil => simp [Memory.writeAll]
  | cons e l ih =>
    obtain ⟨b, u⟩ := e
    simp only [List.map_cons, List.nodup_cons] at hl
    obtain ⟨i1, i2⟩ := ih (m := Memory.write zeroFill m b u) (Memory.wf_write _ _ _ hm) hl.2
    simp only [Memory.writeAll]
    constructor
    · intro v hv
      rcases List.mem_cons.mp hv with h | h
      · cases h
        rw [i2 ?_, Memory.read_write zeroFill hm, if_pos rfl]
        intro e he h; exact hl.1 (by rw [← h]; exact List.mem_map_of_mem he)
      · exact i1 v h
    · intro h
      rw [i2 (fun e he => h e (by simp [he])), Memory.read_write zeroFill hm, if_neg (fun hh => h (b, u)
          (by simp) hh.symm)]

theorem frameWords_fst (n acc) : (frameWords n acc).map Prod.fst = List.range (2 * frameSteps n acc) := by
  simp only [frameWords]
  induction frameSteps n acc with
  | zero => rfl
  | succ N ih =>
    rw [List.range_succ, List.flatMap_append, List.map_append, ih]
    simp [show 2 * (N + 1) = 2 * N + 1 + 1 by ring, List.range_succ]

theorem foldl_max_spec (l : List Nat) : ∀ a, (a ≤ l.foldl max a ∧ ∀ x ∈ l, x ≤ l.foldl max a)
    ∧ (l.foldl max a = a ∨ l.foldl max a ∈ l) := by
  induction l with
  | nil => intro a; simp
  | cons x l ih =>
    intro a
    obtain ⟨⟨h1, h2⟩, h3⟩ := ih (max a x)
    simp only [List.foldl_cons]
    refine ⟨⟨by omega, ?_⟩, ?_⟩
    · intro y hy; rcases List.mem_cons.mp hy with rfl | hy
      · omega
      · exact h2 y hy
    · rcases h3 with h | h
      · rcases Nat.le_total a x with hx | hx
        · right; rw [h, max_eq_right hx]; simp
        · left; rw [h, max_eq_left hx]
      · right; simp [h]

theorem frameSteps_ge {n : Instance} {acc c} (hc : (n.ch.get c).valid = true) :
    ((acc.get c).length + 31) / 32 ≤ frameSteps n acc :=
  (foldl_max_spec _ 0).1.2 _ (List.mem_map.mpr ⟨c, Instance.mem_active.mpr hc, by rw [ceilDiv_eq]; rfl⟩)

theorem frameSteps_or {n : Instance} {acc} : frameSteps n acc = 0 ∨ ∃ c, (n.ch.get c).valid = true
    ∧ ((acc.get c).length + 31) / 32 = frameSteps n acc := by
  rcases (foldl_max_spec (n.active.map fun c => ceilDiv (acc.get c).length 32) 0).2 with h | h
  · exact .inl h
  · obtain ⟨c, hc, h⟩ := List.mem_map.mp h
    exact .inr ⟨c, Instance.mem_active.mp hc, by rw [ceilDiv_eq] at h; exact h⟩

theorem frameWords_mem {n : Instance} {acc} {j t} (hj : j < frameSteps n acc) :
    (2 * j + t.toNat, slotWord (slotStream n acc t) j) ∈ frameWords n acc := by
  simp only [frameWords, List.mem_flatMap, List.mem_range]
  exact ⟨j, hj, by cases t <;> simp [Idx.toNat]⟩

/-- The bits of a built frame (R253, R255). -/
theorem frame_bit {n : Instance} {acc} {m0 : Memory 32} (hm : Memory.wf zeroFill m0 = true) {j t b} (hj :
    j < frameSteps n acc) (hb : b < 32) :
   (Memory.read zeroFill (Memory.writeAll zeroFill m0 (frameWords n acc)) (2 * j + t.toNat)).getLsbD (31 - b)
          = (match n.channelOn t with
            | some c => (acc.get c).getD (32 * j + b) false
            | none => false) := by
  rw [(read_writeAll _ hm (by rw [frameWords_fst]; exact List.nodup_range) _).1 _ (frameWords_mem hj), slotWord_bit _ _ _ hb]
  simp only [slotStream]
  cases n.channelOn t <;> simp

theorem bits32 (v : Word) : bitsMSB v.toNat 32 = (List.range 32).map fun m => v.getLsbD (31 - m) := by
  simp [bitsMSB, BitVec.getLsbD]

theorem stepBits_eq (n : Instance) (t : Idx) : stepBits n t = match n.channelOn t with
    | none => []
    | some c => (List.range 32).map fun m => (Memory.read zeroFill (n.buf.get n.front)
        (2 * n.dpos + t.toNat)).getLsbD (31 - m) ^^ (n.ch.get c).invert := by
  unfold stepBits
  rw [bits32]
  cases n.channelOn t <;> simp

theorem emitBoth_line (n : Instance) (f : Idx → List Bool) : (n.emitBoth f).line = ⟨match
    (f .i0).getLast? with | some b => .driven b | none => n.line.at0, match
    (f .i1).getLast? with | some b => .driven b | none => n.line.at1⟩ := by
  simp only [Instance.emitBoth, Instance.emit]
  cases (f .i0).getLast? <;> cases (f .i1).getLast? <;> rfl

/-- What a drain step leaves alone. -/
theorem drainInst_frame (p : Params) (n : Instance) (e) : (drainInst p n e).ch = n.ch
    ∧ (drainInst p n e).gam = n.gam ∧ (drainInst p n e).pix = n.pix ∧ (drainInst p n e).buf = n.buf
    ∧ (drainInst p n e).flen = n.flen ∧ (drainInst p n e).front = n.front ∧ (drainInst p n e).seq = n.seq
    ∧ (drainInst p n e).sq = n.sq ∧ (drainInst p n e).mux = n.mux := by
  unfold drainInst
  split
  · unfold drainGood; dsimp only; split <;> simp [Instance.emitBoth, Instance.emit]
  all_goals simp [drainError, Instance.emitBoth, Instance.emit]

/-- What a start phase leaves alone. -/
theorem startPhase_frame (p : Params) (n : Instance) (cmd ok) : (startPhase p n cmd ok).ch = n.ch
    ∧ (startPhase p n cmd ok).gam = n.gam ∧ (startPhase p n cmd ok).pix = n.pix
    ∧ (startPhase p n cmd ok).buf = n.buf ∧ (startPhase p n cmd ok).flen = n.flen
    ∧ (startPhase p n cmd ok).mux = n.mux ∧ (startPhase p n cmd ok).line = n.line
    ∧ (startPhase p n cmd ok).sq = none := by
  unfold startPhase startFrame
  dsimp only
  split
  · simp
  · split <;> split <;> simp [Instance.finish]

end Sys2Proof.Machine
end

