-- ==== Sys2Proof/Laws/Step.lean ====
section
/-! SUPPORT. Everything one step can do, said once: what can become of one instance (`LocalStep`), what can become of the
system (`SysStep`), and that a step answering next does one of these. -/

namespace Sys2Proof.Machine

/-- What a command, an access or an agent's step can make of one instance while the claim registry stays as it is. -/
inductive LocalStep (p : Params) (n : Instance) : Instance → Prop where
  /-- Nothing. -/
  | same : LocalStep p n n
  /-- A command ends with a code and no other effect: an error, or `FINI` in `UNINIT`. -/
  | code (c : Code) (idle : n.sq = none) : LocalStep p n (n.finish c)
  | cfg (c : Idx) (idle : n.sq = none) (uninit : n.tstate = .uninit) (valid : validate p n.args = none) :
      LocalStep p n
        (Instance.finish { n with ch := n.ch.set c (cfgRecord p n.args), pix := n.pix.set c [] } .ok)
  | bright (c : Idx) (b : Byte) (idle : n.sq = none) :
      LocalStep p n (Instance.finish { n with ch := n.ch.set c { n.ch.get c with bright := b } } .ok)
  | gamma (c : Idx) (j v : Byte) (idle : n.sq = none) :
      LocalStep p n
        (Instance.finish { n with gam := n.gam.set c (Memory.write identityTable (n.gam.get c) j.toNat v) } .ok)
  | issue (cmd : Instr) (render : cmd = .render ∨ cmd = .rendernb) (idle : n.sq = none) (up : n.tstate ≠ .uninit) :
      LocalStep p n { n with sq := some ⟨cmd, n.args, firstPhase n⟩ }
  | poll (r : Word) (e : Bool) (told : e = n.errpend ∨ e = false) (idle : n.sq = none) (up : n.tstate ≠ .uninit) :
      LocalStep p n (Instance.finish { n with result := r, errpend := e } .ok)
  | finiWait (idle : n.sq = none) (busy : n.tstate = .transmitting) :
      LocalStep p n { n with sq := some ⟨.fini, n.args, .finiWait⟩ }
  | port (r : Word) (c : Code) : LocalStep p n (Instance.finishPixel { n with presult := r } c)
  | pixwr (c : Idx) (i : Nat) (below : i < (n.ch.get c).count.toNat) :
      LocalStep p n
        (Instance.finishPixel { n with pix := n.pix.set c (Memory.write zeroFill (n.pix.get c) i n.pdata) } .ok)
  | regs (a : Args) (v : Word) : LocalStep p n { n with args := a, pdata := v }
  | enc (q : InFlight) (c : Idx) (i : Nat) (acc : Pair (List Bool)) (flight : n.sq = some q) (at_ : q.phase = .enc c i acc) :
      LocalStep p n (n.toPhase q (encPhase p n c i acc))
  | build (q : InFlight) (acc : Pair (List Bool)) (flight : n.sq = some q) (at_ : q.phase = .build acc) :
      LocalStep p n ((buildFrame n acc).toPhase q .wait)
  | waited (q : InFlight) (flight : n.sq = some q) (at_ : q.phase = .wait) (free : n.tstate ≠ .transmitting) :
      LocalStep p n (n.toPhase q .start)
  | start (q : InFlight) (ok : Bool) (flight : n.sq = some q) (at_ : q.phase = .start) (free : n.tstate ≠ .transmitting) :
      LocalStep p n (startPhase p n q.cmd ok)
  | drain (e : DrainDraw) (on : n.draining = true) : LocalStep p n (drainInst p n e)

/-- What one step can make of the system. -/
inductive SysStep (s t : State) : Prop where
  /-- Nothing but host threads, the schedule and its counter changes. -/
  | quiet (params : t.params = s.params) (insts : t.insts = s.insts) (claims : t.claims = s.claims)
  /-- One instance changes, the claims stay. -/
  | inst (k : Nat) (w : Wiring) (n n' : Instance) (params : t.params = s.params) (was : s.inst? k = some (w, n))
      (does : LocalStep s.params n n') (insts : t.insts = s.insts.set k n') (claims : t.claims = s.claims)
  /-- `INIT` succeeds (44_transport.md R280). -/
  | init (k : Nat) (w : Wiring) (n : Instance) (params : t.params = s.params) (was : s.inst? k = some (w, n))
      (idle : n.sq = none) (uninit : n.tstate = .uninit) (cross : crossValid n = true) (apart : overlaps n = false)
      (free : claimed s.claims (claimSet w n) = false)
      (insts : t.insts = s.insts.set k
        (Instance.finish { n with tstate := .ready, line := n.idleLines, mux := muxOf s.params n } .ok))
      (claims : t.claims = addClaims s.claims (claimSet w n) w.id)
  /-- `FINI` tears an instance down (R316), at once, after its wait, or by an abort (R317). -/
  | teardown (k : Nat) (w : Wiring) (n : Instance) (c : Code) (out : Pair (List Bool)) (params : t.params = s.params)
      (was : s.inst? k = some (w, n))
      (fini : (n.sq = none ∧ n.tstate = .ready) ∨ ∃ q, n.sq = some q ∧ q.phase = .finiWait)
      (told : n.tstate = .transmitting → c = .transmitFailure)
      (insts : t.insts = s.insts.set k { Instance.reset with resultCode := c, emitted := out })
      (claims : t.claims = s.claims.filter fun x => x.owner != w.id)

theorem SysStep.setInst {s t : State} {k : Nat} {w : Wiring} {n n' : Instance} (was : s.inst? k = some (w, n))
    (does : LocalStep s.params n n') (hp : t.params = s.params) (hi : t.insts = s.insts) (hc : t.claims = s.claims) :
    SysStep s (t.setInst k n') :=
  .inst k w n n' (by simpa using hp) was does (by simp [hi]) (by simpa using hc)

/-- A step that sees the same instances, claims and parameters does the same. -/
theorem SysStep.of_congr {s r t : State} (h : SysStep r t) (hp : r.params = s.params) (hi : r.insts = s.insts)
    (hc : r.claims = s.claims) : SysStep s t := by
  have hinst : ∀ k, r.inst? k = s.inst? k := State.inst?_congr hp hi
  cases h with
  | quiet p i c => exact .quiet (p.trans hp) (i.trans hi) (c.trans hc)
  | inst k w n n' p was does i c => exact .inst k w n n' (p.trans hp) (hinst k ▸ was) (hp ▸ does) (hi ▸ i) (c.trans hc)
  | init k w n p was idle un cr ap fr i c =>
    exact .init k w n (p.trans hp) (hinst k ▸ was) idle un cr ap (hc ▸ fr) (by rw [i, hi, hp]) (by rw [c, hc])
  | teardown k w n c out p was f e i cl =>
    exact .teardown k w n c out (p.trans hp) (hinst k ▸ was) f e (by rw [i, hi]) (by rw [cl, hc])

theorem busy_false {n : Instance} : n.busy = false ↔ n.sq = none := by
  cases h : n.sq <;> simp [Instance.busy, h]

/-- A main-port command that changes its own instance only. -/
theorem issueLocal_sys {s t : State} {f : Instance → Instance}
    (hf : ∀ n, n.sq = none → LocalStep s.params n (f n)) (h : issueLocal s f = .next t) : SysStep s t := by
  unfold issueLocal issueMain at h
  split at h
  · cases h
  · rename_i w n hn
    split at h
    · cases h; exact .quiet rfl rfl rfl
    · rename_i hb
      cases h
      exact SysStep.setInst hn (hf n (busy_false.mp (by simpa using hb))) rfl rfl rfl

/-- A pixel-port operation. -/
theorem issuePixel_sys {s t : State} {f : Instance → Instance} (hf : ∀ n, LocalStep s.params n (f n))
    (h : issuePixel s f = .next t) : SysStep s t := by
  unfold issuePixel at h
  split at h
  · cases h
  · rename_i n hn
    cases h
    exact SysStep.setInst hn (hf n) rfl rfl rfl

theorem LocalStep.of_onChannel {p : Params} {ch : BitVec 2} {n : Instance} {f : Idx → Instance} (idle : n.sq = none)
    (hf : ∀ c, LocalStep p n (f c)) : LocalStep p n (onChannel ch n f) := by
  unfold onChannel
  split
  · exact .code _ idle
  · exact hf _

theorem LocalStep.of_onPixelChannel {p : Params} {ch : BitVec 2} {n : Instance} {f : Idx → Instance}
    (hf : ∀ c, LocalStep p n (f c)) : LocalStep p n (onPixelChannel ch n f) := by
  unfold onPixelChannel
  split
  · exact .port n.presult _
  · exact hf _

theorem cfgInst_local {p : Params} {ch : BitVec 2} {n : Instance} (idle : n.sq = none) :
    LocalStep p n (cfgInst p ch n) := by
  refine .of_onChannel idle fun c => ?_
  split
  · exact .code _ idle
  · rename_i hu
    split
    · exact .code _ idle
    · rename_i hv
      exact .cfg c idle (by simpa using hu) hv

theorem setbrightInst_local {p : Params} {ch : BitVec 2} {b : BitVec 24} {n : Instance} (idle : n.sq = none) :
    LocalStep p n (setbrightInst ch b n) := by
  refine .of_onChannel idle fun c => ?_
  split
  · exact .code _ idle
  · exact .bright c _ idle

theorem renderIssue_local {p : Params} {cmd : Instr} {n : Instance} (hc : cmd = .render ∨ cmd = .rendernb)
    (idle : n.sq = none) : LocalStep p n (renderIssue cmd n) := by
  unfold renderIssue
  split
  · exact .code _ idle
  · rename_i hu
    exact .issue cmd hc idle hu

theorem pollInst_local {p : Params} {n : Instance} (idle : n.sq = none) : LocalStep p n (pollInst n) := by
  unfold pollInst
  dsimp only
  split
  · exact .code _ idle
  · rename_i hu
    split
    · exact .code _ idle
    · split
      · exact .poll 3 n.errpend (.inl rfl) idle hu
      · split
        · exact .poll 0 n.errpend (.inl rfl) idle hu
        · split
          · exact .poll 2 false (.inr rfl) idle hu
          · exact .poll 1 n.errpend (.inl rfl) idle hu

theorem pixrdInst_local {p : Params} {ch : BitVec 2} {i : BitVec 24} {n : Instance} : LocalStep p n (pixrdInst ch i n) := by
  refine .of_onPixelChannel fun c => ?_
  dsimp only [onPixel]
  split
  · exact .port n.presult _
  · exact .port _ _

theorem pixwrInst_local {p : Params} {ch : BitVec 2} {i : BitVec 24} {n : Instance} : LocalStep p n (pixwrInst ch i n) := by
  refine .of_onPixelChannel fun c => ?_
  dsimp only [onPixel]
  split
  · exact .port n.presult _
  · rename_i h
    exact .pixwr c i.toNat (by simpa [BitVec.le_def] using h)

theorem initStep_sys {s : State} {w : Wiring} {n : Instance} (hn : s.inst? s.sel = some (w, n)) (idle : n.sq = none) :
    SysStep s (initStep s w n) := by
  unfold initStep
  split
  · exact SysStep.setInst hn (.code _ idle) rfl rfl rfl
  · rename_i hu
    split
    · exact SysStep.setInst hn (.code _ idle) rfl rfl rfl
    · rename_i hx
      split
      · exact SysStep.setInst hn (.code _ idle) rfl rfl rfl
      · rename_i ho
        split
        · exact SysStep.setInst hn (.code _ idle) rfl rfl rfl
        · rename_i hk
          exact .init s.sel w n rfl hn idle (by simpa using hu) (by simpa using hx) (by simpa using ho)
            (by simpa using hk) rfl rfl

theorem finiStep_sys {s : State} {w : Wiring} {n : Instance} (hn : s.inst? s.sel = some (w, n)) (idle : n.sq = none) :
    SysStep s (finiStep s w n) := by
  unfold finiStep
  split
  · exact SysStep.setInst hn (.code _ idle) rfl rfl rfl
  · rename_i ht
    exact SysStep.setInst hn (.finiWait idle ht) rfl rfl rfl
  · rename_i ht
    exact .teardown s.sel w n _ _ rfl hn (.inl ⟨idle, ht⟩) (by simp [ht]) rfl rfl

theorem issueMain_sys {s t : State} {f : Wiring → Instance → State}
    (hf : ∀ w n, s.inst? s.sel = some (w, n) → n.sq = none → SysStep s (f w n)) (h : issueMain s f = .next t) :
    SysStep s t := by
  unfold issueMain at h
  split at h
  · cases h
  · rename_i w n hn
    split at h
    · cases h; exact .quiet rfl rfl rfl
    · rename_i hb
      cases h
      exact hf w n hn (busy_false.mp (by simpa using hb))

/-- A command that answers next does one of the steps of the system. -/
theorem exec_sys {i : Instr} {s t : State} (h : exec i s = .next t) : SysStep s t := by
  cases i with
  | cfg ch => exact issueLocal_sys (fun n hn => cfgInst_local hn) h
  | init => exact issueMain_sys (fun w n hn hi => initStep_sys hn hi) h
  | setbright ch b => exact issueLocal_sys (fun n hn => setbrightInst_local hn) h
  | gammawr ch j v => exact issueLocal_sys (fun n hn => .of_onChannel hn fun c => .gamma c j v hn) h
  | render => exact issueLocal_sys (fun n hn => renderIssue_local (.inl rfl) hn) h
  | rendernb => exact issueLocal_sys (fun n hn => renderIssue_local (.inr rfl) hn) h
  | poll => exact issueLocal_sys (fun n hn => pollInst_local hn) h
  | fini => exact issueMain_sys (fun w n hn hi => finiStep_sys hn hi) h
  | pixrd ch i => exact issuePixel_sys (fun n => pixrdInst_local) h
  | pixwr ch i => exact issuePixel_sys (fun n => pixwrInst_local) h
  | pixlen ch => exact issuePixel_sys (fun n => .of_onPixelChannel fun c => .port _ _) h

theorem issueWord_sys {port : Port} {v : Word} {s t : State} (h : issueWord port v s = .next t) : SysStep s t := by
  unfold issueWord at h
  split at h
  · exact exec_sys h
  · unfold issueIllegal at h
    split at h
    · exact issueLocal_sys (fun n hn => .code _ hn) h
    · exact issuePixel_sys (fun n => .port n.presult _) h

theorem writeReg_local {p : Params} {n : Instance} (r : Reg) (v : Word) : LocalStep p n (n.writeReg r v) := by
  unfold Instance.writeReg
  split
  · exact .regs _ n.pdata
  · exact .regs n.args v
  all_goals exact .same

theorem hostOp_sys {h : Nat} {th : HostThread} {op : HostOp} {rest : List HostOp} {s t : State}
    (hs : hostOp h th op rest s = .next t) : SysStep s t := by
  have hload : ∀ {k r f}, loadReg h k r f s = .next t → SysStep s t := by
    intro k r f hl
    unfold loadReg at hl
    split at hl
    · cases hl
    · cases hl; exact .quiet rfl rfl rfl
  have hstore : ∀ {th' k r v}, storeReg h th' k r v s = .next t → SysStep s t := by
    intro th' k r v hl
    unfold storeReg at hl
    split at hl
    · cases hl
    · rename_i w n hn
      split at hl
      · split at hl
        · cases hl; exact .quiet rfl rfl rfl
        · exact (issueWord_sys hl).of_congr rfl rfl rfl
      · exact (issueWord_sys hl).of_congr rfl rfl rfl
      · cases hl
        exact SysStep.setInst hn (writeReg_local _ _) rfl rfl rfl
  unfold hostOp at hs
  split at hs
  · split at hs
    · cases hs
    · exact hstore hs
  · split at hs
    · cases hs
    · exact hload hs
  · split at hs
    · cases hs
    · exact hload hs
  all_goals (cases hs; exact .quiet rfl rfl rfl)

theorem seqMove_sys (k : Nat) (ok : Bool) (s : State) : SysStep s (seqMove k ok s) := by
  unfold seqMove
  split
  · exact .quiet rfl rfl rfl
  · rename_i w n hn
    split
    · exact .quiet rfl rfl rfl
    · rename_i q hq
      unfold seqStep
      split
      · rename_i c i acc hph
        exact SysStep.setInst hn (.enc q c i acc hq hph) rfl rfl rfl
      · rename_i acc hph
        exact SysStep.setInst hn (.build q acc hq hph) rfl rfl rfl
      · rename_i hph
        split
        · exact .quiet rfl rfl rfl
        · rename_i ht
          exact SysStep.setInst hn (.waited q hq hph ht) rfl rfl rfl
      · rename_i hph
        split
        · exact .quiet rfl rfl rfl
        · rename_i ht
          exact SysStep.setInst hn (.start q ok hq hph ht) rfl rfl rfl
      · rename_i hph
        split
        · exact .quiet rfl rfl rfl
        · rename_i ht
          exact .teardown k w n _ _ rfl hn (.inr ⟨q, hq, hph⟩) (fun h => absurd h ht) rfl rfl

theorem abortMove_sys (k : Nat) (cut : Pair Nat) (s : State) : SysStep s (abortMove k cut s) := by
  unfold abortMove
  split
  · exact .quiet rfl rfl rfl
  · rename_i w n hn
    split
    · rename_i hq
      exact .teardown k w n _ _ rfl hn (.inr ⟨_, hq, rfl⟩) (fun _ => rfl) rfl rfl
    · exact .quiet rfl rfl rfl

theorem drainMove_sys (k : Nat) (e : DrainDraw) (s : State) : SysStep s (drainMove k e s) := by
  unfold drainMove
  split
  · exact .quiet rfl rfl rfl
  · rename_i n hn
    split
    · rename_i hd
      exact SysStep.setInst hn (.drain e hd) rfl rfl rfl
    · exact .quiet rfl rfl rfl

theorem perform_sys {m : Move} {s t : State} (h : perform m s = .next t) : SysStep s t := by
  unfold perform at h
  split at h
  · unfold hostMove at h
    split at h
    · cases h; exact .quiet rfl rfl rfl
    · split at h
      · cases h; exact .quiet rfl rfl rfl
      · exact hostOp_sys h
  · cases h; exact seqMove_sys _ _ _
  · cases h; exact abortMove_sys _ _ _
  · cases h; exact drainMove_sys _ _ _

/-- A step that answers next does one of the steps of the system. -/
theorem step_sys {s t : State} (h : step s = .next t) : SysStep s t := by
  unfold step at h
  split at h
  · exact (perform_sys h).of_congr rfl rfl rfl
  · exact (perform_sys h).of_congr rfl rfl rfl

end Sys2Proof.Machine
end

