-- ==== Sys2Proof/Laws/Instance.lean ====
section
/-! SUPPORT. What a step makes of one instance (`Became`), and which of an instance's derived values depend on which
of its fields. -/

namespace Sys2Proof.Machine

theorem get_set {l : List Instance} {k j : Nat} {m n' : Instance} (h : (l.set k m)[j]? = some n') : (j = k
    ∧ n' = m) ∨ (j ≠ k ∧ l[j]? = some n') := by
  by_cases hjk : j = k
  · subst hjk
    rw [List.getElem?_set_self'] at h
    cases hl : l[j]? <;> simp [hl] at h
    exact .inl ⟨rfl, h.symm⟩
  · rw [List.getElem?_set_ne (Ne.symm hjk)] at h
    exact .inr ⟨hjk, h⟩

/-- What became of instance `k` in a step of the system. -/
inductive Became (s : State) (k : Nat) (n n' : Instance) : Prop where
  | same (h : n' = n)
  | loc (w : Wiring) (hw : s.inst? k = some (w, n)) (h : LocalStep s.params n n')
  | init (w : Wiring) (hw : s.inst? k = some (w, n)) (idle : n.sq = none) (uninit : n.tstate = .uninit) (cross :
      crossValid n = true) (apart : overlaps n = false)
      (h : n' = Instance.finish { n with tstate := .ready, line := n.idleLines, mux := muxOf s.params n } .ok)
  | down (w : Wiring) (hw : s.inst? k = some (w, n)) (c out) (fini : (n.sq = none
      ∧ n.tstate = .ready) ∨ ∃ q, n.sq = some q ∧ q.phase = .finiWait) (told : n.tstate = .transmitting →
      c = .transmitFailure) (h : n' = { Instance.reset with resultCode := c, emitted := out })

theorem SysStep.became {s t : State} (h : SysStep s t) {k n n'} (hn : s.insts[k]? = some n) (hn' :
    t.insts[k]? = some n') : Became s k n n' := by
  cases h with
  | quiet _ hi _ => rw [hi, hn] at hn'; cases hn'; exact .same rfl
  | inst j w m m' _ was does hi _ =>
    rw [hi] at hn'
    rcases get_set hn' with ⟨rfl, rfl⟩ | ⟨hne, h⟩
    · have := (State.inst?_eq_some.mp was).2
      rw [hn] at this; cases this
      exact .loc w was does
    · rw [hn] at h; cases h; exact .same rfl
  | init j w m _ was idle un cr ap fr hi _ =>
    rw [hi] at hn'
    rcases get_set hn' with ⟨rfl, rfl⟩ | ⟨hne, h⟩
    · have := (State.inst?_eq_some.mp was).2
      rw [hn] at this; cases this
      exact .init w was idle un cr ap rfl
    · rw [hn] at h; cases h; exact .same rfl
  | teardown j w m c out _ was f e hi _ =>
    rw [hi] at hn'
    rcases get_set hn' with ⟨rfl, rfl⟩ | ⟨hne, h⟩
    · have := (State.inst?_eq_some.mp was).2
      rw [hn] at this; cases this
      exact .down w was c out f e rfl
    · rw [hn] at h; cases h; exact .same rfl

theorem SysStep.params_eq {s t : State} (h : SysStep s t) : t.params = s.params := by
  cases h <;> assumption

theorem SysStep.length_eq {s t : State} (h : SysStep s t) : t.insts.length = s.insts.length := by
  cases h with
  | quiet _ hi _ => rw [hi]
  | inst _ _ _ _ _ _ _ hi _ => rw [hi]; simp
  | init _ _ _ _ _ _ _ _ _ _ hi _ => rw [hi]; simp
  | teardown _ _ _ _ _ _ _ _ _ hi _ => rw [hi]; simp

theorem SysStep.found {s t : State} (h : SysStep s t) {k : Nat} {n' : Instance} (hn' : t.insts[k]? = some n') :
    ∃ n, s.insts[k]? = some n := by
  obtain ⟨hk, _⟩ := List.getElem?_eq_some_iff.mp hn'
  rw [SysStep.length_eq h] at hk
  exact ⟨_, List.getElem?_eq_getElem hk⟩

theorem wf_set {w} {d : Nat → BitVec w} {p : Pair (Memory w)} {c : Idx} {m : Memory w} (hp :
    ∀ i, Memory.wf d (p.get i) = true) (hm : Memory.wf d m = true) (i) : Memory.wf d ((p.set c m).get i) = true := by
  by_cases h : i = c
  · subst h; simpa using hm
  · rw [Pair.get_set_ne _ _ h]; exact hp i

theorem cross_congr {n m : Instance} (h : ∀ c, (m.ch.get c).valid = (n.ch.get c).valid
    ∧ (m.ch.get c).freq = (n.ch.get c).freq ∧ (m.ch.get c).dma = (n.ch.get c).dma
    ∧ (m.ch.get c).slot = (n.ch.get c).slot) : crossValid m = crossValid n ∧ overlaps m = overlaps n
    ∧ m.active = n.active := by
  have ha : m.active = n.active := by unfold Instance.active; congr 1; funext c; rw [(h c).1]
  refine ⟨?_, ?_, ha⟩
  · simp only [crossValid, Instance.agree, ha]; simp only [(h _).2.1, (h _).2.2.1]
  · simp only [overlaps, ha]; simp only [(h _).2.2.2]

theorem idleLines_of {n m : Instance} (h : ∀ c, (m.ch.get c).valid = (n.ch.get c).valid
    ∧ (m.ch.get c).slot = (n.ch.get c).slot ∧ (m.ch.get c).invert = (n.ch.get c).invert) :
    m.idleLines = n.idleLines := by
  have ha : m.active = n.active := by unfold Instance.active; congr 1; funext c; rw [(h c).1]
  have hc : ∀ t, m.channelOn t = n.channelOn t := by
    intro t; unfold Instance.channelOn; rw [ha]; congr 1; funext c; simp only [(h c).2.1]
  simp only [Instance.idleLines, Instance.idleLevel, hc, (h _).2.2]

theorem claimSet_congr {n m : Instance} (w : Wiring) (h : ∀ c, (m.ch.get c).valid = (n.ch.get c).valid
    ∧ (m.ch.get c).gpio = (n.ch.get c).gpio ∧ (m.ch.get c).dma = (n.ch.get c).dma) : claimSet w m = claimSet w n := by
  have ha : m.active = n.active := by unfold Instance.active; congr 1; funext c; rw [(h c).1]
  simp only [claimSet, ha, (h _).2.1, (h _).2.2]

theorem phase_congr {n m : Instance} (hc : ∀ c, (m.ch.get c).valid = (n.ch.get c).valid
    ∧ (m.ch.get c).count = (n.ch.get c).count) (hf : m.flen = n.flen) (hF : m.front = n.front) {ph : Phase} (h :
    ph.ok n) : ph.ok m := by
  cases ph <;> simp only [Phase.ok] at * <;> simp only [(hc _).1, (hc _).2, hf, hF] <;> exact h

/-- A word-step without error, field by field (44_transport.md R320, R321). -/
theorem drainGood_eq (n : Instance) : drainGood n =
    let word (t : Idx) := Memory.read zeroFill (n.buf.get n.front) (2 * n.dpos + t.toNat)
    let out (t : Idx) := match n.channelOn t with
      | some c => (List.range 32).map fun m => (word t).getLsbD (31 - m) ^^ (n.ch.get c).invert
      | none => []
    let kept (t : Idx) := match n.channelOn t with
      | some c => Level.driven ((word t).getLsbD 0 ^^ (n.ch.get c).invert)
      | none => n.line.get t
    let idle (t : Idx) := match n.channelOn t with
      | some c => Level.driven (n.ch.get c).invert
      | none => Level.undriven
    let done := n.dpos + 1 = n.flen.get n.front
    { n with
        dpos := n.dpos + 1
        emitted := ⟨n.emitted.at0 ++ out .i0, n.emitted.at1 ++ out .i1⟩
        tstate := if done then .ready else n.tstate
        line := if done then ⟨idle .i0, idle .i1⟩ else ⟨kept .i0, kept .i1⟩ } := by
  have ho : ∀ t, stepBits n t = match n.channelOn t with
      | some c => (List.range 32).map fun m => (Memory.read zeroFill (n.buf.get n.front)
          (2 * n.dpos + t.toNat)).getLsbD (31 - m) ^^ (n.ch.get c).invert
      | none => [] := by intro t; rw [stepBits_eq]; cases n.channelOn t <;> rfl
  let kept (t : Idx) := match n.channelOn t with
      | some c => Level.driven ((Memory.read zeroFill (n.buf.get n.front) (2 * n.dpos + t.toNat)).getLsbD 0 ^^
          (n.ch.get c).invert)
      | none => n.line.get t
  have hk : (n.emitBoth (stepBits n)).line = ⟨kept .i0, kept .i1⟩ := by
    rw [emitBoth_line, ho, ho]
    simp only [kept]
    cases n.channelOn .i0 <;> cases n.channelOn .i1 <;> simp [List.range_succ, Idx.toNat, Pair.get]
  dsimp only
  unfold drainGood
  dsimp only
  split
  · rename_i hd
    rw [Instance.emitBoth_eq, ho, ho, idleLines_mk]
    all_goals (simp only [hd]; rfl)
  · rename_i hd
    rw [Instance.emitBoth_eq, hk, ho, ho]

theorem drainGood_facts (n : Instance) : (drainGood n).dpos = n.dpos + 1 ∧ (drainGood n).errpend = n.errpend
    ∧ (drainGood n).xerr = n.xerr ∧
   ((n.dpos + 1 = n.flen.get n.front ∧ (drainGood n).tstate = .ready ∧ (drainGood n).line = n.idleLines) ∨
       (n.dpos + 1 ≠ n.flen.get n.front ∧ (drainGood n).tstate = n.tstate)) := by
  rw [drainGood_eq]; dsimp only
  refine ⟨rfl, rfl, rfl, ?_⟩
  by_cases h : n.dpos + 1 = n.flen.get n.front
  · left; simp only [h, if_true]; exact ⟨trivial, trivial, (idleLines_mk n).symm⟩
  · right; simp [h]

theorem drainInst_cases (p : Params) (n : Instance) (e) :
   (drainInst p n e = drainGood n) ∨ ((drainInst p n e).errpend = true ∧ (drainInst p n e).xerr.any = true
       ∧ (drainInst p n e).tstate = .ready ∧ (drainInst p n e).line = n.idleLines) := by
  unfold drainInst
  split
  · exact .inl rfl
  · right; simp [drainError, Xerr.any]
  · right; simp [drainError, Xerr.any]

/-- A local step leaves `UNINIT` and enters it never; out of it the records keep everything but the brightness. -/
theorem LocalStep.up {p n n'} (h : LocalStep p n n') (hu : n.tstate = .uninit → n.sq = none) :
    (n'.tstate = .uninit ↔ n.tstate = .uninit) ∧ (n.tstate ≠ .uninit → ∀ c, n'.ch.get c = { n.ch.get c with bright :=
        (n'.ch.get c).bright }) := by
  cases h with
  | cfg c idle un hv => exact ⟨Iff.rfl, fun h => absurd un h⟩
  | bright c b idle =>
    refine ⟨Iff.rfl, fun _ d => ?_⟩
    simp only [Instance.finish_ch]
    by_cases hd : d = c
    · subst hd; simp
    · rw [Pair.get_set_ne _ _ hd]
  | start q ok hq hph free =>
    have hne : n.tstate ≠ .uninit := fun h => by have := hu h; rw [hq] at this; cases this
    refine ⟨?_, fun _ c => by rw [(startPhase_frame p n q.cmd ok).1]⟩
    have : (startPhase p n q.cmd ok).tstate ≠ .uninit := by
      unfold startPhase startFrame; dsimp only
      split
      · simpa using hne
      · split <;> split <;> simp [Instance.finish, hne]
    simp [this, hne]
  | drain e on =>
    have ht : n.tstate = .transmitting := by simp [Instance.draining] at on; exact on.1
    refine ⟨?_, fun _ c => by rw [(drainInst_frame p n e).1]⟩
    have : (drainInst p n e).tstate ≠ .uninit := by
      rcases drainInst_cases p n e with hd | ⟨_, _, d3, _⟩
      · rw [hd]; rcases (drainGood_facts n).2.2.2 with h | h
        · rw [h.2.1]; simp
        · rw [h.2, ht]; simp
      · rw [d3]; simp
    simp [this, ht]
  | _ => exact ⟨Iff.rfl, fun _ c => rfl⟩

/-- Two instances have different identities (00_scope.md R11). -/
theorem wiring_index_unique {p : Params} (h : p.wiringOk = true) {j k : Nat} {v w : Wiring} (hj :
    p.wiring[j]? = some v) (hk : p.wiring[k]? = some w) (he : v.id = w.id) : j = k := by
  simp only [Params.wiringOk, Bool.and_eq_true, decide_eq_true_eq] at h
  have hp := h.2
  rw [List.pairwise_iff_getElem] at hp
  obtain ⟨hj1, hj2⟩ := List.getElem?_eq_some_iff.mp hj
  obtain ⟨hk1, hk2⟩ := List.getElem?_eq_some_iff.mp hk
  rcases Nat.lt_trichotomy j k with hlt | h | hlt
  · have := (hp j k hj1 hk1 hlt).1; rw [hj2, hk2] at this; simp [he] at this
  · exact h
  · have := (hp k j hk1 hj1 hlt).1; rw [hj2, hk2] at this; simp [he] at this

end Sys2Proof.Machine
end

