-- ==== Sys2Proof/Laws/Moves.lean ====
section
/-! SUPPORT. One move of the schedule, an access of a host thread, and runs of several steps. -/

namespace Sys2Proof.Machine

theorem regAt_mem {off r} (h : regAt off = some r) : (off, r) ∈ regMap := by
  unfold regAt at h
  generalize regMap = l at h
  induction l with
  | nil => cases h
  | cons e l ih =>
    simp only [List.lookup] at h
    split at h
    · rename_i hb; cases h; simp at hb; subst hb; simp
    · exact List.mem_cons_of_mem _ (ih h)

/-- Every register stands at a word offset (20_memory.md R86). -/
theorem regAt_mod {off r} (h : regAt off = some r) : off % 4 = 0 := by
  have : ∀ x ∈ regMap, x.1 % 4 = 0 := by decide
  exact this _ (regAt_mem h)

/-- An aligned word access to a register's address reaches the register. -/
theorem accessReg_ok {p addr k off r} (hl : locate p addr = some (k, off)) (hr : regAt off = some r) :
    accessReg p addr 4 = .ok (k, r) := by
  simp [accessReg, hl, hr, regAt_mod hr]

theorem inst?_sched (s : State) (ms) (k) : ({ s with sched := ms } : State).inst? k = s.inst? k := rfl

/-- The step of a host thread with an operation left. -/
theorem step_host {s : State} {ms h th op rest} (hs : s.sched = .host h :: ms) (hh : s.hosts[h]? = some th) (hp :
    th.prog = op :: rest) :
    step s = hostOp h th op rest { s with sched := ms } := by
  simp [step, hs, perform, hostMove, hh, hp]

/-- The step of a sequencer with a command in flight. -/
theorem step_seq {s : State} {ms k ok w n q} (hs : s.sched = .seq k ok :: ms) (hn : s.inst? k = some (w, n)) (hq :
    n.sq = some q) :
    step s = .next (seqStep { s with sched := ms } k w n q ok) := by
  have h' : State.inst? { s with sched := ms } k = some (w, n) := hn
  simp [step, hs, perform, seqMove, h', hq]

/-- The step of a drain with a word-step left. -/
theorem step_drain {s : State} {ms k e w n} (hs : s.sched = .drain k e :: ms) (hn : s.inst? k = some (w, n)) (hq :
    n.draining = true) :
    step s = .next (State.setInst { s with sched := ms } k (drainInst s.params n e)) := by
  have h' : State.inst? { s with sched := ms } k = some (w, n) := hn
  simp [step, hs, perform, drainMove, h', hq]

theorem run_next (M : Host.Core) (m : Nat) (s t : M.State) (h : M.step s = .next t) : M.run (m+1) s = M.run m t := by
  simp only [Host.Core.run, h]

/-- A run of one step more. -/
theorem run_step (m : Nat) (s t : State) (h : step s = .next t) : Sys2Proof.core.run
    (m+1) s = Sys2Proof.core.run m t :=
  run_next Sys2Proof.core m s t h

/-- A run in two parts. -/
theorem run_add (M : Host.Core) : ∀ (a b : Nat) (s t : M.State), M.run a s = .next t →
    M.run (a + b) s = M.run b t := by
  intro a
  induction a with
  | zero => intro b s t h; simp only [Host.Core.run] at h; cases h; rw [Nat.zero_add]
  | succ a ih =>
    intro b s t h
    rw [Nat.add_right_comm]
    simp only [Host.Core.run] at h ⊢
    cases hs : M.step s with
    | next s' => rw [hs] at h; simp only at h ⊢; exact ih b s' t h
    | fault r => rw [hs] at h; cases h
    | refused r => rw [hs] at h; cases h

end Sys2Proof.Machine
end

