-- ==== Sys2Proof/Laws/PerInstr.lean ====
section
/-! SUPPORT. Statements made per instruction: the word a command assembles to lies in its row of spec/opcode_table.json. -/

namespace Sys2Proof.Laws.TableRow

/-- The port, mask and match of a command's row in spec/opcode_table.json (30_encoding.md R114, R115). -/
def row : Instr → Port × Word × Word
  | .cfg _ => (.main, 0xFCFFFFFF, 0x10000000)
  | .init => (.main, 0xFFFFFFFF, 0x20000000)
  | .setbright _ _ => (.main, 0xFC000000, 0x30000000)
  | .gammawr _ _ _ => (.main, 0xFCFF0000, 0x40000000)
  | .render => (.main, 0xFFFFFFFF, 0x50000000)
  | .rendernb => (.main, 0xFFFFFFFF, 0x60000000)
  | .poll => (.main, 0xFFFFFFFF, 0x70000000)
  | .fini => (.main, 0xFFFFFFFF, 0x80000000)
  | .pixrd _ _ => (.pixel, 0xFC000000, 0x10000000)
  | .pixwr _ _ => (.pixel, 0xFC000000, 0x20000000)
  | .pixlen _ => (.pixel, 0xFCFFFFFF, 0x30000000)

/-- The command is written to its row's port and its word has the row's fixed bits. -/
def Statement (i : Instr) : Prop := i.port = (row i).1 ∧ encode i &&& (row i).2.1 = (row i).2.2

/-- Masking a word of format `C` masks its fields. -/
theorem formatC_and (op m : BitVec 4) (ch c : BitVec 2) (imm x : BitVec 24) :
    formatC op ch imm &&& (m ++ 3#2 ++ c ++ x) = formatC (op &&& m) (ch &&& c) (imm &&& x) := by
  apply BitVec.eq_of_getLsbD_eq
  intro i hi
  simp only [formatC, BitVec.getLsbD_and, BitVec.getLsbD_append]
  split
  · rfl
  · split
    · rfl
    · split <;> simp

theorem cfg (ch : BitVec 2) : Statement (.cfg ch) :=
  ⟨rfl, (formatC_and 0x1 0xF ch 0 0 0xFFFFFF).trans (by simp; rfl)⟩
theorem init : Statement .init := ⟨rfl, rfl⟩
theorem setbright (ch : BitVec 2) (b : BitVec 24) : Statement (.setbright ch b) :=
  ⟨rfl, (formatC_and 0x3 0xF ch 0 b 0).trans (by simp; rfl)⟩
theorem gammawr (ch : BitVec 2) (j v : BitVec 8) : Statement (.gammawr ch j v) := by
  refine ⟨rfl, (formatC_and 0x4 0xF ch 0 (0#8 ++ j ++ v) 0xFF0000).trans ?_⟩
  have h : (0#8 ++ j ++ v : BitVec 24) &&& 0xFF0000 = 0 := by
    apply BitVec.eq_of_getLsbD_eq
    intro i hi
    have hm : ∀ n : Fin 24, n.val < 16 → (0xFF0000#24).getLsbD n.val = false := by decide
    simp only [BitVec.getLsbD_and, BitVec.getLsbD_append]
    by_cases h16 : i < 16
    · simp [hm ⟨i, hi⟩ h16]
    · rw [if_neg (by omega), if_neg (by omega)]
      simp
  rw [h]
  simp
  rfl
theorem render : Statement .render := ⟨rfl, rfl⟩
theorem rendernb : Statement .rendernb := ⟨rfl, rfl⟩
theorem poll : Statement .poll := ⟨rfl, rfl⟩
theorem fini : Statement .fini := ⟨rfl, rfl⟩
theorem pixrd (ch : BitVec 2) (i : BitVec 24) : Statement (.pixrd ch i) :=
  ⟨rfl, (formatC_and 0x1 0xF ch 0 i 0).trans (by simp; rfl)⟩
theorem pixwr (ch : BitVec 2) (i : BitVec 24) : Statement (.pixwr ch i) :=
  ⟨rfl, (formatC_and 0x2 0xF ch 0 i 0).trans (by simp; rfl)⟩
theorem pixlen (ch : BitVec 2) : Statement (.pixlen ch) :=
  ⟨rfl, (formatC_and 0x3 0xF ch 0 0 0xFFFFFF).trans (by simp; rfl)⟩

end Sys2Proof.Laws.TableRow
end

