-- ==== Sys2Proof/Laws/Runs.lean ====
section
/-! SUPPORT. A step by the move it makes, what a step that is offered to an agent without one does, and the runs that reach
an end. -/

namespace Sys2Proof.Machine

@[simp] theorem State.moved_params (s : State) : s.moved.params = s.params := by unfold State.moved; split <;> rfl
@[simp] theorem State.moved_insts (s : State) : s.moved.insts = s.insts := by unfold State.moved; split <;> rfl
@[simp] theorem State.moved_claims (s : State) : s.moved.claims = s.claims := by unfold State.moved; split <;> rfl
@[simp] theorem State.moved_hosts (s : State) : s.moved.hosts = s.hosts := by unfold State.moved; split <;> rfl
@[simp] theorem State.moved_sel (s : State) : s.moved.sel = s.sel := by unfold State.moved; split <;> rfl
@[simp] theorem State.moved_inst? (s : State) (k : Nat) : s.moved.inst? k = s.inst? k :=
  State.inst?_congr (s.moved_params) (s.moved_insts) k

/-- A step performs the next move. -/
theorem step_eq (s : State) : step s = perform s.nextMove s.moved := by
  cases h : s.sched <;> simp [step, State.nextMove, State.moved, h]

/-- A sequencer without a step of this kind takes none. -/
theorem seqMove_of_not_ready {s : State} {k : Nat} {w : Wiring} {n : Instance} (ok : Bool) (hn : s.inst? k = some (w, n))
    (h : n.seqReady = false) : seqMove k ok s = s := by
  unfold seqMove
  simp only [hn]
  cases hq : n.sq with
  | none => rfl
  | some q =>
    unfold Instance.seqReady at h
    rw [hq] at h
    unfold seqStep
    cases hp : q.phase <;> simp_all

/-- The abort outside `FINI_WAIT` is no step. -/
theorem abortMove_of_not_ready {s : State} {k : Nat} {w : Wiring} {n : Instance} (cut : Pair Nat)
    (hn : s.inst? k = some (w, n)) (h : n.abortReady = false) : abortMove k cut s = s := by
  unfold abortMove
  simp only [hn]
  split
  · rename_i hq
    simp [Instance.abortReady, hq] at h
  · rfl

/-- The abort in `FINI_WAIT` tears down. -/
theorem abortMove_of_ready {s : State} {k : Nat} {w : Wiring} {n : Instance} (cut : Pair Nat)
    (hn : s.inst? k = some (w, n)) (h : n.abortReady = true) :
    abortMove k cut s = teardown s k w (n.emitBoth (cutBits n cut)) true := by
  unfold abortMove
  simp only [hn]
  unfold Instance.abortReady at h
  cases hq : n.sq with
  | none => rw [hq] at h; cases h
  | some q =>
    rw [hq] at h
    obtain ⟨cmd, a, ph⟩ := q
    simp only [beq_iff_eq] at h
    subst h
    rfl

/-- A drain without a word-step to emit takes none. -/
theorem drainMove_of_not_draining {s : State} {k : Nat} {w : Wiring} {n : Instance} (e : DrainDraw)
    (hn : s.inst? k = some (w, n)) (h : n.draining = false) : drainMove k e s = s := by
  simp [drainMove, hn, h]

/-- A thread with nothing to do takes no step. -/
theorem hostMove_of_done {s : State} (h : Nat) (hd : ∀ t ∈ s.hosts, t.prog = []) : hostMove h s = .next s := by
  unfold hostMove
  split
  · rfl
  · rename_i t ht
    rw [hd t (List.mem_of_getElem? ht)]

/-- What it is for a run of an instance to have ended (70_reset_and_hazards.md R471). -/
theorem State.ended_iff {s : State} {k : Nat} {w : Wiring} {n : Instance} (hn : s.inst? k = some (w, n)) :
    s.ended k = true ↔ n.sq = none ∧ n.tstate ≠ .transmitting ∧ ∀ th ∈ s.hosts, th.prog = [] := by
  cases h : n.sq <;> simp [State.ended, hn, Instance.busy, h]

/-- An instance at rest has no enabled step. -/
theorem not_enabled_of_ended {s : State} {k : Nat} (h : s.ended k = true) :
    s.seqEnabled k = false ∧ s.drainEnabled k = false := by
  unfold State.ended at h
  split at h
  · rename_i w n hn
    have ⟨hq, ht, _⟩ := (State.ended_iff hn).mp (by simp only [State.ended, hn]; exact h)
    simp [State.seqEnabled, State.drainEnabled, hn, Instance.seqReady, Instance.abortReady, hq, Instance.draining, ht]
  · cases h

/-- Where every instance has ended, a step only goes on in the schedule. -/
theorem step_of_all_ended {s : State} (hh : ∀ t ∈ s.hosts, t.prog = [])
    (h : ∀ k w n, s.inst? k = some (w, n) → n.sq = none ∧ n.tstate ≠ .transmitting) : step s = .next s.moved := by
  have hm : ∀ k w n, s.moved.inst? k = some (w, n) →
      n.seqReady = false ∧ n.abortReady = false ∧ n.draining = false := by
    intro k w n hn
    have ⟨hq, ht⟩ := h k w n (by simpa using hn)
    simp [Instance.seqReady, Instance.abortReady, hq, Instance.draining, ht]
  rw [step_eq]
  unfold perform
  split
  · exact hostMove_of_done _ (by simpa using hh)
  · rename_i k ok hmv
    cases hi : s.moved.inst? k with
    | none => simp [seqMove, hi]
    | some p => rw [seqMove_of_not_ready ok hi (hm k p.1 p.2 hi).1]
  · rename_i k cut hmv
    cases hi : s.moved.inst? k with
    | none => simp [abortMove, hi]
    | some p => rw [abortMove_of_not_ready cut hi (hm k p.1 p.2 hi).2.1]
  · rename_i k e hmv
    cases hi : s.moved.inst? k with
    | none => simp [drainMove, hi]
    | some p => rw [drainMove_of_not_draining e hi (hm k p.1 p.2 hi).2.2]

/-- The states a state leads to, one step after another; a step that stops is not followed. -/
def follow (s : State) : Nat → State
  | 0 => s
  | i + 1 => match step (follow s i) with
    | .next t => t
    | _ => follow s i

/-- The step answers a next state. -/
def State.goesOn (s : State) : Bool :=
  match step s with
  | .next _ => true
  | _ => false

theorem follow_step {s : State} {i : Nat} (h : (follow s i).goesOn = true) :
    step (follow s i) = .next (follow s (i + 1)) := by
  unfold State.goesOn at h
  simp only [follow]
  cases hs : step (follow s i) with
  | next t => rfl
  | fault r => rw [hs] at h; cases h
  | refused r => rw [hs] at h; cases h

/-- Every thread is done and every instance at rest. -/
def State.allEnded (s : State) : Bool :=
  s.hosts.all (fun t => t.prog.isEmpty) && s.insts.all fun n => !n.busy && n.tstate != .transmitting

theorem State.allEnded_iff {s : State} : s.allEnded = true ↔
    (∀ t ∈ s.hosts, t.prog = []) ∧ ∀ n ∈ s.insts, n.sq = none ∧ n.tstate ≠ .transmitting := by
  have hb : ∀ n : Instance, n.busy = false ↔ n.sq = none := by intro n; cases h : n.sq <;> simp [Instance.busy, h]
  simp [State.allEnded, hb]

theorem State.allEnded_inst {s : State} (h : s.allEnded = true) {k : Nat} {w : Wiring} {n : Instance}
    (hn : s.inst? k = some (w, n)) : n.sq = none ∧ n.tstate ≠ .transmitting :=
  (State.allEnded_iff.mp h).2 n (List.mem_of_getElem? (State.inst?_eq_some.mp hn).2)

theorem step_of_allEnded {s : State} (h : s.allEnded = true) : step s = .next s.moved :=
  step_of_all_ended (State.allEnded_iff.mp h).1 fun _ _ _ hn => State.allEnded_inst h hn

theorem moved_allEnded {s : State} (h : s.allEnded = true) : s.moved.allEnded = true := by
  simpa [State.allEnded] using h

/-- A state whose first steps answer next and that comes to rest has a run, and it is fair: after the rest no step is
enabled. -/
theorem follow_isRun_fair {s : State} {m : Nat} (hs : ∀ i < m, (follow s i).goesOn = true)
    (he : (follow s m).allEnded = true) : IsRun (follow s) ∧ FairRun (follow s) := by
  have hrest : ∀ d, (follow s (m + d)).allEnded = true := by
    intro d
    induction d with
    | zero => exact he
    | succ d ih =>
      rw [← Nat.add_assoc]
      simp only [follow, step_of_allEnded ih]
      exact moved_allEnded ih
  have hoff : ∀ i k, m ≤ i → (follow s i).seqEnabled k = false ∧ (follow s i).drainEnabled k = false := by
    intro i k hi
    obtain ⟨d, rfl⟩ := Nat.exists_eq_add_of_le hi
    cases hn : (follow s (m + d)).inst? k with
    | none => simp [State.seqEnabled, State.drainEnabled, hn]
    | some p =>
      have ⟨hq, ht⟩ := State.allEnded_inst (hrest d) hn
      simp [State.seqEnabled, State.drainEnabled, hn, Instance.seqReady, Instance.abortReady, hq, Instance.draining, ht]
  refine ⟨fun i => ?_, fun k => ⟨fun i h => ?_, fun i h => ?_⟩⟩
  · rcases Nat.lt_or_ge i m with hi | hi
    · exact follow_step (hs i hi)
    · obtain ⟨d, rfl⟩ := Nat.exists_eq_add_of_le hi
      simp only [follow, step_of_allEnded (hrest d)]
  · exact absurd (h (max i m) (Nat.le_max_left _ _)) (by simp [hoff _ k (Nat.le_max_right _ _)])
  · exact absurd (h (max i m) (Nat.le_max_left _ _)) (by simp [hoff _ k (Nat.le_max_right _ _)])

end Sys2Proof.Machine
end

