-- ==== Sys2Proof/Tests/Slice0.lean ====
section
/-! SUPPORT. Tests. The expected values are those of spec/95_test_vectors.md, whose vector each docstring names, or worked out by
hand from the rule named. The second half holds a witness for every statement that has hypotheses. -/

namespace Sys2Proof.Tests

open Sys2Proof.Machine

/-! ### States the tests start from -/

/-- Channel 0 as V-C1 leaves it, with as many pixels as said. -/
def grb (count : Nat) : Channel := ⟨true, 18, 800000, 10, false, 255, 0x009, BitVec.ofNat 24 count, .i0⟩
/-- Channel 1 as V-B5 has it: RGB on pin 13, two pixels. -/
def rgb : Channel := ⟨true, 13, 800000, 10, false, 255, 0x006, 2, .i1⟩
/-- The arguments of V-C1. -/
def argsC1 : Args := ⟨18, 800000, 10, 0, 255, 0x009, 10⟩

def fresh : Instance := { Instance.reset with args := argsC1 }
def configured : Instance := { Instance.reset with ch := ⟨grb 1, .reset⟩, pix := ⟨[(0, 0x00FF0000)], []⟩ }
def ready : Instance := { configured with tstate := .ready, line := ⟨.driven false, .undriven⟩, mux := [(18, 5)] }
/-- A transmission of two word-steps in flight. -/
def sending : Instance :=
  { ready with tstate := .transmitting, seq := 1, front := .i1, flen := ⟨0, 2⟩, buf := ⟨[], [(0, 0x924924DB)]⟩ }

/-- Two instances, the first as said. -/
def sys (n : Instance) : State := { State.reset with insts := [n, Instance.reset] }
/-- The claims of V-T1. -/
def claims0 : List Claim := [⟨.pin 18, 0⟩, ⟨.pwm 0 .i0, 0⟩, ⟨.pwm 0 .i1, 0⟩, ⟨.dma 10, 0⟩]
/-- The next move is the first thread's one operation. -/
def hosting (op : HostOp) (s : State) : State := { s with sched := [.host 0], hosts := [⟨[op], 0, .ok⟩] }
/-- The next move is as said. -/
def moving (m : Move) (s : State) : State := { s with sched := [m] }
/-- A command in flight at a phase. -/
def inFlight (cmd : Instr) (ph : Phase) (n : Instance) : Instance := { n with sq := some ⟨cmd, n.args, ph⟩ }

/-- The state after a step, if it answers one. -/
def after : Result → Option State
  | .next s => some s
  | _ => none
/-- The first instance after a step. -/
def inst0 (r : Result) : Option Instance := (after r).bind fun s => s.insts.head?
/-- Why a step was refused. -/
def refusal : Result → Option Refusal
  | .refused r => some r
  | _ => none
/-- `STATUS` of the first instance after a step. -/
def status0 (r : Result) : Option Word := (inst0 r).map fun n => n.status
/-- `PSTATUS` and `PRESULT` of the first instance after a step. -/
def pixel0 (r : Result) : Option (Word × Word) := (inst0 r).map fun n => (n.pstatus, n.presult)

/-! ### WellFormed refuses -/

theorem test_wf_cfg : (Instr.cfg 1).wf = true ∧ (Instr.cfg 2).wf = false ∧ (Instr.cfg 3).wf = false := by decide
theorem test_wf_setbright : (Instr.setbright 1 0).wf = true ∧ (Instr.setbright 2 0).wf = false := by decide
theorem test_wf_gammawr : (Instr.gammawr 0 0 0).wf = true ∧ (Instr.gammawr 3 0 0).wf = false := by decide
theorem test_wf_pixrd : (Instr.pixrd 0 0xFFFFFF).wf = true ∧ (Instr.pixrd 2 0).wf = false := by decide
theorem test_wf_pixwr : (Instr.pixwr 1 0).wf = true ∧ (Instr.pixwr 3 0).wf = false := by decide
theorem test_wf_pixlen : (Instr.pixlen 0).wf = true ∧ (Instr.pixlen 2).wf = false := by decide
/-- R12: `ZERO_CODE` as long as `ONE_CODE`; R11: two instances with one id, and register windows that meet. -/
theorem test_wf_params : Params.suggested.wf = true ∧ ({ Params.suggested with zeroCode := 0b110 } : Params).wf = false
    ∧ ({ Params.suggested with wiring := [⟨0, 0, 0⟩, ⟨0, 1, 0x100⟩] } : Params).wf = false
    ∧ ({ Params.suggested with wiring := [⟨0, 0, 0⟩, ⟨1, 1, 0x80⟩] } : Params).wf = false
    ∧ ({ Params.suggested with resetUs := 0 } : Params).wf = false
    ∧ ({ Params.suggested with maxPixels := 0 } : Params).wf = false := by decide

/-! ### Words written out from the fields of R111 and the opcode maps of R114, R115: OP, RSV, CH, IMM -/

theorem test_word_cfg : decode .main 0b0001_00_01_000000000000000000000000 = .ok (.cfg 1) := by decide
theorem test_word_init : decode .main 0b0010_00_00_000000000000000000000000 = .ok .init := by decide
theorem test_word_setbright : decode .main 0b0011_00_00_000000000000000010000000 = .ok (.setbright 0 128) := by decide
theorem test_word_gammawr : decode .main 0b0100_00_01_00000000_00010000_00000011 = .ok (.gammawr 1 16 3) := by decide
theorem test_word_render : decode .main 0b0101_00_00_000000000000000000000000 = .ok .render := by decide
theorem test_word_rendernb : decode .main 0b0110_00_00_000000000000000000000000 = .ok .rendernb := by decide
theorem test_word_poll : decode .main 0b0111_00_00_000000000000000000000000 = .ok .poll := by decide
theorem test_word_fini : decode .main 0b1000_00_00_000000000000000000000000 = .ok .fini := by decide
theorem test_word_pixrd : decode .pixel 0b0001_00_01_000000000000000000001001 = .ok (.pixrd 1 9) := by decide
theorem test_word_pixwr : decode .pixel 0b0010_00_00_111111111111111111111111 = .ok (.pixwr 0 0xFFFFFF) := by decide
theorem test_word_pixlen : decode .pixel 0b0011_00_01_000000000000000000000000 = .ok (.pixlen 1) := by decide
/-- V-W2, checks 1 to 3, the last two rows with more than one check failing. -/
theorem test_word_illegal : decode .main 0x00000000 = .error .reservedOpcode ∧ decode .main 0x90000000 = .error .reservedOpcode
    ∧ decode .main 0xF0000000 = .error .reservedOpcode ∧ decode .main 0x14000000 = .error .reservedBits
    ∧ decode .main 0x21000000 = .error .notZero ∧ decode .main 0x50000001 = .error .notZero
    ∧ decode .main 0x40010000 = .error .notZero ∧ decode .pixel 0x40000000 = .error .reservedOpcode
    ∧ decode .pixel 0x30000001 = .error .notZero ∧ decode .pixel 0x05000000 = .error .reservedBits := by decide
theorem test_word_encode : encode (.gammawr 0 255 0) = 0x4000FF00 ∧ encode (.setbright 1 255) = 0x310000FF
    ∧ encode (.pixrd 1 9) = 0x11000009 := by decide
/-- A table word with the fields that tell its port (log 9). -/
theorem test_tableWord : decodeTableWord 32 0x11000000 = some (.cfg 1) ∧ decodeTableWord 32 0x11000009 = some (.pixrd 1 9)
    ∧ decodeTableWord 32 0x20000001 = some (.pixwr 0 1) ∧ decodeTableWord 32 0x310000FF = some (.setbright 1 255)
    ∧ decodeTableWord 32 0x21000000 = some (.pixwr 1 0) ∧ decodeTableWord 32 0xF0000000 = none := by decide
/-- The first step after reset runs the word placed: `POLL` before `INIT` is `IllegalCommand` (V-W2). -/
theorem test_fetch : status0 (step (State.reset.withFetchWord 32 0x70000000)) = some 0x00000600
    ∧ (inst0 (step (State.reset.withFetchWord 32 0x30000040))).map (fun n => (n.ch.get .i0).bright) = some 64 := by decide

/-! ### Configuration commands -/

/-- V-C1. -/
theorem test_cfg : (inst0 (exec (.cfg 0) (sys fresh))).map (fun n => (n.status, n.readReg (.mirror .i0 .freq),
    n.readReg (.mirror .i0 .flags), n.readReg (.mirror .i0 .count), n.readReg (.mirror .i0 .slot)))
    = some (0, 0x000C3500, 0x80000000, 10, 0) := by decide
/-- V-C2: pin 17; `ARG2` = 16; `ARG3` = 2; `ARG4` = 256; `ARG5` = 0x0C6; `ARG6` = 1025. -/
theorem test_cfg_invalid : ([⟨17, 800000, 10, 0, 255, 0x009, 10⟩, ⟨18, 600000, 10, 0, 255, 0x009, 10⟩,
    ⟨18, 800000, 16, 0, 255, 0x009, 10⟩, ⟨18, 800000, 10, 2, 255, 0x009, 10⟩, ⟨18, 800000, 10, 0, 256, 0x009, 10⟩,
    ⟨18, 800000, 10, 0, 255, 0x0C6, 10⟩, ⟨18, 800000, 10, 0, 255, 0x124, 10⟩, ⟨18, 800000, 10, 0, 255, 0x009, 1025⟩]
    : List Args).all (fun a => status0 (exec (.cfg 0) (sys { Instance.reset with args := a })) = some 0x00000100) := by
  decide
/-- V-C4: `READY`, word 0x30000080; and 0x30000100. -/
theorem test_setbright : (inst0 (exec (.setbright 0 128) (sys ready))).map (fun n => (n.status, (n.ch.get .i0).bright))
    = some (1, 128)
    ∧ (inst0 (exec (.setbright 0 256) (sys ready))).map (fun n => (n.status, (n.ch.get .i0).bright)) = some (0x101, 255) := by
  decide
/-- V-C5; and writing the reset value back leaves no entry. -/
theorem test_gammawr : (inst0 (exec (.gammawr 0 7 200) (sys ready))).map (fun n => (n.gam.get .i0, n.status))
    = some ([(7, 200)], 1)
    ∧ (inst0 (exec (.gammawr 0 7 7) (sys { ready with gam := ⟨[(7, 200)], []⟩ }))).map (fun n => n.gam.get .i0) = some [] := by
  decide

/-! ### The pixel port -/

/-- V-P2 and V-P3: the last legal index, and the first illegal one with `PRESULT` unchanged. -/
theorem test_pixrd : pixel0 (exec (.pixrd 0 0) (sys ready)) = some (0, 0x00FF0000)
    ∧ pixel0 (exec (.pixrd 0 1) (sys { ready with presult := 9 })) = some (5, 9) := by decide
/-- V-P5: all 32 bits are kept; V-P4: an unconfigured channel. -/
theorem test_pixwr : (inst0 (exec (.pixwr 0 0) (sys { ready with pdata := 0xFFFFFFFF }))).map (fun n => n.pix.get .i0)
    = some [(0, 0xFFFFFFFF)] ∧ pixel0 (exec (.pixwr 1 0) (sys ready)) = some (5, 0) := by decide
/-- V-P1; V-W2: `CH` = 2. -/
theorem test_pixlen : pixel0 (exec (.pixlen 0) (sys ready)) = some (0, 1)
    ∧ pixel0 (exec (.pixlen 2) (sys ready)) = some (6, 0) := by decide
/-- V-P6. -/
theorem test_pack : pack 256 1 2 3 = 0x03000102 ∧ pack 1 2 3 4 = 0x04010203
    ∧ unpack 0x00123456 = (0x12, 0x34, 0x56, 0) := by decide

/-! ### The encoder and the frame builder -/

/-- V-E1, the row b = 128 and the last column. -/
theorem test_scale : [0, 1, 2, 127, 128, 254, 255].map (fun c => scale c 128) = [0, 0, 1, 63, 64, 127, 128]
    ∧ [0, 1, 127, 128, 254, 255].map (fun b => scale 255 b) = [0, 1, 127, 128, 254, 255] := by decide
/-- V-E2: output bytes 0, 0xFF, 0. -/
theorem test_encode_grb : encodePixel Params.suggested (grb 1) [] 0x00FF0000
    = (List.replicate 8 [true, false, false] ++ List.replicate 8 [true, true, false]
      ++ List.replicate 8 [true, false, false]).flatten := by decide
/-- V-E5, V-E6, V-E7: the byte orders. -/
theorem test_byte_order : outBytes [] 255 0x006 0x00123456 = [0x12, 0x34, 0x56]
    ∧ outBytes [] 255 0x024 0x00123456 = [0x56, 0x34, 0x12] ∧ outBytes [] 255 0x1C9 0x04010203 = [2, 1, 3, 4]
    ∧ outBytes [] 255 0x11B 0x04010203 = [4, 1, 2, 3] ∧ outBytes [] 128 0x1C9 0xFF000000 = [0, 0, 0, 0x80] := by decide
/-- V-E9. -/
theorem test_reset_gap : resetSub Params.suggested (grb 1) = 720
    ∧ resetSub Params.suggested { grb 1 with freq := 400000 } = 360 := by decide
/-- V-B3: the first words of one red pixel's frame, and its length. -/
theorem test_frame : let t := streamOf Params.suggested (grb 1) [] [0x00FF0000]
    t.length = 792 ∧ frameSteps configured ⟨t, []⟩ = 25
    ∧ [slotWord t 0, slotWord t 1, slotWord t 2, slotWord t 24] = [0x924924DB, 0x6DB69249, 0x24000000, 0] := by
  decide +kernel
/-- V-B5: slot 1's words. -/
theorem test_frame_slot1 : let t := streamOf Params.suggested rgb [] [0x000000FF, 0x00FFFFFF]
    t.length = 864 ∧ [slotWord t 0, slotWord t 1, slotWord t 2, slotWord t 3, slotWord t 4]
      = [0x92492492, 0x4924DB6D, 0xB6DB6DB6, 0xDB6DB6DB, 0x6DB60000] := by
  decide +kernel
/-- R133: the upstream constants of GRB and RGB. -/
theorem test_upstream : stripOfUpstream 0x00081000 = 0x009 ∧ stripOfUpstream 0x00100800 = 0x006 := by decide

/-! ### The transport -/

/-- V-T1. -/
theorem test_init : (after (exec .init (sys configured))).map (fun s => s.claims) = some
      [⟨.pin 18, 0⟩, ⟨.pwm 0 .i0, 0⟩, ⟨.pwm 0 .i1, 0⟩, ⟨.dma 10, 0⟩]
    ∧ (inst0 (exec .init (sys configured))).map (fun n => (n.status, n.line)) = some (1, ⟨.driven false, .undriven⟩) := by
  decide
/-- R281, R283, R284: no channel; two channels on one slot; the pin claimed by another instance. -/
theorem test_init_errors : status0 (exec .init (sys Instance.reset)) = some 0x100
    ∧ status0 (exec .init (sys { configured with ch := ⟨grb 1, { grb 1 with gpio := 12 }⟩ })) = some 0x300
    ∧ status0 (exec .init { sys configured with claims := [⟨.pin 18, 1⟩] }) = some 0x200 := by decide
/-- R291: busy in the encode phase; `IllegalCommand` in `UNINIT`. -/
theorem test_render : status0 (exec .render (sys ready)) = some 0x005
    ∧ status0 (exec .render (sys configured)) = some 0x600 := by decide
/-- R300: the start step gives the handle. -/
theorem test_rendernb : (inst0 (exec .rendernb (sys ready))).map (fun n => n.sq.map fun q => q.phase)
      = some (some (.enc .i0 0 ⟨[], []⟩))
    ∧ (inst0 (step (moving (.seq 0 true) (sys (inFlight .rendernb .start { ready with flen := ⟨0, 25⟩ }))))).map
      (fun n => (n.status, n.result, n.seq, n.front)) = some (2, 1, 1, .i1) := by decide
/-- R310: in flight; done. -/
theorem test_poll : (inst0 (exec .poll (sys { sending with args := { Args.zero with a0 := 1 } }))).map (fun n => n.result)
      = some 0
    ∧ (inst0 (exec .poll (sys { ready with seq := 1, args := { Args.zero with a0 := 1 } }))).map (fun n => n.result)
      = some 1 := by decide
/-- R315, R316: the teardown, and the wait. -/
theorem test_fini : after (exec .fini { sys ready with claims := claims0 ++ [⟨.pin 13, 1⟩] })
      = some { sys Instance.reset with claims := [⟨.pin 13, 1⟩] }
    ∧ status0 (exec .fini (sys sending)) = some 0x006 := by decide
/-- R320, R322: word 0 of V-B3 on the line; an underrun. -/
theorem test_drain : (inst0 (step (moving (.drain 0 .good) (sys sending)))).map (fun n => (n.dpos, n.emitted.at0.take 12))
      = some (1, [true, false, false, true, false, false, true, false, false, true, false, false])
    ∧ (inst0 (step (moving (.drain 0 (.fifoUnderrun ⟨[true], []⟩)) (sys sending)))).map
      (fun n => (n.status, n.readReg .xerr, n.emitted.at0)) = some (0x009, 4, [true]) := by decide
/-- R317: the abort tears down and reports. -/
theorem test_abort : (inst0 (step (moving (.abort 0 ⟨3, 0⟩) (sys (inFlight .fini .finiWait sending))))).map
    (fun n => (n.status, n.emitted.at0)) = some (0x400, [true, false, false]) := by decide
/-- R87, R94: a reserved offset, a misaligned access, an address outside every window. -/
theorem test_access : refusal (step (hosting (.load 0x90 4) (sys ready))) = some (.reservedOffset 0x90)
    ∧ refusal (step (hosting (.load 0x02 4) (sys ready))) = some (.badAccess 0x02 4)
    ∧ refusal (step (hosting (.load 0x200 4) (sys ready))) = some (.unmapped 0x200) := by decide

/-! ### Witnesses: for every statement with hypotheses, a state and operands that meet all of them, clause by clause -/

def w0 : Wiring := ⟨0, 0, 0⟩
def thread (op : HostOp) : HostThread := ⟨[op], 0, .ok⟩

theorem witness_EncodeInvertsDecode : decode .main 0x41001003 = .ok (.gammawr 1 0x10 3)
    ∧ decode .pixel 0x31000000 = .ok (.pixlen 1) := by decide

/-- No command of the main port assembles to 0x10000001. -/
theorem no_command_of_word : ∀ i : Instr, i.port = .main → encode i ≠ 0x10000001 := by
  intro i hp he
  have ho : opField (encode i) = 1 := by rw [he]; decide
  have hi : immField (encode i) = 1 := by rw [he]; decide
  cases i <;> simp [encode, opField_formatC, immField_formatC, Instr.port] at ho hi hp
/-- Check 1; check 2 at the first and the last reserved opcodes of both ports; check 3. -/
theorem witness_DecodeChecksInOrder : (0x14000000#32).extractLsb' 26 2 ≠ 0
    ∧ ((0x00000000#32).extractLsb' 26 2 = 0 ∧ ((0x00000000#32).extractLsb' 28 4).toNat = 0)
    ∧ ((0x90000000#32).extractLsb' 26 2 = 0 ∧ 8 < ((0x90000000#32).extractLsb' 28 4).toNat)
    ∧ ((0x40000000#32).extractLsb' 26 2 = 0 ∧ 3 < ((0x40000000#32).extractLsb' 28 4).toNat)
    ∧ ((0x10000001#32).extractLsb' 26 2 = 0 ∧ 1 ≤ ((0x10000001#32).extractLsb' 28 4).toNat
      ∧ ((0x10000001#32).extractLsb' 28 4).toNat ≤ 8 ∧ ∀ i : Instr, i.port = .main → encode i ≠ 0x10000001) :=
  ⟨by decide, by decide, by decide, by decide, by decide, by decide, by decide, no_command_of_word⟩

/-- The hypotheses of the statements about a store of `v` to an address by the first thread, at instance 0 being `n`. -/
def StoreAt (n : Instance) (addr off : Nat) (v : Word) : Prop :=
  let s := hosting (.store addr 4 v) (sys n)
  s.sched = .host 0 :: [] ∧ s.hosts[0]? = some (thread (.store addr 4 v)) ∧ (thread (.store addr 4 v)).prog = [.store addr 4 v]
    ∧ locate s.params addr = some (0, off) ∧ s.inst? 0 = some (w0, n)
theorem storeAt (n : Instance) (addr off : Nat) (v : Word) (h : locate Params.suggested addr = some (0, off)) :
    StoreAt n addr off v := ⟨rfl, rfl, rfl, h, rfl⟩

theorem witness_StepRunsMainCommand : StoreAt ready 0x00 0x00 0x80000000 ∧ ready.sq = none
    ∧ decode .main 0x80000000 = .ok .fini := ⟨storeAt _ _ _ _ (by decide), rfl, rfl⟩
theorem witness_StepRunsPixelOperation : StoreAt sending 0x80 0x80 0x10000000
    ∧ decode .pixel 0x10000000 = .ok (.pixrd 0 0) := ⟨storeAt _ _ _ _ (by decide), rfl⟩
theorem witness_BusyPortHoldsTheWrite : StoreAt (inFlight .render .wait sending) 0x00 0x00 0x70000000
    ∧ (inFlight .render .wait sending).sq ≠ none := ⟨storeAt _ _ _ _ (by decide), by decide⟩
theorem witness_IllegalWordOnlySetsCode :
    (StoreAt ready 0x00 0x00 0x1C000000 ∧ ready.sq = none ∧ decode .main 0x1C000000 = .error .reservedBits)
    ∧ (StoreAt ready 0x80 0x80 0x30000001 ∧ decode .pixel 0x30000001 = .error .notZero) :=
  ⟨⟨storeAt _ _ _ _ (by decide), rfl, rfl⟩, storeAt _ _ _ _ (by decide), rfl⟩
theorem witness_ChannelOutOfRangeIsIllegal :
    ((Instr.cfg 2).wf = false ∧ (sys ready).inst? (sys ready).sel = some (w0, ready) ∧ (Instr.cfg 2).port = .main
      ∧ ready.sq = none) ∧ (Instr.pixlen 3).wf = false ∧ (Instr.pixlen 3).port = .pixel := by decide
/-- A load; a store to each kind of register. -/
theorem witness_RegisterAccesses :
    (let s := hosting (.load 0x04 4) (sys ready);
      s.sched = .host 0 :: [] ∧ s.hosts[0]? = some (thread (.load 0x04 4)) ∧ locate s.params 0x04 = some (0, 0x04)
        ∧ regAt 0x04 = some .status ∧ s.inst? 0 = some (w0, ready))
    ∧ (StoreAt ready 0x20 0x20 7 ∧ regAt 0x20 = some (.arg .a6)) ∧ (StoreAt ready 0x88 0x88 7 ∧ regAt 0x88 = some .pdata)
    ∧ (StoreAt ready 0x00 0x00 7 ∧ regAt 0x00 = some .cmd ∧ ready.sq = none)
    ∧ (StoreAt ready 0x80 0x80 7 ∧ regAt 0x80 = some .pcmd) ∧ (StoreAt ready 0x8C 0x8C 7 ∧ regAt 0x8C = some .presult) :=
  ⟨by decide, ⟨storeAt _ _ _ _ (by decide), by decide⟩, ⟨storeAt _ _ _ _ (by decide), by decide⟩,
    ⟨storeAt _ _ _ _ (by decide), by decide, rfl⟩, ⟨storeAt _ _ _ _ (by decide), by decide⟩,
    storeAt _ _ _ _ (by decide), by decide⟩
/-- Misaligned, of another width, and the first and last reserved offsets. -/
theorem witness_UndefinedAccessesAreRefused :
    (let s := hosting (.load 0x06 4) (sys ready);
      s.sched = .host 0 :: [] ∧ s.hosts[0]? = some (thread (.load 0x06 4)) ∧ locate s.params 0x06 = some (0, 0x06)
        ∧ 0x06 % 4 ≠ 0)
    ∧ (let s := hosting (.load 0x04 2) (sys ready);
      s.hosts[0]? = some (thread (.load 0x04 2)) ∧ locate s.params 0x04 = some (0, 0x04) ∧ (2 : Nat) ≠ 4)
    ∧ [0x30, 0x3C, 0x90, 0xFC].all (fun a => locate Params.suggested a == some (0, a) && a % 4 == 0) = true := by decide

/-- The hypotheses of `CfgStoresRecord`: the arguments of V-C1, and boundary arguments of V-C3. -/
theorem witness_CfgStoresRecord : ([argsC1, ⟨13, 400000, 15, 1, 0, 0x1E4, 1024⟩, ⟨18, 800000, 0, 0, 255, 0x006, 0⟩]
    : List Args).all (fun a =>
      let n : Instance := { Instance.reset with args := a }
      (sys n).inst? (sys n).sel == some (w0, n) && n.sq.isNone && n.tstate == .uninit
        && (pinSlot Params.suggested a.a0.toNat).isSome && Params.suggested.freqSet.contains a.a1.toNat
        && a.a2.toNat ≤ Params.suggested.dmaIdMax && !Params.suggested.reservedDma.contains a.a2.toNat
        && a.a3.toNat ≤ 1 && a.a4.toNat ≤ 255 && a.a5.toNat < 512 && stripLegal (a.a5.setWidth 9)
        && a.a6.toNat ≤ Params.suggested.maxPixels) = true := by decide
/-- Each of the checks at the first value it refuses; a reserved DMA id. -/
theorem witness_CfgRejectsInvalid : pinSlot Params.suggested 17 = none ∧ 0 ∉ Params.suggested.freqSet
    ∧ Params.suggested.dmaIdMax < 16 ∧ 5 ∈ ({ Params.suggested with reservedDma := [5] } : Params).reservedDma
    ∧ (2#32).extractLsb' 1 31 ≠ 0 ∧ 255 < (256#32).toNat ∧ 512 ≤ (0x200#32).toNat
    ∧ stripLegal ((0x0C6#32).setWidth 9) = false ∧ Params.suggested.maxPixels < 1025
    ∧ (sys fresh).inst? (sys fresh).sel = some (w0, fresh) ∧ fresh.sq = none ∧ fresh.tstate = .uninit := by decide
theorem witness_CfgOnlyInUninit : (sys ready).accepts w0 ready ∧ ready.tstate ≠ .uninit := ⟨⟨rfl, rfl⟩, by decide⟩
/-- The last value that is accepted and the first that is not, in two transport states. -/
theorem witness_SetbrightCommand : (sys ready).accepts w0 ready ∧ (sys sending).accepts w0 sending
    ∧ (1#2).toNat = Idx.i1.toNat ∧ (255#24).toNat ≤ 255 ∧ 255 < (256#24).toNat :=
  ⟨⟨rfl, rfl⟩, ⟨rfl, rfl⟩, by decide, by decide, by decide⟩
theorem witness_GammawrCommand : (sys sending).accepts w0 sending ∧ (1#2).toNat = Idx.i1.toNat
    ∧ Memory.wf identityTable (sending.gam.get .i1) = true ∧ (1#8) ≠ 0 := ⟨⟨rfl, rfl⟩, by decide, rfl, by decide⟩

/-- Both channels of V-B5, configured. -/
def both : Instance := { Instance.reset with ch := ⟨grb 1, rgb⟩ }
theorem witness_InitAcquires : (sys both).accepts w0 both ∧ both.tstate = .uninit ∧ (∃ c, (both.ch.get c).valid = true)
    ∧ (∀ c d, (both.ch.get c).valid = true → (both.ch.get d).valid = true →
      (both.ch.get c).freq = (both.ch.get d).freq ∧ (both.ch.get c).dma = (both.ch.get d).dma
        ∧ (c ≠ d → (both.ch.get c).slot ≠ (both.ch.get d).slot))
    ∧ (∀ x ∈ (sys both).claims, ¬ ((∃ t, x.id = .pwm w0.pwmCtrl t) ∨ ∃ c, (both.ch.get c).valid = true
      ∧ (x.id = .pin (both.ch.get c).gpio.toNat ∨ x.id = .dma (both.ch.get c).dma.toNat))) := by
  refine ⟨⟨rfl, rfl⟩, rfl, ⟨.i0, rfl⟩, ?_, fun x hx => (by cases hx)⟩
  intro c d
  cases c <;> cases d <;> decide
/-- No channel; two channels that differ in `freq`, and in `dma`; two on one slot; each kind of claim taken. -/
theorem witness_InitReportsFirstError : (sys ready).accepts w0 ready ∧ ready.tstate ≠ .uninit
    ∧ (∀ c, (Instance.reset.ch.get c).valid = false)
    ∧ (let n := { both with ch := ⟨grb 1, { rgb with freq := 400000 }⟩ };
      n.tstate = .uninit ∧ crossValid n = false)
    ∧ (let n := { both with ch := ⟨grb 1, { rgb with dma := 9 }⟩ };
      n.tstate = .uninit ∧ crossValid n = false)
    ∧ (let n := { both with ch := ⟨grb 1, { grb 1 with gpio := 12 }⟩ };
      crossValid n = true ∧ overlaps n = true)
    ∧ crossValid both = true ∧ overlaps both = false
    ∧ claimed [⟨.pin 13, 1⟩] (claimSet w0 both) = true ∧ claimed [⟨.dma 10, 1⟩] (claimSet w0 both) = true
    ∧ claimed [⟨.pwm 0 .i1, 1⟩] (claimSet w0 both) = true := by
  refine ⟨⟨rfl, rfl⟩, by decide, fun c => (by cases c <;> rfl), ?_⟩
  decide
/-- The lowest active channel is channel 0, and is channel 1. -/
theorem witness_RenderIssue : (sys ready).inst? (sys ready).sel = some (w0, ready) ∧ ready.sq = none ∧ ready.tstate ≠ .uninit
    ∧ (ready.ch.get .i0).valid = true
    ∧ (let n := { ready with ch := ⟨.reset, rgb⟩ }; (n.ch.get .i1).valid = true ∧ (n.ch.get .i0).valid = false)
    ∧ configured.tstate = .uninit ∧ (inFlight .render .wait sending).sq ≠ none := by decide
/-- Every case of `POLL`. -/
theorem witness_PollCommand : (sys sending).accepts w0 sending
    ∧ (let n := { sending with args := { Args.zero with a0 := 1 } };
      n.tstate ≠ .uninit ∧ n.args.a0 ≠ 0 ∧ n.seq ≠ 0 ∧ n.args.a0 = n.seq ∧ n.tstate = .transmitting)
    ∧ (let n := { sending with args := { Args.zero with a0 := 2 } };
      n.args.a0 ≠ 0 ∧ n.seq ≠ 0 ∧ n.args.a0 ≠ n.seq)
    ∧ (let n := { ready with seq := 1, args := { Args.zero with a0 := 1 } };
      n.tstate = .ready ∧ n.args.a0 = n.seq ∧ n.readReg .xerr = 0)
    ∧ (let n := { ready with seq := 1, xerr := ⟨false, true, false⟩, args := { Args.zero with a0 := 1 } };
      n.tstate = .ready ∧ n.args.a0 = n.seq ∧ n.readReg .xerr ≠ 0)
    ∧ configured.tstate = .uninit ∧ ready.args.a0 = 0 ∧ ready.seq = 0 := ⟨⟨rfl, rfl⟩, by decide⟩
theorem witness_FiniCommand : (sys configured).accepts w0 configured ∧ (sys ready).accepts w0 ready
    ∧ (sys sending).accepts w0 sending ∧ configured.tstate = .uninit ∧ ready.tstate = .ready
    ∧ sending.tstate = .transmitting := ⟨⟨rfl, rfl⟩, ⟨rfl, rfl⟩, ⟨rfl, rfl⟩, rfl, rfl, rfl⟩
theorem witness_FiniIsIdempotent : (sys ready).accepts w0 ready ∧ ready.tstate = .ready ∧ ready.errpend = false
    ∧ configured.tstate = .uninit := ⟨⟨rfl, rfl⟩, rfl, rfl, rfl⟩

/-- The last legal index and the first illegal one; the channels that exist and one that does not. -/
theorem witness_PixrdCommand : (sys ready).inst? (sys ready).sel = some (w0, ready) ∧ (0#2).toNat = Idx.i0.toNat
    ∧ (0#24).toNat < (ready.ch.get .i0).count.toNat ∧ (ready.ch.get .i0).count.toNat ≤ (1#24).toNat
    ∧ (1#2).toNat = Idx.i1.toNat ∧ (ready.ch.get .i1).count.toNat ≤ (0#24).toNat ∧ 2 ≤ (2#2).toNat := by decide
theorem witness_PixwrCommand : (sys ready).inst? (sys ready).sel = some (w0, ready)
    ∧ (∀ c, Memory.wf zeroFill (ready.pix.get c) = true) ∧ (0#24).toNat < (ready.ch.get .i0).count.toNat
    ∧ (ready.ch.get .i0).count.toNat ≤ (1#24).toNat ∧ 2 ≤ (3#2).toNat :=
  ⟨rfl, fun c => (by cases c <;> decide), by decide, by decide, by decide⟩
theorem witness_PixlenCommand : (sys ready).inst? (sys ready).sel = some (w0, ready) ∧ (1#2).toNat = Idx.i1.toNat
    ∧ 2 ≤ (2#2).toNat := by decide
/-- Every disjunct of the encoding errors, and an index at the length. -/
theorem witness_PixelPortErrors : StoreAt ready 0x80 0x80 0x05000000 ∧ (0x05000000#32).extractLsb' 26 2 ≠ 0
    ∧ ((0x00000000#32).extractLsb' 28 4).toNat = 0 ∧ 3 < ((0x40000000#32).extractLsb' 28 4).toNat
    ∧ (((0x30000001#32).extractLsb' 28 4).toNat = 3 ∧ ((0x30000001#32).extractLsb' 0 24).toNat ≠ 0)
    ∧ 2 ≤ ((0x12000000#32).extractLsb' 24 2).toNat
    ∧ ((0x20000001#32).extractLsb' 26 2 = 0 ∧ ((0x20000001#32).extractLsb' 28 4).toNat = 2
      ∧ ((0x20000001#32).extractLsb' 24 2).toNat = Idx.i0.toNat
      ∧ (ready.ch.get .i0).count.toNat ≤ ((0x20000001#32).extractLsb' 0 24).toNat) :=
  ⟨storeAt _ _ _ _ (by decide), by decide⟩
/-- An `INIT` in `READY`; a `PIXRD` past the end. -/
theorem witness_ErrorIsPrecise : (let s := sys ready;
      exec .init s = .next (s.setInst 0 (ready.finish .illegalCommand)) ∧ ready.sq = none
        ∧ (s.setInst 0 (ready.finish .illegalCommand)).inst? 0 = some (w0, ready.finish .illegalCommand)
        ∧ (ready.finish .illegalCommand).resultCode ≠ .ok)
    ∧ (let s := sys ready;
      exec (.pixrd 0 1) s = .next (s.setInst 0 (ready.finishPixel .indexOutOfRange))
        ∧ (ready.finishPixel .indexOutOfRange).presultCode ≠ .ok) :=
  ⟨⟨rfl, rfl, rfl, by decide⟩, rfl, by decide⟩

/-- Both channels out of `UNINIT`. -/
def bothReady : Instance := { both with tstate := .ready, line := ⟨.driven false, .driven false⟩ }
/-- The hypotheses of the statements about a move of instance 0, being `n` with the command in flight `q`. -/
def SeqAt (m : Move) (n : Instance) (q : InFlight) : Prop :=
  let s := moving m (sys n)
  s.sched = m :: [] ∧ s.inst? 0 = some (w0, n) ∧ n.sq = some q

/-- A pixel before the last, and the last, of the last channel. -/
theorem witness_EncodeStepReadsOnePixel :
    SeqAt (.seq 0 true) (inFlight .render (.enc .i1 0 ⟨[true], []⟩) bothReady) ⟨.render, .zero, .enc .i1 0 ⟨[true], []⟩⟩
    ∧ 0 < (bothReady.ch.get .i1).count.toNat ∧ 1 < (bothReady.ch.get .i1).count.toNat
    ∧ SeqAt (.seq 0 true) (inFlight .render (.enc .i0 0 (.both [])) bothReady) ⟨.render, .zero, .enc .i0 0 (.both [])⟩
    ∧ 0 < (bothReady.ch.get .i0).count.toNat := ⟨⟨rfl, rfl, rfl⟩, by decide, by decide, ⟨rfl, rfl, rfl⟩, by decide⟩
/-- A 1 bit and a 0 bit of a pixel: the first and the last sub-bit of a GRB pixel. -/
theorem witness_EncodePixelSubBits : (grb 1).strip.getLsbD 8 = false ∧ (0 < 3 ∧ 0 < 8 ∧ 0 < Params.suggested.symLen)
    ∧ (2 < 3 ∧ 7 < 8 ∧ 2 < Params.suggested.symLen) ∧ (0x1C9#9).getLsbD 8 = true := by decide
theorem witness_FullBrightnessIsIdentity : ∀ j, j < 256 → Memory.read identityTable [] j = BitVec.ofNat 8 j := fun _ _ => rfl
theorem witness_ZeroBrightnessIsDark : ({ grb 1 with bright := 0 } : Channel).bright = 0 := rfl
theorem witness_EncodePhaseYieldsStream :
    let n := inFlight .render (.enc .i1 0 ⟨[true], []⟩) bothReady;
    let s : State := { sys n with sched := List.replicate 2 (.seq 0 true) ++ [.drain 0 .good] }
    s.inst? 0 = some (w0, n) ∧ n.sq = some ⟨.render, .zero, .enc .i1 0 ⟨[true], []⟩⟩
      ∧ (⟨[true], []⟩ : Pair (List Bool)).get .i1 = [] ∧ 0 < (n.ch.get .i1).count.toNat ∧ (n.ch.get .i1).count.toNat = 2 := by
  decide
/-- A frame whose slot 0 has a stream, and whose slot 1 has none. -/
theorem witness_BuildLaysOutTheFrame :
    SeqAt (.seq 0 true) (inFlight .render (.build ⟨[true, false], []⟩) ready) ⟨.render, .zero, .build ⟨[true, false], []⟩⟩
    ∧ Memory.wf zeroFill (ready.buf.get ready.front.other) = true ∧ ready.channelOn .i0 = some .i0
    ∧ ready.channelOn .i1 = none := ⟨⟨rfl, rfl, rfl⟩, rfl, by decide, by decide⟩
theorem witness_FrameFitsTheBuffer : ∀ c, (configured.ch.get c).valid = true →
    (configured.ch.get c).freq.toNat ∈ Params.suggested.freqSet ∧ (configured.ch.get c).count.toNat ≤ Params.suggested.maxPixels
      ∧ ∃ pxs : List Word, pxs.length = (configured.ch.get c).count.toNat
        ∧ (⟨streamOf Params.suggested (grb 1) [] [0x00FF0000], []⟩ : Pair (List Bool)).get c
          = streamOf Params.suggested (configured.ch.get c) (configured.gam.get c) pxs := by
  intro c hc
  cases c
  · exact ⟨by decide, by decide, [0x00FF0000], by decide, rfl⟩
  · cases hc
/-- The waits that hold and the waits that go on. -/
theorem witness_WaitsHoldWhileTransmitting :
    SeqAt (.seq 0 true) (inFlight .render .wait sending) ⟨.render, .zero, .wait⟩
    ∧ SeqAt (.seq 0 true) (inFlight .fini .finiWait sending) ⟨.fini, .zero, .finiWait⟩ ∧ sending.tstate = .transmitting
    ∧ SeqAt (.seq 0 true) (inFlight .render .wait ready) ⟨.render, .zero, .wait⟩
    ∧ SeqAt (.seq 0 true) (inFlight .fini .finiWait ready) ⟨.fini, .zero, .finiWait⟩ ∧ ready.tstate ≠ .transmitting :=
  ⟨⟨rfl, rfl, rfl⟩, ⟨rfl, rfl, rfl⟩, rfl, ⟨rfl, rfl, rfl⟩, ⟨rfl, rfl, rfl⟩, by decide⟩
theorem witness_StartReportsPendingError :
    let n := inFlight .rendernb .start { ready with errpend := true, xerr := ⟨false, true, false⟩ }
    SeqAt (.seq 0 true) n ⟨.rendernb, .zero, .start⟩ ∧ n.tstate = .ready ∧ n.errpend = true := ⟨⟨rfl, rfl, rfl⟩, rfl, rfl⟩
/-- A start while transmitting, a start, a refused start of each command; the handle that wraps. -/
theorem witness_StartStep : SeqAt (.seq 0 true) (inFlight .render .start sending) ⟨.render, .zero, .start⟩
    ∧ SeqAt (.seq 0 true) (inFlight .render .start { ready with seq := 0xFFFFFFFF }) ⟨.render, .zero, .start⟩
    ∧ SeqAt (.seq 0 false) (inFlight .render .start ready) ⟨.render, .zero, .start⟩
    ∧ SeqAt (.seq 0 false) (inFlight .rendernb .start ready) ⟨.rendernb, .zero, .start⟩
    ∧ sending.errpend = false ∧ ready.errpend = false ∧ ready.tstate = .ready ∧ sending.tstate = .transmitting
    ∧ Params.suggested.xferErrors = true :=
  ⟨⟨rfl, rfl, rfl⟩, ⟨rfl, rfl, rfl⟩, ⟨rfl, rfl, rfl⟩, ⟨rfl, rfl, rfl⟩, rfl, rfl, rfl, rfl, rfl⟩
/-- A word-step before the last, and the last. -/
theorem witness_DrainEmitsOneWordStep : (moving (.drain 0 .good) (sys sending)).sched = .drain 0 .good :: []
    ∧ (moving (.drain 0 .good) (sys sending)).inst? 0 = some (w0, sending) ∧ sending.tstate = .transmitting
    ∧ sending.dpos < sending.flen.get sending.front ∧ sending.dpos + 1 ≠ sending.flen.get sending.front
    ∧ (let n := { sending with dpos := 1 };
      n.dpos < n.flen.get n.front ∧ n.dpos + 1 = n.flen.get n.front) := by decide
theorem witness_DrainErrorEndsTransmission : (moving (.drain 0 (.busError ⟨[], []⟩)) (sys sending)).inst? 0 = some (w0, sending)
    ∧ (sys sending).params.xferErrors = true ∧ sending.tstate = .transmitting
    ∧ sending.dpos < sending.flen.get sending.front := by decide
/-- An abort while transmitting, and one after the last word-step. -/
theorem witness_AbortTearsDown : SeqAt (.abort 0 ⟨3, 0⟩) (inFlight .fini .finiWait sending) ⟨.fini, .zero, .finiWait⟩
    ∧ SeqAt (.abort 0 ⟨3, 0⟩) (inFlight .fini .finiWait ready) ⟨.fini, .zero, .finiWait⟩ := ⟨⟨rfl, rfl, rfl⟩, rfl, rfl, rfl⟩
/-- A render of two channels with one and two pixels: seven moves. -/
theorem witness_RenderTransmitsTheFrame :
    let n := inFlight .rendernb (.enc .i0 0 (.both [])) bothReady
    let s : State := { sys n with sched := List.replicate 7 (.seq 0 true) ++ [] }
    s.inst? 0 = some (w0, n) ∧ n.sq = some ⟨.rendernb, .zero, firstPhase n⟩ ∧ n.tstate = .ready ∧ n.errpend = false
      ∧ (n.ch.get .i0).valid = true ∧ (n.ch.get .i0).count.toNat + (n.ch.get .i1).count.toNat + 4 ≤ 7 := by decide
/-- One word-step of one channel. -/
theorem witness_LinesCarryTheStreams :
    let n : Instance := { sending with flen := ⟨0, 1⟩, buf := ⟨[], [(0, 0x80000000)]⟩ }
    let acc : Pair (List Bool) := ⟨[true], []⟩
    let s : State := { sys n with sched := List.replicate 1 (.drain 0 .good) ++ [] }
    s.inst? 0 = some (w0, n) ∧ n.tstate = .transmitting ∧ n.dpos = 0 ∧ n.flen.get n.front = 1
      ∧ (∀ c, (n.ch.get c).valid = true → (acc.get c).length ≤ 32 * 1)
      ∧ (∀ j t c b, j < 1 → b < 32 → n.channelOn t = some c →
        (Memory.read zeroFill (n.buf.get n.front) (2 * j + t.toNat)).getLsbD (31 - b) = (acc.get c).getD (32 * j + b) false) := by
  refine ⟨rfl, rfl, rfl, rfl, fun c => ?_, fun j t c b hj hb hc => ?_⟩
  · cases c <;> decide
  · have h : ∀ b : Fin 32, (0x80000000#32).getLsbD (31 - b.val) = ([true] : List Bool).getD b.val false := by decide
    obtain rfl : j = 0 := by omega
    cases t
    · cases hc
      rw [show 32 * 0 + b = b by omega]
      exact h ⟨b, hb⟩
    · cases hc

/-- A system with a transmission in flight and its claims. -/
def running : State := moving (.drain 0 .good) { sys sending with claims := claims0 }
theorem running_inst? {k : Nat} {w : Wiring} {n : Instance} (h : running.inst? k = some (w, n)) :
    (k = 0 ∧ w = w0 ∧ n = sending) ∨ (k = 1 ∧ w = ⟨1, 1, 0x100⟩ ∧ n = Instance.reset) := by
  rcases k with _ | _ | k
  · cases h; exact .inl ⟨rfl, rfl, rfl⟩
  · cases h; exact .inr ⟨rfl, rfl, rfl⟩
  · cases h
theorem sending_memWf : sending.memWf := by intro i; cases i <;> decide
theorem reset_memWf : Instance.reset.memWf := by intro i; cases i <;> decide
theorem pix_below : ∀ e ∈ ([(0, 0x00FF0000)] : Memory 32), e.1 < (grb 1).count.toNat := by decide
theorem reset_channel_ok (p : Params) : Channel.reset.ok p [] := ⟨by simp, rfl⟩
theorem sending_consistent : sending.Consistent Params.suggested where
  channels c := by
    cases c
    · exact ⟨pix_below, by decide⟩
    · exact reset_channel_ok _
  uninit h := by cases h
  configured _ := by decide
  transmitting _ := by decide
  ready h := by cases h
  pending h := by cases h
  flight q h := by cases h
theorem reset_consistent : Instance.reset.Consistent Params.suggested where
  channels c := by cases c <;> exact reset_channel_ok _
  uninit _ := by decide
  configured h := absurd rfl h
  transmitting h := by cases h
  ready h := by cases h
  pending h := by cases h
  flight q h := by cases h
theorem running_transport : running.Transport := by
  refine ⟨by decide, fun k w n h => ?_⟩
  rcases running_inst? h with ⟨_, _, rfl⟩ | ⟨_, _, rfl⟩
  · exact sending_consistent
  · exact reset_consistent
theorem running_claimsOk : running.ClaimsOk where
  wiring := by decide
  wired := rfl
  once := by decide
  owned x hx := by
    refine ⟨0, w0, sending, rfl, ?_⟩
    have h : ∀ x ∈ claims0, x.owner = w0.id ∧ sending.tstate ≠ .uninit ∧ x.id ∈ claimSet w0 sending := by decide
    exact h x hx
  held k w n h hu i hi := by
    rcases running_inst? h with ⟨_, rfl, rfl⟩ | ⟨_, _, rfl⟩
    · have h : ∀ i ∈ claimSet w0 sending, (⟨i, w0.id⟩ : Claim) ∈ claims0 := by decide
      exact h i hi
    · exact absurd rfl hu
/-- The step of `running` answers next. -/
theorem running_steps : ∃ t, step running = .next t := ⟨_, rfl⟩
theorem witness_StepKeepsMemoriesCanonical : running.memWf ∧ ∃ t, step running = .next t := by
  refine ⟨fun n hn => ?_, running_steps⟩
  have h : n = sending ∨ n = Instance.reset := by simpa [running, moving, sys] using hn
  rcases h with rfl | rfl
  · exact sending_memWf
  · exact reset_memWf
theorem witness_StepKeepsTransportConsistent : running.Transport ∧ ∃ t, step running = .next t :=
  ⟨running_transport, running_steps⟩
theorem witness_StepKeepsClaims : running.Transport ∧ running.ClaimsOk ∧ ∃ t, step running = .next t :=
  ⟨running_transport, running_claimsOk, running_steps⟩
theorem witness_ResetMeetsTheInvariants : Params.suggested.wf = true := by decide
/-- Instance 0 consistent, instance 1 in reset, for given parameters: the transport of the system is. -/
theorem sys_transport {n : Instance} {p : Params} (hp : p.wf = true)
    (h : n.Consistent p) (h1 : Instance.reset.Consistent p) : State.Transport { sys n with params := p } := by
  refine ⟨hp, fun k w m hm => ?_⟩
  have hi := (State.inst?_eq_some.mp hm).2
  rcases k with _ | _ | k
  · cases hi; exact h
  · cases hi; exact h1
  · cases hi
theorem suggested_transport {n : Instance} (h : n.Consistent Params.suggested) : (sys n).Transport :=
  sys_transport (p := Params.suggested) (by decide) h reset_consistent
theorem configured_consistent : configured.Consistent Params.suggested where
  channels c := by
    cases c
    · exact ⟨pix_below, by decide⟩
    · exact reset_channel_ok _
  uninit _ := by decide
  configured h := absurd rfl h
  transmitting h := by cases h
  ready h := by cases h
  pending h := by cases h
  flight q h := by cases h
theorem ready_channel : (ready.ch.get .i0).ok Params.suggested (ready.pix.get .i0) := ⟨pix_below, by decide⟩
theorem ready_valid : crossValid ready = true ∧ overlaps ready = false := by decide
theorem ready_idle : ready.line = ready.idleLines := by decide
/-- `READY` with nothing in flight, or with a command at a phase that is consistent there. -/
theorem ready_consistent {sq : Option InFlight} {flen : Pair Nat}
    (hf : ∀ q, sq = some q → q.phase.ok { ready with sq := sq, flen := flen }
      ∧ (q.cmd = .render ∨ q.cmd = .rendernb ∨ q.cmd = .fini) ∧ (q.cmd = .fini ↔ q.phase = .finiWait)) :
    Instance.Consistent Params.suggested { ready with sq := sq, flen := flen } where
  channels c := by
    cases c
    · exact ready_channel
    · exact reset_channel_ok _
  uninit h := by cases h
  configured _ := ready_valid
  transmitting h := by cases h
  ready _ := ready_idle
  pending h := by cases h
  flight := hf
/-- `TRANSMITTING` with a `FINI` that waits. -/
theorem waiting_consistent : (inFlight .fini .finiWait sending).Consistent Params.suggested where
  channels c := by
    cases c
    · exact ⟨pix_below, by decide⟩
    · exact reset_channel_ok _
  uninit h := by cases h
  configured _ := by decide
  transmitting _ := by decide
  ready h := by cases h
  pending h := by cases h
  flight q h := by cases h; exact ⟨trivial, .inr (.inr rfl), by decide⟩
/-- The last word-step of a transmission. -/
def last : Instance := { sending with flen := ⟨0, 1⟩ }
theorem last_consistent : last.Consistent Params.suggested where
  channels c := by
    cases c
    · exact ⟨pix_below, by decide⟩
    · exact reset_channel_ok _
  uninit h := by cases h
  configured _ := by decide
  transmitting _ := by decide
  ready h := by cases h
  pending h := by cases h
  flight q h := by cases h
/-- A render at its start phase, its frame built. -/
def starting : Instance := { ready with sq := some ⟨.render, .zero, .start⟩, flen := ⟨0, 25⟩ }
theorem starting_consistent : starting.Consistent Params.suggested :=
  ready_consistent fun q h => by cases h; exact ⟨Nat.zero_lt_succ _, .inl rfl, by decide⟩
/-- A `FINI` whose wait is over. -/
def waited : Instance := { ready with sq := some ⟨.fini, .zero, .finiWait⟩, flen := ⟨0, 0⟩ }
theorem waited_consistent : waited.Consistent Params.suggested :=
  ready_consistent fun q h => by cases h; exact ⟨trivial, .inr (.inr rfl), by decide⟩
theorem idle_consistent : ready.Consistent Params.suggested := ready_consistent (sq := none) (flen := .both 0) fun q h => by cases h

/-- The hypotheses of `TransportTransitions` about a state and instance 0, with the transition. -/
def Moves (s : State) (n : Instance) (a b : TState) : Prop :=
  s.Transport ∧ s.inst? 0 = some (w0, n) ∧ n.tstate = a
    ∧ ∃ t n', step s = .next t ∧ t.inst? 0 = some (w0, n') ∧ n'.tstate = b
/-- Each transition of the table: by `INIT`; by a start; by the last word-step and by an error; by `FINI`, by the end of its
wait and by an abort that comes after it; by an abort while transmitting. -/
theorem witness_TransportTransitions :
    Moves (hosting (.store 0x00 4 0x20000000) (sys configured)) configured .uninit .ready
    ∧ Moves (moving (.seq 0 true) (sys starting)) starting .ready .transmitting
    ∧ Moves (moving (.drain 0 .good) (sys last)) last .transmitting .ready
    ∧ Moves (moving (.drain 0 (.busError ⟨[true], []⟩)) (sys sending)) sending .transmitting .ready
    ∧ Moves (hosting (.store 0x00 4 0x80000000) (sys ready)) ready .ready .uninit
    ∧ Moves (moving (.seq 0 true) (sys waited)) waited .ready .uninit
    ∧ Moves (moving (.abort 0 ⟨0, 0⟩) (sys waited)) waited .ready .uninit
    ∧ Moves (moving (.abort 0 ⟨3, 0⟩) (sys (inFlight .fini .finiWait sending))) (inFlight .fini .finiWait sending)
      .transmitting .uninit :=
  ⟨⟨suggested_transport configured_consistent, rfl, rfl, _, _, rfl, rfl, rfl⟩,
    ⟨suggested_transport starting_consistent, rfl, rfl, _, _, rfl, rfl, rfl⟩,
    ⟨suggested_transport last_consistent, rfl, rfl, _, _, rfl, rfl, rfl⟩,
    ⟨suggested_transport sending_consistent, rfl, rfl, _, _, rfl, rfl, rfl⟩,
    ⟨suggested_transport idle_consistent, rfl, rfl, _, _, rfl, rfl, rfl⟩,
    ⟨suggested_transport waited_consistent, rfl, rfl, _, _, rfl, rfl, rfl⟩,
    ⟨suggested_transport waited_consistent, rfl, rfl, _, _, rfl, rfl, rfl⟩,
    ⟨suggested_transport waiting_consistent, rfl, rfl, _, _, rfl, rfl, rfl⟩⟩
/-- The unconfigured channel of a consistent transport: `PIXLEN 1`, and the word of `PIXRD 1, 0`. -/
theorem witness_unconfigured : (sys ready).Transport ∧ (sys ready).inst? (sys ready).sel = some (w0, ready)
    ∧ (1#2).toNat = Idx.i1.toNat ∧ (ready.ch.get .i1).valid = false
    ∧ (hosting (.store 0x80 4 0x11000000) (sys ready)).Transport ∧ StoreAt ready 0x80 0x80 0x11000000
    ∧ ((0x11000000#32).extractLsb' 26 2 = 0 ∧ ((0x11000000#32).extractLsb' 28 4).toNat = 1
      ∧ ((0x11000000#32).extractLsb' 24 2).toNat = Idx.i1.toNat) :=
  ⟨suggested_transport idle_consistent, rfl, rfl, rfl, suggested_transport idle_consistent, storeAt _ _ _ _ (by decide),
    by decide⟩

/-- A short reset gap, for runs with few sub-bits. -/
def quick : Params := { Params.suggested with resetUs := 1 }
/-- A transmission in flight, and a `RENDER` in its encode phase. -/
def rendering : Instance := inFlight .render (.enc .i0 0 (.both [])) sending
theorem rendering_consistent : rendering.Consistent quick where
  channels c := by
    cases c
    · exact ⟨pix_below, by decide⟩
    · exact reset_channel_ok _
  uninit h := by cases h
  configured _ := by decide
  transmitting _ := by decide
  ready h := by cases h
  pending h := by cases h
  flight q h := by
    cases h
    exact ⟨⟨rfl, .inl rfl, fun d hd => absurd hd (Nat.not_lt_zero _)⟩, .inl rfl, by decide⟩
theorem quick_reset_consistent : Instance.reset.Consistent quick where
  channels c := by cases c <;> exact reset_channel_ok _
  uninit _ := by decide
  configured h := absurd rfl h
  transmitting h := by cases h
  ready h := by cases h
  pending h := by cases h
  flight q h := by cases h
/-- Encode, build, two word-steps, the end of the wait, a refused start; then nothing is left to do. -/
def renderRun : Nat → State := follow { sys rendering with
  params := quick
  sched := [.seq 0 true, .seq 0 true, .drain 0 .good, .drain 0 .good, .seq 0 true, .seq 0 false] }
theorem renderRun_fair : IsRun renderRun ∧ FairRun renderRun := follow_isRun_fair (m := 6) (by decide +kernel) (by decide +kernel)
/-- A `FINI` that waits, and its abort. -/
def finiRun : Nat → State := follow { sys (inFlight .fini .finiWait sending) with sched := [.abort 0 ⟨3, 0⟩] }
theorem finiRun_fair : IsRun finiRun ∧ FairRun finiRun := follow_isRun_fair (m := 1) (by decide +kernel) (by decide +kernel)
/-- The phase of the command in flight at instance 0. -/
def phase0 (s : State) : Option Phase := (s.inst? 0).bind fun p => p.2.sq.map (·.phase)
/-- Fair runs with each phase of a command in flight, and with a transmission; a state where a run has ended. -/
theorem witness_ProgressAndTheEndOfARun :
    (IsRun renderRun ∧ FairRun renderRun ∧ (renderRun 0).Transport ∧ (renderRun 0).inst? 0 = some (w0, rendering)
      ∧ rendering.tstate = .transmitting ∧ phase0 (renderRun 0) = some (.enc .i0 0 (.both []))
      ∧ ((phase0 (renderRun 1)).map fun ph => match ph with | .build _ => true | _ => false) = some true
      ∧ phase0 (renderRun 2) = some .wait ∧ phase0 (renderRun 5) = some .start)
    ∧ (IsRun finiRun ∧ FairRun finiRun ∧ (finiRun 0).Transport ∧ phase0 (finiRun 0) = some .finiWait)
    ∧ ((sys ready).inst? 0 = some (w0, ready) ∧ (sys ready).ended 0 = true) :=
  ⟨⟨renderRun_fair.1, renderRun_fair.2, sys_transport (by decide) rendering_consistent quick_reset_consistent, rfl, rfl,
      by decide +kernel, by decide +kernel, by decide +kernel, by decide +kernel⟩,
    ⟨finiRun_fair.1, finiRun_fair.2, suggested_transport waiting_consistent, rfl⟩, rfl, by decide⟩
theorem witness_ConfigurationIsImmutable : (∃ t, step running = .next t ∧ t.insts[0]? = some (drainGood sending))
    ∧ running.insts[0]? = some sending ∧ sending.tstate ≠ .uninit ∧ (drainGood sending).tstate ≠ .uninit :=
  ⟨⟨_, rfl, rfl⟩, rfl, by decide, by decide⟩
/-- A step that leaves the buffers, and a start step, which swaps them. -/
theorem witness_DrainedBufferIsUntouched : (∃ t, step running = .next t ∧ t.insts[0]? = some (drainGood sending))
    ∧ (drainGood sending).tstate ≠ .uninit
    ∧ (∃ t, step (moving (.seq 0 true) (sys (inFlight .render .start ready))) = .next t
      ∧ t.insts[0]? = some (startPhase Params.suggested (inFlight .render .start ready) .render true))
    ∧ (startPhase Params.suggested (inFlight .render .start ready) .render true).front ≠ ready.front :=
  ⟨⟨_, rfl, rfl⟩, by decide, ⟨_, rfl, rfl⟩, by decide⟩
theorem witness_StepTouchesOneInstance : ∃ t, step running = .next t := running_steps

/-- A second instance ready on pin 13, and the claims of both. -/
def other : Instance := { ready with ch := ⟨.reset, { rgb with dma := 9 }⟩ }
def pair : State := { sys ready with
  insts := [ready, other]
  claims := claims0 ++ [⟨.pin 13, 1⟩, ⟨.pwm 1 .i0, 1⟩, ⟨.pwm 1 .i1, 1⟩, ⟨.dma 9, 1⟩] }
theorem witness_InitialisedInstancesShareNothing : pair.ClaimsOk ∧ pair.inst? 0 = some (w0, ready)
    ∧ pair.inst? 1 = some (⟨1, 1, 0x100⟩, other) ∧ ready.tstate ≠ .uninit ∧ other.tstate ≠ .uninit := by
  refine ⟨⟨by decide, rfl, by decide, fun x hx => ?_, fun k w n h hu i hi => ?_⟩, rfl, rfl, by decide, by decide⟩
  · have h : ∀ x ∈ pair.claims, (x.owner = w0.id ∧ x.id ∈ claimSet w0 ready)
        ∨ (x.owner = 1 ∧ x.id ∈ claimSet ⟨1, 1, 0x100⟩ other) := by decide
    rcases h x hx with h | h
    · exact ⟨0, w0, ready, rfl, h.1, by decide, h.2⟩
    · exact ⟨1, _, other, rfl, h.1, by decide, h.2⟩
  · have h0 : ∀ i ∈ claimSet w0 ready, (⟨i, w0.id⟩ : Claim) ∈ pair.claims := by decide
    have h1 : ∀ i ∈ claimSet ⟨1, 1, 0x100⟩ other, (⟨i, 1⟩ : Claim) ∈ pair.claims := by decide
    rcases k with _ | _ | k
    · cases h; exact h0 i hi
    · cases h; exact h1 i hi
    · cases h
/-- Instance 1 sends on pin 18; instance 0 is configured on it. -/
def contest : State := { sys configured with
  insts := [configured, ready], claims := [⟨.pin 18, 1⟩, ⟨.pwm 1 .i0, 1⟩, ⟨.pwm 1 .i1, 1⟩, ⟨.dma 10, 1⟩] }
theorem witness_SecondInitOnPinFails : contest.ClaimsOk ∧ contest.accepts w0 configured ∧ 1 ≠ contest.sel
    ∧ contest.inst? 1 = some (⟨1, 1, 0x100⟩, ready) ∧ ready.tstate ≠ .uninit ∧ configured.tstate = .uninit
    ∧ crossValid configured = true ∧ overlaps configured = false ∧ (ready.ch.get .i0).valid = true
    ∧ (configured.ch.get .i0).valid = true ∧ (ready.ch.get .i0).gpio = (configured.ch.get .i0).gpio := by
  refine ⟨⟨by decide, rfl, by decide, fun x hx => ?_, fun k w n h hu i hi => ?_⟩, ⟨rfl, rfl⟩, by decide, rfl, by decide⟩
  · have h : ∀ x ∈ contest.claims, x.owner = 1 ∧ x.id ∈ claimSet ⟨1, 1, 0x100⟩ ready := by decide
    exact ⟨1, _, ready, rfl, (h x hx).1, by decide, (h x hx).2⟩
  · have h1 : ∀ i ∈ claimSet ⟨1, 1, 0x100⟩ ready, (⟨i, 1⟩ : Claim) ∈ contest.claims := by decide
    rcases k with _ | _ | k
    · cases h; exact absurd rfl hu
    · cases h; exact h1 i hi
    · cases h
theorem witness_PackUnpack : (255 : Nat) < 256 ∧ (0 : Nat) < 256 := by decide
/-- The first descriptor that is not legal: 0. -/
theorem witness_LegalStripDescriptors : (let n : Instance := { Instance.reset with args := { argsC1 with a5 := 0 } };
      (sys n).accepts w0 n ∧ n.tstate = .uninit ∧ n.args.a5 = 0) ∧ (1#2).toNat < 2
    ∧ ¬ [(0#32).extractLsb' 0 2, (0#32).extractLsb' 2 2, (0#32).extractLsb' 4 2].Perm [0, 1, 2] :=
  ⟨⟨⟨rfl, rfl⟩, rfl, rfl⟩, by decide, by decide⟩
/-- A table one entry short, and one with an entry of 256; a range one past the length. -/
theorem witness_PseudoInstructionsCheckFirst :
    (let op := HostOp.setGamma 0 0 (List.replicate 255 0);
      (hosting op (sys ready)).sched = Move.host 0 :: [] ∧ (hosting op (sys ready)).hosts[0]? = some (thread op)
        ∧ (List.replicate 255 0).length ≠ 256)
    ∧ (∃ v ∈ List.replicate 256 256, 255 < v)
    ∧ (let op := HostOp.rangeGuard 0 0 0 [1, 2];
      let s := { hosting op (sys ready) with hosts := [{ thread op with rdata := 1 }] };
      s.hosts[0]? = some { thread op with rdata := 1 } ∧ (1#32).toNat < 0 + ([1, 2] : List Word).length)
    ∧ ((List.replicate 256 255).length = 256 ∧ ∀ g ∈ List.replicate 256 255, g ≤ 255)
    ∧ 0 + ([1] : List Word).length ≤ (1#32).toNat
    ∧ (let op := HostOp.setRange 0 0 0 [1, 2];
      let s := { hosting op (sys ready) with sched := List.replicate 4 (Move.host 0) ++ [] };
      s.hosts[0]? = some (thread op) ∧ locate s.params (0 + 0x80) = some (0, 0x80) ∧ locate s.params (0 + 0x8C) = some (0, 0x8C)
        ∧ s.inst? 0 = some (w0, ready) ∧ (0#2).toNat = Idx.i0.toNat
        ∧ (ready.ch.get .i0).count.toNat < 0 + ([1, 2] : List Word).length)
    ∧ (let s := hosting (.waitIdle 0) (sys (inFlight .render .wait sending));
      s.hosts[0]? = some (thread (.waitIdle 0)) ∧ locate s.params (0 + 0x04) = some (0, 0x04)
        ∧ s.inst? 0 = some (w0, inFlight .render .wait sending)) :=
  ⟨⟨rfl, rfl, by rw [List.length_replicate]; decide⟩, ⟨256, List.mem_replicate.mpr ⟨by decide, rfl⟩, by decide⟩,
    ⟨rfl, by decide⟩, ⟨List.length_replicate, fun g hg => Nat.le_of_eq (List.mem_replicate.mp hg).2⟩, by decide,
    ⟨rfl, by decide, by decide, rfl, rfl, by decide⟩, rfl, by decide, rfl⟩
/-- R141: a `setRange` that does not fit asks for the length and writes nothing; `wait_idle` repeats while busy. -/
theorem test_setRange : (match Sys2Proof.core.run 4
      { hosting (.setRange 0 0 0 [1, 2]) (sys ready) with sched := List.replicate 4 (.host 0) } with
    | .next t => (t.hosts.map (fun h => (h.prog, h.pres)), t.insts.map (fun n => n.pix.get .i0))
    | _ => ([], [])) = ([([], .indexOutOfRange)], [[(0, 0x00FF0000)], []])
    ∧ (after (step (hosting (.waitIdle 0) (sys (inFlight .render .wait sending))))).map (fun s => s.hosts.map (·.prog))
      = some [[.waitIdle 0]] := ⟨rfl, rfl⟩

end Sys2Proof.Tests
end

section
/-! SUPPORT. The fields of `STATUS` (10_state.md R34) and of the channel mirrors (R42), read back from the words the
model packs them into. -/

namespace Sys2Proof.Machine

/-! ### The fields of `STATUS` -/

theorem Instance.status_state (n : Instance) : n.status.extractLsb' 0 2 = BitVec.ofNat 2 n.tstate.num :=
  BitVec.extractLsb'_append_eq_right

theorem Instance.status_busy (n : Instance) : n.status.getLsbD 2 = n.sq.isSome := by
  simp only [Instance.status, BitVec.getLsbD_append, bit, Instance.busy]
  simp

theorem Instance.status_errpend (n : Instance) : n.status.getLsbD 3 = n.errpend := by
  simp only [Instance.status, BitVec.getLsbD_append, bit]
  simp

/-- Above `STATE`, `BUSY` and `ERRPEND`, which are bits 3:0, `STATUS` is the code between two blocks of zeros. -/
theorem Instance.status_above_flags (n : Instance) (start len : Nat) :
    n.status.extractLsb' (start + 4) len
      = (0#20 ++ BitVec.ofNat 4 n.resultCode.num ++ 0#4).extractLsb' start len := by
  unfold Instance.status
  rw [BitVec.extractLsb'_append_eq_of_le (by omega), BitVec.extractLsb'_append_eq_of_le (by omega),
    BitVec.extractLsb'_append_eq_of_le (by omega)]
  rfl

theorem Instance.status_reserved_low (n : Instance) : n.status.extractLsb' 4 4 = 0 :=
  (n.status_above_flags 0 4).trans BitVec.extractLsb'_append_eq_right

theorem Instance.status_resultCode (n : Instance) :
    n.status.extractLsb' 8 4 = BitVec.ofNat 4 n.resultCode.num := by
  rw [n.status_above_flags 4 4, BitVec.extractLsb'_append_eq_of_le (by decide)]
  exact BitVec.extractLsb'_append_eq_right

theorem Instance.status_reserved_high (n : Instance) : n.status.extractLsb' 12 20 = 0 := by
  rw [n.status_above_flags 8 20, BitVec.extractLsb'_append_eq_of_le (by decide)]
  exact BitVec.extractLsb'_append_eq_left

/-! ### The fields of the mirrors -/

theorem Channel.mirror_flags_invert (r : Channel) : (r.mirror .flags).getLsbD 0 = r.invert := by
  simp only [Channel.mirror, BitVec.getLsbD_append, bit]
  simp

theorem Channel.mirror_flags_reserved (r : Channel) : (r.mirror .flags).extractLsb' 1 30 = 0 := by
  unfold Channel.mirror
  rw [BitVec.extractLsb'_append_eq_of_le (by decide)]
  exact BitVec.extractLsb'_append_eq_right

theorem Channel.mirror_flags_valid (r : Channel) : (r.mirror .flags).getLsbD 31 = r.valid := by
  simp only [Channel.mirror, BitVec.getLsbD_append, bit]
  simp

theorem Channel.mirror_bright_toNat (r : Channel) : (r.mirror .bright).toNat = r.bright.toNat :=
  BitVec.toNat_setWidth_of_le (by decide)

theorem Channel.mirror_strip_toNat (r : Channel) : (r.mirror .strip).toNat = r.strip.toNat :=
  BitVec.toNat_setWidth_of_le (by decide)

theorem Channel.mirror_count_toNat (r : Channel) : (r.mirror .count).toNat = r.count.toNat :=
  BitVec.toNat_setWidth_of_le (by decide)

theorem Channel.mirror_slot_toNat (r : Channel) : (r.mirror .slot).toNat = r.slot.toNat := by
  unfold Channel.mirror
  cases r.slot <;> rfl

theorem Channel.mirror_reset (m : Mirror) :
    Channel.reset.mirror m = (match m with | .bright => 255 | .strip => 0x009 | _ => 0) := by
  cases m <;> rfl

/-! ### The obligations -/

/-- Settles O12, field by field; the code and state numbers are R400's and R34's. -/
theorem statusWordFields : Obligations.StatusWordFields := by
  refine ⟨fun n => ⟨?state, n.status_busy, n.status_errpend, n.status_reserved_low, ?code, n.status_reserved_high,
    fun _ => rfl⟩, rfl⟩
  case state =>
    refine n.status_state.trans ?_
    cases n.tstate <;> rfl
  case code =>
    refine n.status_resultCode.trans ?_
    cases n.resultCode <;> rfl

/-- Settles O13, field by field; the reset values are those of `Channel.reset`, which both channels hold at reset. -/
theorem channelMirrors : Obligations.ChannelMirrors := by
  refine ⟨fun n c => ?fields, fun c m => ?reset⟩
  case fields =>
    exact ⟨rfl, rfl, rfl, Channel.mirror_flags_invert _, Channel.mirror_flags_reserved _, Channel.mirror_flags_valid _,
      Channel.mirror_bright_toNat _, Channel.mirror_strip_toNat _, Channel.mirror_count_toNat _,
      Channel.mirror_slot_toNat _, fun _ _ => rfl⟩
  case reset =>
    have hch : Instance.reset.ch.get c = .reset := Pair.get_both _ c
    calc Instance.reset.readReg (.mirror c m) = (Instance.reset.ch.get c).mirror m := rfl
      _ = Channel.reset.mirror m := by rw [hch]
      _ = _ := Channel.mirror_reset m

end Sys2Proof.Machine
end

section
/-! SUPPORT. The bytes of a word in byte-addressed memory (20_memory.md R90, R91), and the host's accesses to the register
map (R86, R88). -/

namespace Sys2Proof.Machine

/-! ### The bytes of a word -/

theorem pack_eq_wordOf (r g b w : Nat) :
    pack r g b w = wordOf (BitVec.ofNat 8 b) (BitVec.ofNat 8 g) (BitVec.ofNat 8 r) (BitVec.ofNat 8 w) := rfl

section
variable (b0 b1 b2 b3 : Byte)

@[simp] theorem byteOf_wordOf_zero : byteOf (wordOf b0 b1 b2 b3) 0 = b0 :=
  BitVec.extractLsb'_append_eq_right

@[simp] theorem byteOf_wordOf_one : byteOf (wordOf b0 b1 b2 b3) 1 = b1 := by
  unfold byteOf wordOf
  rw [BitVec.extractLsb'_append_eq_of_le (by decide)]
  exact BitVec.extractLsb'_append_eq_right

@[simp] theorem byteOf_wordOf_two : byteOf (wordOf b0 b1 b2 b3) 2 = b2 := by
  unfold byteOf wordOf
  rw [BitVec.extractLsb'_append_eq_of_le (by decide), BitVec.extractLsb'_append_eq_of_le (by decide)]
  exact BitVec.extractLsb'_append_eq_right

@[simp] theorem byteOf_wordOf_three : byteOf (wordOf b0 b1 b2 b3) 3 = b3 := by
  unfold byteOf wordOf
  rw [BitVec.extractLsb'_append_eq_of_le (by decide), BitVec.extractLsb'_append_eq_of_le (by decide)]
  exact BitVec.extractLsb'_append_eq_left

end

/-- Each byte adjoins the one below it, so joining them from the top gives ever wider fields of the word, the last of
them all 32 bits. -/
theorem wordOf_byteOf (v : Word) : wordOf (byteOf v 0) (byteOf v 1) (byteOf v 2) (byteOf v 3) = v := by
  have htop : byteOf v 3 ++ byteOf v 2 = v.extractLsb' 16 16 := BitVec.extractLsb'_append_extractLsb'_eq_extractLsb' rfl
  have hmid : v.extractLsb' 16 16 ++ byteOf v 1 = v.extractLsb' 8 24 :=
    BitVec.extractLsb'_append_extractLsb'_eq_extractLsb' rfl
  have hlow : v.extractLsb' 8 24 ++ byteOf v 0 = v.extractLsb' 0 32 :=
    BitVec.extractLsb'_append_extractLsb'_eq_extractLsb' rfl
  rw [wordOf, htop, hmid, hlow]
  exact BitVec.extractLsb'_eq_self

/-! ### The register map and the argument registers -/

/-- Every row of the map is the one found at its offset: no offset stands in it twice. -/
theorem regAt_of_mem {off : Nat} {r : Reg} (h : (off, r) ∈ regMap) : regAt off = some r := by
  have hrows : ∀ x ∈ regMap, regAt x.1 = some x.2 := by decide
  exact hrows _ h

theorem regAt_eq_some_iff {off : Nat} {r : Reg} : regAt off = some r ↔ (off, r) ∈ regMap := ⟨regAt_mem, regAt_of_mem⟩

@[simp] theorem Args.get_set (a : Args) (i : ArgNo) (v : Word) : (a.set i v).get i = v := by cases i <;> rfl

theorem Args.get_set_ne (a : Args) {i j : ArgNo} (v : Word) (h : j ≠ i) : (a.set i v).get j = a.get j := by
  cases i <;> cases j <;> simp [Args.set, Args.get] at h ⊢

/-! ### The fields of `XERR` and `PSTATUS` -/

theorem Xerr.word_startFail (x : Xerr) : x.word.getLsbD 0 = x.startFail := by
  simp only [Xerr.word, BitVec.getLsbD_append, bit]
  simp

theorem Xerr.word_busError (x : Xerr) : x.word.getLsbD 1 = x.busError := by
  simp only [Xerr.word, BitVec.getLsbD_append, bit]
  simp

theorem Xerr.word_fifoUnderrun (x : Xerr) : x.word.getLsbD 2 = x.fifoUnderrun := by
  simp only [Xerr.word, BitVec.getLsbD_append, bit]
  simp

theorem Xerr.word_reserved (x : Xerr) : x.word.extractLsb' 3 29 = 0 := by
  unfold Xerr.word
  rw [BitVec.extractLsb'_append_eq_of_le (by decide), BitVec.extractLsb'_append_eq_of_le (by decide)]
  exact BitVec.extractLsb'_append_eq_left

theorem Instance.pstatus_code (n : Instance) : n.pstatus.extractLsb' 0 4 = BitVec.ofNat 4 n.presultCode.num :=
  BitVec.extractLsb'_append_eq_right

theorem Instance.pstatus_reserved (n : Instance) : n.pstatus.extractLsb' 4 28 = 0 :=
  BitVec.extractLsb'_append_eq_left

/-! ### A store to a register and a load from it -/

section
variable {s : State} {h k : Nat} {t : HostThread} {v : Word} {w : Wiring} {n : Instance} {r : Reg}

theorem storeReg_cmd_idle (hn : s.inst? k = some (w, n)) (hq : n.sq = none) :
    storeReg h t k .cmd v s = issueWord .main v { s.setHost h t with sel := k } := by
  simp [storeReg, hn, busy_false.mpr hq]

theorem storeReg_pcmd (hn : s.inst? k = some (w, n)) :
    storeReg h t k .pcmd v s = issueWord .pixel v { s.setHost h t with sel := k } := by
  simp [storeReg, hn]

/-- A store to a register that is no command port issues nothing. -/
theorem storeReg_of_not_port (hn : s.inst? k = some (w, n)) (hcmd : r ≠ .cmd) (hpcmd : r ≠ .pcmd) :
    storeReg h t k r v s = .next ((s.setHost h t).setInst k (n.writeReg r v)) := by
  simp [storeReg, hn]

/-- A store to a register that ignores writes uses up the thread's operation and changes nothing else. -/
theorem storeReg_ignored (hn : s.inst? k = some (w, n)) (hcmd : r ≠ .cmd) (hpcmd : r ≠ .pcmd)
    (hr : n.writeReg r v = n) : storeReg h t k r v s = .next (s.setHost h t) := by
  rw [storeReg_of_not_port hn hcmd hpcmd, hr, State.setInst, State.setHost_insts, State.set_found hn]
  rfl

theorem loadReg_found {f : Word → HostThread} (hn : s.inst? k = some (w, n)) :
    loadReg h k r f s = .next (s.setHost h (f (n.readReg r))) := by
  simp [loadReg, hn]

end

/-! ### A thread's step at a register -/

section
variable {s : State} {ms : List Move} {h : Nat} {th : HostThread} {addr off : Nat} {v : Word} {rest : List HostOp} {k : Nat}
  {r : Reg}

theorem step_store (hs : s.sched = .host h :: ms) (hh : s.hosts[h]? = some th) (hl : locate s.params addr = some (k, off))
    (hr : regAt off = some r) (hp : th.prog = .store addr 4 v :: rest) :
    step s = storeReg h { th with prog := rest } k r v { s with sched := ms } := by
  rw [step_host hs hh hp]
  simp [hostOp, accessReg_ok hl hr]

theorem step_load (hs : s.sched = .host h :: ms) (hh : s.hosts[h]? = some th) (hl : locate s.params addr = some (k, off))
    (hr : regAt off = some r) (hp : th.prog = .load addr 4 :: rest) :
    step s = loadReg h k r (fun x => { th with prog := rest, rdata := x }) { s with sched := ms } := by
  rw [step_host hs hh hp]
  simp [hostOp, accessReg_ok hl hr]

end

/-! ### The obligations -/

/-- Settles O59: a packed pixel is the word of its components laid out blue, green, red, white. -/
theorem pixelWordInMemory : Obligations.PixelWordInMemory := by
  intro r g b w v
  rw [pack_eq_wordOf]
  exact ⟨byteOf_wordOf_zero .., byteOf_wordOf_one .., byteOf_wordOf_two .., byteOf_wordOf_three .., wordOf_byteOf v⟩

/-- Settles O10: an access reaches the register at its offset (`step_load`, `step_store`), and the cases of a store are
those of the register it reaches. -/
theorem registerAccesses : Obligations.RegisterAccesses := by
  refine ⟨fun s ms h th addr off v rest k w n r hs hh hl hr hn => ⟨?load, ?writeOnly, ?store⟩, fun n => ?reads,
    fun _ _ => regAt_eq_some_iff⟩
  case load =>
    intro hp
    exact (step_load hs hh hl hr hp).trans (loadReg_found hn)
  case writeOnly => rintro (rfl | rfl) <;> rfl
  case store =>
    intro hp
    have hstep := step_store hs hh hl hr hp
    cases r with
    | arg i =>
      exact ⟨n.args.set i v, hstep.trans (storeReg_of_not_port hn nofun nofun), Args.get_set .., fun j hj =>
        Args.get_set_ne _ v hj⟩
    | pdata => exact hstep.trans (storeReg_of_not_port hn nofun nofun)
    | cmd => exact fun hq => hstep.trans (storeReg_cmd_idle hn hq)
    | pcmd => exact hstep.trans (storeReg_pcmd hn)
    | status | result | seq | xerr | mirror | pstatus | presult =>
      exact hstep.trans (storeReg_ignored hn nofun nofun rfl)
  case reads =>
    refine ⟨rfl, rfl, rfl, rfl, rfl, rfl, rfl, rfl, rfl, rfl, rfl, n.xerr.word_startFail, n.xerr.word_busError,
      n.xerr.word_fifoUnderrun, n.xerr.word_reserved, n.pstatus_code.trans ?code, n.pstatus_reserved⟩
    case code => cases n.presultCode <;> rfl

end Sys2Proof.Machine
end

section
/-! SUPPORT. The legal strip descriptors (30_encoding.md R131): `coversBelow` as a permutation, the fields of the word
against those of its 9-bit descriptor, and a `CFG` whose arguments fail `validate`. -/

namespace Sys2Proof.Machine

/-! ### Permutations -/

/-- Among `n` numbers, those below `n` each occur exactly when the list is a permutation of them. -/
theorem coversBelow_iff_perm_range {n : Nat} {l : List Nat} (hl : l.length = n) :
    coversBelow n l = true ↔ l.Perm (List.range n) := by
  have hsub : coversBelow n l = true ↔ List.range n ⊆ l := by simp [coversBelow, List.subset_def]
  rw [hsub]
  constructor
  case mp =>
    intro h
    have hle : l.length ≤ (List.range n).length := by simp [hl]
    exact ((List.nodup_range.subperm h).perm_of_length_le hle).symm
  case mpr => exact fun h => h.symm.subset

/-- The same for a list of fields, against fields `r` that are the numbers below `n` in order. -/
theorem coversBelow_map_toNat_iff {n k : Nat} {l r : List (BitVec k)} (hl : l.length = n)
    (hr : r.map BitVec.toNat = List.range n) : coversBelow n (l.map BitVec.toNat) = true ↔ l.Perm r := by
  rw [coversBelow_iff_perm_range (by simpa using hl), ← hr]
  exact List.map_perm_map_iff (fun _ _ => BitVec.eq_of_toNat_eq)

/-! ### The descriptor -/

theorem stripLegal_iff (d : BitVec 9) : stripLegal d = true ↔
    (d.getLsbD 8 = false ∧ [d.extractLsb' 0 2, d.extractLsb' 2 2, d.extractLsb' 4 2].Perm [0, 1, 2]
      ∧ d.extractLsb' 6 2 = 0)
    ∨ (d.getLsbD 8 = true
      ∧ [d.extractLsb' 0 2, d.extractLsb' 2 2, d.extractLsb' 4 2, d.extractLsb' 6 2].Perm [0, 1, 2, 3]) := by
  have hthree := coversBelow_map_toNat_iff (l := [d.extractLsb' 0 2, d.extractLsb' 2 2, d.extractLsb' 4 2])
    (r := [0, 1, 2]) rfl rfl
  have hfour := coversBelow_map_toNat_iff
    (l := [d.extractLsb' 0 2, d.extractLsb' 2 2, d.extractLsb' 4 2, d.extractLsb' 6 2]) (r := [0, 1, 2, 3]) rfl rfl
  have hlast : d.extractLsb' 6 2 = 0 ↔ (d.extractLsb' 6 2).toNat = 0 := BitVec.toNat_inj.symm
  rw [← hthree, ← hfour, hlast]
  simp only [stripLegal, stripFour, stripSel_eq, List.map_cons, List.map_nil]
  cases d.getLsbD 8 <;> simp

/-- A word below 512 has bits 31:9 zero. -/
theorem lt_512_iff_upper_zero {v : Word} : v.toNat < 512 ↔ v.extractLsb' 9 23 = 0 := by
  have hfield : (v.extractLsb' 9 23).toNat = v.toNat / 512 % 2 ^ 23 := by
    rw [BitVec.extractLsb'_toNat, Nat.shiftRight_eq_div_pow]
  rw [← BitVec.toNat_inj, hfield, BitVec.ofNat_eq_ofNat, BitVec.toNat_zero]
  omega

/-- R131 on the word: the fields of the descriptor in bits 8:0 are those of the word. -/
theorem stripWordLegal_iff (v : Word) : stripWordLegal v = true ↔ v.extractLsb' 9 23 = 0
    ∧ ((v.getLsbD 8 = false ∧ [v.extractLsb' 0 2, v.extractLsb' 2 2, v.extractLsb' 4 2].Perm [0, 1, 2]
        ∧ v.extractLsb' 6 2 = 0)
      ∨ (v.getLsbD 8 = true
        ∧ [v.extractLsb' 0 2, v.extractLsb' 2 2, v.extractLsb' 4 2, v.extractLsb' 6 2].Perm [0, 1, 2, 3])) := by
  have hfour : (v.extractLsb' 0 9).getLsbD 8 = v.getLsbD 8 := by simp
  have hsel (k : Nat) (hk : k + 2 ≤ 9) : (v.extractLsb' 0 9).extractLsb' k 2 = v.extractLsb' k 2 :=
    BitVec.extractLsb'_extractLsb'_of_le hk
  rw [stripWordLegal, Bool.and_eq_true, decide_eq_true_eq, lt_512_iff_upper_zero, stripLegal_iff, hfour,
    hsel 0 (by decide), hsel 2 (by decide), hsel 4 (by decide), hsel 6 (by decide)]

/-! ### A `CFG` that `validate` rejects -/

theorem channelOf_isSome {ch : BitVec 2} : ch.toNat < 2 → (channelOf ch).isSome = true := by revert ch; decide

theorem cfgInst_of_invalid {p : Params} {ch : BitVec 2} {n : Instance} (hch : ch.toNat < 2) (hu : n.tstate = .uninit)
    (hv : validate p n.args ≠ none) : cfgInst p ch n = n.raise .invalidConfiguration := by
  obtain ⟨c, hc⟩ := Option.isSome_iff_exists.mp (channelOf_isSome hch)
  obtain ⟨check, hcheck⟩ := Option.ne_none_iff_exists'.mp hv
  simp [cfgInst, onChannel, hc, hu, hcheck]

/-- 40_config.md R151: the code of the addressed instance is all that changes. -/
theorem exec_cfg_of_invalid {s : State} {w : Wiring} {n : Instance} {ch : BitVec 2} (ha : s.accepts w n)
    (hch : ch.toNat < 2) (hu : n.tstate = .uninit) (hv : validate s.params n.args ≠ none) :
    exec (.cfg ch) s
      = .next { s with insts := s.insts.set s.sel { n with resultCode := .invalidConfiguration } } := by
  obtain ⟨hn, hq⟩ := ha
  calc exec (.cfg ch) s = .next (s.setInst s.sel (cfgInst s.params ch n)) := issueLocal_idle hn hq
    _ = .next (s.setInst s.sel { n with resultCode := .invalidConfiguration }) := by
      rw [cfgInst_of_invalid hch hu hv, Instance.raise_eq, Instance.finish_of_idle hq]
    _ = _ := rfl

theorem validate_ne_none_of_strip {p : Params} {a : Args} (h : ¬ stripWordLegal a.a5 = true) :
    validate p a ≠ none := by
  intro hv
  obtain ⟨-, -, -, -, -, -, hlt, hlegal, -⟩ := validate_eq_none.mp hv
  exact h (by simp [stripWordLegal, hlt, hlegal])

/-! ### The obligation -/

/-- Settles O58: the word-level check is R131's (`stripWordLegal_iff`), and it is one of those `validate` makes. -/
theorem legalStripDescriptors : Obligations.LegalStripDescriptors := by
  refine fun v => ⟨stripWordLegal_iff v, ?refused⟩
  case refused =>
    rintro s w n ch ha hch hu rfl hlegal
    exact exec_cfg_of_invalid ha hch hu (validate_ne_none_of_strip (mt (stripWordLegal_iff _).mp hlegal))

end Sys2Proof.Machine
end

section
/-! SUPPORT. `CFG` and `GAMMAWR` at an instance that accepts them (40_config.md): what `validate` passes and rejects
(R151), the record and the pixels a valid `CFG` leaves (R150, R153), and the bytes of a `GAMMAWR` word (R160). -/

namespace Sys2Proof.Machine

theorem onChannel_of_eq {ch : BitVec 2} {c : Idx} {n : Instance} {f : Idx → Instance} (hc : ch.toNat = c.toNat) :
    onChannel ch n f = f c := by
  rw [onChannel, channelOf_some hc]

/-! ### A `CFG` that `validate` passes -/

/-- The fields `CFG` cuts out of its arguments are the arguments at the width of the record's fields. -/
theorem cfgRecord_of_pinSlot {p : Params} {a : Args} {t : Idx} (ht : pinSlot p a.a0.toNat = some t) :
    cfgRecord p a =
      { valid := true, gpio := a.a0, freq := a.a1, dma := a.a2, invert := a.a3.getLsbD 0,
        bright := a.a4.setWidth 8, strip := a.a5.setWidth 9, count := a.a6.setWidth 24, slot := t } := by
  simp only [cfgRecord, ht, Option.getD_some, setW]

theorem cfgInst_of_valid {p : Params} {ch : BitVec 2} {c : Idx} {n : Instance} (hq : n.sq = none)
    (hc : ch.toNat = c.toNat) (hu : n.tstate = .uninit) (hv : validate p n.args = none) :
    cfgInst p ch n = { n with
      ch := n.ch.set c (cfgRecord p n.args), pix := n.pix.set c [], resultCode := .ok } := by
  rw [cfgInst, onChannel_of_eq hc, if_neg (not_not.mpr hu)]
  simp only [hv]
  rw [Instance.finish_of_idle]
  exact hq

/-- 40_config.md R150, R153: the record, the pixels of the channel and the code are all that changes. -/
theorem exec_cfg_of_valid {s : State} {w : Wiring} {n : Instance} {ch : BitVec 2} {c : Idx} (ha : s.accepts w n)
    (hc : ch.toNat = c.toNat) (hu : n.tstate = .uninit) (hv : validate s.params n.args = none) :
    exec (.cfg ch) s = .next { s with insts := s.insts.set s.sel { n with
      ch := n.ch.set c (cfgRecord s.params n.args), pix := n.pix.set c [], resultCode := .ok } } := by
  obtain ⟨hn, hq⟩ := ha
  calc exec (.cfg ch) s = .next (s.setInst s.sel (cfgInst s.params ch n)) := issueLocal_idle hn hq
    _ = _ := by rw [cfgInst_of_valid hq hc hu hv]; rfl

/-! ### The word of a `GAMMAWR` and its step -/

/-- A word of format `C` whose immediate is three bytes is its fields one after the other. -/
theorem formatC_bytes (op : BitVec 4) (ch : BitVec 2) (x j v : BitVec 8) :
    formatC op ch (x ++ j ++ v) = op ++ 0#2 ++ ch ++ x ++ j ++ v := by
  apply BitVec.eq_of_toNat_eq
  simp only [formatC, BitVec.toNat_append, Nat.shiftLeft_or_distrib, ← Nat.shiftLeft_add, Nat.or_assoc]

/-- 40_config.md R160: the must-be-zero part of `GAMMAWR` is the top byte of its immediate. -/
theorem decode_gammawr_of_ne_zero (ch : BitVec 2) {x : BitVec 8} (j v : BitVec 8) (hx : x ≠ 0) :
    decode .main (formatC 0x4 ch (x ++ j ++ v)) = .error .notZero := by
  have htop : (x ++ j ++ v).extractLsb' 16 8 = x := by
    rw [BitVec.append_assoc]
    exact BitVec.extractLsb'_append_eq_left
  calc decode .main (formatC 0x4 ch (x ++ j ++ v)) = decodeMain 0x4 ch (x ++ j ++ v) := by
        rw [decode, rsvField_formatC, opField_formatC, chField_formatC, immField_formatC, if_pos rfl]
    _ = whenZero ((x ++ j ++ v).extractLsb' 16 8 == 0) _ := rfl
    _ = .error .notZero := by rw [htop, beq_false_of_ne hx]; rfl

theorem gammawrInst_of_idle {ch : BitVec 2} {c : Idx} {n : Instance} (j v : BitVec 8) (hq : n.sq = none)
    (hc : ch.toNat = c.toNat) :
    gammawrInst ch j v n = { n with
      gam := n.gam.set c (Memory.write identityTable (n.gam.get c) j.toNat v), resultCode := .ok } := by
  rw [gammawrInst, onChannel_of_eq hc, Instance.finish_of_idle]
  exact hq

/-- 40_config.md R160: the one table entry and the code are all that changes, in every transport state. -/
theorem exec_gammawr {s : State} {w : Wiring} {n : Instance} {ch : BitVec 2} {c : Idx} (j v : BitVec 8)
    (ha : s.accepts w n) (hc : ch.toNat = c.toNat) :
    exec (.gammawr ch j v) s = .next { s with insts := s.insts.set s.sel { n with
      gam := n.gam.set c (Memory.write identityTable (n.gam.get c) j.toNat v), resultCode := .ok } } := by
  obtain ⟨hn, hq⟩ := ha
  calc exec (.gammawr ch j v) s = .next (s.setInst s.sel (gammawrInst ch j v n)) := issueLocal_idle hn hq
    _ = _ := by rw [gammawrInst_of_idle j v hq hc]; rfl

/-! ### The obligations -/

/-- Settles O14: the hypotheses are the seven checks, so `validate` passes; the memory that reads 0 everywhere is the
empty one. -/
theorem cfgStoresRecord : Obligations.CfgStoresRecord := by
  intro s w n ch c t ha hc hu hpin hfreq hdma hreserved hflags hbright hstrip hlegal hcount
  have hv : validate s.params n.args = none := validate_eq_none.mpr
    ⟨⟨t, hpin⟩, hfreq, hdma, hreserved, flags_zero.mpr hflags, hbright, hstrip, by rwa [setW], hcount⟩
  refine ⟨[], ?step, Memory.read_nil zeroFill⟩
  case step => rw [exec_cfg_of_valid ha hc hu hv, cfgRecord_of_pinSlot hpin]

/-- Settles O15: a `validate` that passes has made each of the seven checks, and each failure contradicts one of them. -/
theorem cfgRejectsInvalid : Obligations.CfgRejectsInvalid := by
  intro s w n ch ha hch hu hfail
  refine exec_cfg_of_invalid ha hch hu fun hv => ?_
  obtain ⟨⟨t, hpin⟩, hfreq, hdma, hreserved, hflags, hbright, hstrip, hlegal, hcount⟩ := validate_eq_none.mp hv
  rw [setW] at hlegal
  rcases hfail with hfail | hfail | hfail | hfail | hfail | hfail | hfail | hfail | hfail
  · simp [hpin] at hfail
  · exact hfail hfreq
  · exact absurd hdma (Nat.not_le.mpr hfail)
  · exact hreserved hfail
  · exact hfail hflags
  · exact absurd hbright (Nat.not_le.mpr hfail)
  · exact absurd hstrip (Nat.not_lt.mpr hfail)
  · simp [hlegal] at hfail
  · exact absurd hcount (Nat.not_le.mpr hfail)

/-- Settles O18: the word by `formatC_bytes`, the frame of the table by `Memory.read_write`. -/
theorem gammawrCommand : Obligations.GammawrCommand := by
  intro s w n ch c j v ha hc hwf
  refine ⟨rfl, formatC_bytes 0x4 ch 0 j v, fun x hx => ?refused, _, exec_gammawr j v ha hc, fun a =>
    Memory.read_write identityTable hwf j.toNat a v⟩
  case refused =>
    rw [← formatC_bytes]
    exact decode_gammawr_of_ne_zero ch j v hx

end Sys2Proof.Machine
end

section
/-! SUPPORT. The pixel port (41_pixel.md): the word of a packed pixel (R186, R187), `PIXRD` and `PIXWR` at the instance
they address (R180, R181), and the words stored to `PCMD` that end with an error (R183). -/

namespace Sys2Proof.Machine

/-! ### The packed pixel -/

/-- Joining words is adding them, the upper one moved up by the width of the lower. -/
theorem toNat_append_eq_add {a b : Nat} (x : BitVec a) (y : BitVec b) :
    (x ++ y).toNat = x.toNat * 2 ^ b + y.toNat := by
  rw [BitVec.toNat_append, ← Nat.shiftLeft_add_eq_or_of_lt y.isLt, Nat.shiftLeft_eq]

theorem pack_toNat (r g b w : Nat) :
    (pack r g b w).toNat = (w % 256) * 2 ^ 24 + (r % 256) * 2 ^ 16 + (g % 256) * 2 ^ 8 + b % 256 := by
  simp only [pack, toNat_append_eq_add, BitVec.toNat_ofNat]
  omega

/-- R187: the components of a pixel word are its bytes. -/
theorem unpack_eq_bytes (p : Word) : unpack p = (byteOf p 2, byteOf p 1, byteOf p 0, byteOf p 3) := rfl

theorem unpack_pack (r g b w : Nat) :
    unpack (pack r g b w) = (BitVec.ofNat 8 r, BitVec.ofNat 8 g, BitVec.ofNat 8 b, BitVec.ofNat 8 w) := by
  rw [unpack_eq_bytes, pack_eq_wordOf, byteOf_wordOf_zero, byteOf_wordOf_one, byteOf_wordOf_two, byteOf_wordOf_three]

/-! ### The checks of a pixel-port operation -/

section
variable {n : Instance} {ch : BitVec 2} {c : Idx} {i : BitVec 24}

theorem Instance.finishPixel_eq (n : Instance) (e : Code) : n.finishPixel e = { n with presultCode := e } := rfl

theorem onPixelChannel_of_eq {f : Idx → Instance} (hc : ch.toNat = c.toNat) : onPixelChannel ch n f = f c := by
  rw [onPixelChannel, channelOf_some hc]

theorem onPixelChannel_of_not_ok {f : Idx → Instance} (hch : chOk ch = false) :
    onPixelChannel ch n f = n.finishPixel .illegalCommand := by
  rw [onPixelChannel, channelOf_of_not_ok hch]

theorem onPixel_of_lt {f : Instance} (hi : i.toNat < (n.ch.get c).count.toNat) : onPixel n c i f = f :=
  if_neg (Nat.not_le.mpr hi)

theorem onPixel_of_le {f : Instance} (hi : (n.ch.get c).count.toNat ≤ i.toNat) :
    onPixel n c i f = n.finishPixel .indexOutOfRange :=
  if_pos hi

theorem chOk_eq_false_iff : chOk ch = false ↔ 2 ≤ ch.toNat := by
  rw [chOk, decide_eq_false_iff_not, Nat.not_lt]

end

/-! ### The step of a pixel-port operation -/

section
variable {s : State} {w : Wiring} {n : Instance} {ch : BitVec 2} {c : Idx} {i : BitVec 24}

theorem exec_pixrd (hn : s.inst? s.sel = some (w, n)) :
    exec (.pixrd ch i) s = .next (s.setInst s.sel (pixrdInst ch i n)) := issuePixel_found hn

theorem exec_pixwr (hn : s.inst? s.sel = some (w, n)) :
    exec (.pixwr ch i) s = .next (s.setInst s.sel (pixwrInst ch i n)) := issuePixel_found hn

theorem exec_pixlen (hn : s.inst? s.sel = some (w, n)) :
    exec (.pixlen ch) s = .next (s.setInst s.sel (pixlenInst ch n)) := issuePixel_found hn

theorem exec_pixrd_of_lt (hn : s.inst? s.sel = some (w, n)) (hc : ch.toNat = c.toNat)
    (hi : i.toNat < (n.ch.get c).count.toNat) :
    exec (.pixrd ch i) s = .next (s.setInst s.sel { n with
      presult := Memory.read zeroFill (n.pix.get c) i.toNat, presultCode := .ok }) := by
  rw [exec_pixrd hn, pixrdInst, onPixelChannel_of_eq hc, onPixel_of_lt hi, Instance.finishPixel_eq]

theorem exec_pixwr_of_lt (hn : s.inst? s.sel = some (w, n)) (hc : ch.toNat = c.toNat)
    (hi : i.toNat < (n.ch.get c).count.toNat) :
    exec (.pixwr ch i) s = .next (s.setInst s.sel { n with
      pix := n.pix.set c (Memory.write zeroFill (n.pix.get c) i.toNat n.pdata), presultCode := .ok }) := by
  rw [exec_pixwr hn, pixwrInst, onPixelChannel_of_eq hc, onPixel_of_lt hi, Instance.finishPixel_eq]

theorem exec_pixrd_of_le (hn : s.inst? s.sel = some (w, n)) (hc : ch.toNat = c.toNat)
    (hi : (n.ch.get c).count.toNat ≤ i.toNat) :
    exec (.pixrd ch i) s = .next (s.setInst s.sel (n.finishPixel .indexOutOfRange)) := by
  rw [exec_pixrd hn, pixrdInst, onPixelChannel_of_eq hc, onPixel_of_le hi]

theorem exec_pixwr_of_le (hn : s.inst? s.sel = some (w, n)) (hc : ch.toNat = c.toNat)
    (hi : (n.ch.get c).count.toNat ≤ i.toNat) :
    exec (.pixwr ch i) s = .next (s.setInst s.sel (n.finishPixel .indexOutOfRange)) := by
  rw [exec_pixwr hn, pixwrInst, onPixelChannel_of_eq hc, onPixel_of_le hi]

/-- R183: an operation on a channel that does not exist changes the code alone. -/
theorem exec_pixel_of_not_wf {p : Instr} (hn : s.inst? s.sel = some (w, n)) (hp : p.port = .pixel)
    (hwf : p.wf = false) : exec p s = .next (s.setInst s.sel (n.finishPixel .illegalCommand)) := by
  cases p with
  | pixrd ch i => rw [exec_pixrd hn, pixrdInst, onPixelChannel_of_not_ok hwf]
  | pixwr ch i => rw [exec_pixwr hn, pixwrInst, onPixelChannel_of_not_ok hwf]
  | pixlen ch => rw [exec_pixlen hn, pixlenInst, onPixelChannel_of_not_ok hwf]
  | cfg | init | setbright | gammawr | render | rendernb | poll | fini => cases hp

end

/-! ### A word stored to `PCMD` -/

/-- R115, R118 checks 1 to 3: the words that stand for a pixel-port operation, and the operation each stands for. -/
theorem decode_pixel_eq_ok_iff {v : Word} {p : Instr} : decode .pixel v = .ok p ↔ rsvField v = 0
    ∧ ((opField v).toNat = 1 ∧ p = .pixrd (chField v) (immField v)
      ∨ (opField v).toNat = 2 ∧ p = .pixwr (chField v) (immField v)
      ∨ (opField v).toNat = 3 ∧ immField v = 0 ∧ p = .pixlen (chField v)) := by
  by_cases hrsv : rsvField v = 0
  case neg => simp only [decode, hrsv, ↓reduceIte, false_and, reduceCtorEq]
  case pos =>
    have hd : decode .pixel v = decodePixel (opField v) (chField v) (immField v) := if_pos hrsv
    simp only [hd, hrsv, true_and]
    unfold decodePixel
    split
    case h_1 hop => simp [hop, eq_comm]
    case h_2 hop => simp [hop, eq_comm]
    case h_3 hop =>
      by_cases himm : immField v = 0
      · simp [whenZero, hop, himm, eq_comm]
      · simp_all [whenZero]
    case h_4 h1 h2 h3 => exact ⟨nofun, by rintro (⟨hop, -⟩ | ⟨hop, -⟩ | ⟨hop, -⟩) <;> contradiction⟩

section
variable {s : State} {w : Wiring} {n : Instance} {v : Word}

/-- R183, checks 1 to 4. -/
theorem issueWord_pixel_illegal (hn : s.inst? s.sel = some (w, n))
    (hbad : rsvField v ≠ 0 ∨ (opField v).toNat = 0 ∨ 3 < (opField v).toNat
      ∨ ((opField v).toNat = 3 ∧ (immField v).toNat ≠ 0) ∨ 2 ≤ (chField v).toNat) :
    issueWord .pixel v s = .next (s.setInst s.sel (n.finishPixel .illegalCommand)) := by
  unfold issueWord
  split
  case h_2 => exact issuePixel_found hn
  case h_1 p hp =>
    obtain ⟨hrsv, hop⟩ := decode_pixel_eq_ok_iff.mp hp
    have hport : p.port = .pixel := by
      rcases hop with ⟨-, rfl⟩ | ⟨-, rfl⟩ | ⟨-, -, rfl⟩ <;> rfl
    have hwf : p.wf = chOk (chField v) := by
      rcases hop with ⟨-, rfl⟩ | ⟨-, rfl⟩ | ⟨-, -, rfl⟩ <;> rfl
    have hch : 2 ≤ (chField v).toNat := by
      rcases hop with ⟨hop, -⟩ | ⟨hop, -⟩ | ⟨hop, himm, -⟩
      · simpa [hrsv, hop] using hbad
      · simpa [hrsv, hop] using hbad
      · simpa [hrsv, hop, himm] using hbad
    exact exec_pixel_of_not_wf hn hport (hwf.trans (chOk_eq_false_iff.mpr hch))

/-- R183, the index check. -/
theorem issueWord_pixel_outOfRange {c : Idx} (hn : s.inst? s.sel = some (w, n)) (hrsv : rsvField v = 0)
    (hop : (opField v).toNat = 1 ∨ (opField v).toNat = 2) (hc : (chField v).toNat = c.toNat)
    (hi : (n.ch.get c).count.toNat ≤ (immField v).toNat) :
    issueWord .pixel v s = .next (s.setInst s.sel (n.finishPixel .indexOutOfRange)) := by
  rcases hop with hop | hop
  case inl =>
    have hd : decode .pixel v = .ok (.pixrd (chField v) (immField v)) :=
      decode_pixel_eq_ok_iff.mpr ⟨hrsv, .inl ⟨hop, rfl⟩⟩
    simp only [issueWord, hd]
    exact exec_pixrd_of_le hn hc hi
  case inr =>
    have hd : decode .pixel v = .ok (.pixwr (chField v) (immField v)) :=
      decode_pixel_eq_ok_iff.mpr ⟨hrsv, .inr (.inl ⟨hop, rfl⟩)⟩
    simp only [issueWord, hd]
    exact exec_pixwr_of_le hn hc hi

end

/-- A store to `PCMD` issues the word at the instance whose window holds the address (R184: never held). -/
theorem step_store_pcmd {s : State} {ms : List Move} {h : Nat} {th : HostThread} {addr : Nat} {v : Word}
    {rest : List HostOp} {k : Nat} {w : Wiring} {n : Instance} (hs : s.sched = .host h :: ms)
    (hh : s.hosts[h]? = some th) (hp : th.prog = .store addr 4 v :: rest) (hl : locate s.params addr = some (k, 0x80))
    (hn : s.inst? k = some (w, n)) :
    step s = issueWord .pixel v { s with sched := ms, hosts := s.hosts.set h { th with prog := rest }, sel := k } :=
  (step_store hs hh hl (r := .pcmd) rfl hp).trans (storeReg_pcmd hn)

/-- R183: a channel that no `CFG` has configured has no pixels. -/
theorem Instance.Consistent.count_eq_zero {p : Params} {n : Instance} {c : Idx} (h : n.Consistent p)
    (hv : (n.ch.get c).valid = false) : (n.ch.get c).count.toNat = 0 := by
  obtain ⟨-, hrecord⟩ := h.channels c
  rw [if_neg (by simp [hv])] at hrecord
  rw [hrecord]
  rfl

/-! ### The obligations -/

/-- Settles O57: the layout is the sum of the joined bytes, and `UNPACK` takes those bytes out again. -/
theorem packUnpack : Obligations.PackUnpack := by
  refine fun r g b w => ⟨pack_toNat r g b w, unpack_pack r g b w, fun hr hg hb hw => ?components⟩
  case components =>
    rw [unpack_pack]
    exact ⟨Nat.mod_eq_of_lt hr, Nat.mod_eq_of_lt hg, Nat.mod_eq_of_lt hb, Nat.mod_eq_of_lt hw⟩

/-- Settles O25: an index below the count, one from the count on, and a channel that does not exist. -/
theorem pixrdCommand : Obligations.PixrdCommand :=
  fun _ _ _ _ _ hn => ⟨rfl, rfl, fun _ hc hi => exec_pixrd_of_lt hn hc hi, fun _ hc hi => exec_pixrd_of_le hn hc hi,
    fun hch => exec_pixel_of_not_wf hn rfl (chOk_eq_false_iff.mpr hch)⟩

/-- Settles O26: the cases of O25, with the other pixels of the channel by `Memory.read_write`. -/
theorem pixwrCommand : Obligations.PixwrCommand := by
  refine fun s w n ch i hn hwf => ⟨rfl, rfl, fun c hc hi => ?stored, fun c hc hi => exec_pixwr_of_le hn hc hi,
    fun hch => exec_pixel_of_not_wf hn rfl (chOk_eq_false_iff.mpr hch)⟩
  case stored =>
    exact ⟨_, exec_pixwr_of_lt hn hc hi, fun a => Memory.read_write zeroFill (hwf c) i.toNat a n.pdata⟩

/-- Settles O28: the step is the issue of the word (`step_store_pcmd`), and a channel with no pixels makes every index
out of range. -/
theorem pixelPortErrors : Obligations.PixelPortErrors := by
  refine ⟨fun s ms h th addr v rest k w n hs hh hp hl hn => ?port, fun c => ?reset⟩
  case reset =>
    have hch : Instance.reset.ch.get c = .reset := Pair.get_both _ c
    rw [hch]
    exact ⟨rfl, rfl⟩
  case port =>
    have hstep := step_store_pcmd hs hh hp hl hn
    refine ⟨fun hbad => hstep.trans (issueWord_pixel_illegal hn hbad), fun hrsv hop c hc hi =>
      hstep.trans (issueWord_pixel_outOfRange hn hrsv hop hc hi), fun ht c hv => ?unconfigured⟩
    have hcount : (n.ch.get c).count.toNat = 0 := (ht.2 k w n hn).count_eq_zero hv
    exact ⟨hcount, fun hrsv hop hc => hstep.trans (issueWord_pixel_outOfRange hn hrsv hop hc
      (hcount.trans_le (Nat.zero_le _)))⟩

end Sys2Proof.Machine
end

section
/-! SUPPORT. The encoder (42_encoder.md): the data bits of a pixel and the sub-bits that code them (R213 to R219), and the
two ends of the brightness scale (R215, R216). -/

namespace Sys2Proof.Machine

/-! ### The sub-bits of a pixel -/

theorem bitsMSB_getElem? (v : Nat) {n i : Nat} (hi : i < n) : (bitsMSB v n)[i]? = some (v.testBit (n - 1 - i)) := by
  simp [bitsMSB, hi]

theorem symbol_getElem? (p : Params) (b : Bool) {m : Nat} (hm : m < p.symLen) :
    (symbol p b)[m]? = some ((if b then p.oneCode else p.zeroCode).testBit (p.symLen - 1 - m)) :=
  bitsMSB_getElem? _ hm

/-- Where every element is coded by `L` items, item `b` of the code of element `a` stands at `a * L + b`. -/
theorem getElem?_flatMap_of_length {α β : Type} {f : α → List β} {L : Nat} (hf : ∀ x, (f x).length = L) (l : List α)
    (a : Nat) {b : Nat} (hb : b < L) : (l.flatMap f)[a * L + b]? = l[a]?.bind fun x => (f x)[b]? := by
  rw [List.flatMap, getElem?_flatten_of_length L _ (List.forall_mem_map.mpr fun x _ => hf x) a b hb, List.getElem?_map,
    Option.bind_map]
  rfl

/-- The data bits of a pixel in emission order: its output bytes, each most significant bit first (R218, R219). -/
def dataBits (gam : Memory 8) (bright : Byte) (strip : BitVec 9) (px : Word) : List Bool :=
  (outBytes gam bright strip px).flatMap fun v => bitsMSB v.toNat 8

theorem encodePixel_eq_symbols (p : Params) (r : Channel) (gam : Memory 8) (px : Word) :
    encodePixel p r gam px = (dataBits gam r.bright r.strip px).flatMap (symbol p) :=
  List.flatMap_assoc.symm

theorem outBytes_getElem? (gam : Memory 8) (bright : Byte) (strip : BitVec 9) (px : Word) {k : Nat}
    (hk : k < stripBytes strip) :
    (outBytes gam bright strip px)[k]? = some (scaledLane gam bright px (stripSel strip k)) := by
  simp [outBytes, hk]

theorem dataBits_getElem? (gam : Memory 8) (bright : Byte) (strip : BitVec 9) (px : Word) {k j : Nat}
    (hk : k < stripBytes strip) (hj : j < 8) :
    (dataBits gam bright strip px)[8 * k + j]?
      = some ((scaledLane gam bright px (stripSel strip k)).toNat.testBit (7 - j)) := by
  rw [dataBits, mul_comm, getElem?_flatMap_of_length (fun _ => bitsMSB_length _ _) _ _ hj,
    outBytes_getElem? _ _ _ _ hk, Option.bind_some, bitsMSB_getElem? _ hj]

/-- R219: sub-bit `m` of the symbol of data bit `i`. -/
theorem encodePixel_getElem? (p : Params) (r : Channel) (gam : Memory 8) (px : Word) (i : Nat) {m : Nat} {b : Bool}
    (hb : (dataBits gam r.bright r.strip px)[i]? = some b) (hm : m < p.symLen) :
    (encodePixel p r gam px)[i * p.symLen + m]?
      = some ((if b then p.oneCode else p.zeroCode).testBit (p.symLen - 1 - m)) := by
  rw [encodePixel_eq_symbols, getElem?_flatMap_of_length (symbol_length p) _ _ hm, hb, Option.bind_some,
    symbol_getElem? p b hm]

/-- The byte a `SELk` of the strip descriptor names (R213, R214), with the lane cut out by the field itself. -/
theorem scaledLane_stripSel_toNat (gam : Memory 8) (bright : Byte) (strip : BitVec 9) (px : Word) (k : Nat) :
    (scaledLane gam bright px (stripSel strip k)).toNat
      = (Memory.read identityTable gam (px.extractLsb' (8 * (strip.extractLsb' (2 * k) 2).toNat) 8).toNat).toNat
        * bright.toNat / 255 := by
  rw [scaledLane, div255, stripSel_eq]
  rfl

/-! ### The two ends of the brightness scale -/

theorem scale_full (g : Byte) : scale g 255 = g := by
  have hdiv : g.toNat * 255 / 255 = g.toNat := Nat.mul_div_cancel _ (by decide)
  exact BitVec.eq_of_toNat_eq ((div255 g 255).trans hdiv)

theorem scale_zero (g : Byte) : scale g 0 = 0 := by
  have hdiv : g.toNat * 0 / 255 = 0 := by rw [mul_zero, Nat.zero_div]
  exact BitVec.eq_of_toNat_eq ((div255 g 0).trans hdiv)

theorem scaledLane_full (gam : Memory 8) (px : Word) (x : Nat) :
    scaledLane gam 255 px x = Memory.read identityTable gam (lane px x).toNat := scale_full _

theorem scaledLane_zero (gam : Memory 8) (px : Word) (x : Nat) : scaledLane gam 0 px x = 0 := scale_zero _

theorem outBytes_zero (gam : Memory 8) (strip : BitVec 9) (px : Word) :
    outBytes gam 0 strip px = List.replicate (stripBytes strip) 0 := by
  simp only [outBytes, scaledLane_zero, List.map_const', List.length_range]

theorem dataBits_zero (gam : Memory 8) (strip : BitVec 9) (px : Word) :
    dataBits gam 0 strip px = List.replicate (8 * stripBytes strip) false := by
  have hbyte : bitsMSB (0 : Byte).toNat 8 = List.replicate 8 false := by decide
  rw [dataBits, outBytes_zero, List.flatMap_replicate, hbyte, List.flatten_replicate_replicate, mul_comm]

theorem encodePixel_zero (p : Params) {r : Channel} (gam : Memory 8) (px : Word) (hr : r.bright = 0) :
    encodePixel p r gam px = (List.replicate (8 * stripBytes r.strip) (symbol p false)).flatten := by
  rw [encodePixel_eq_symbols, hr, dataBits_zero, List.flatMap_replicate]

/-! ### The obligations -/

/-- Settles O31: the data bit at `8 * k + j` (`dataBits_getElem?`) and the sub-bit of its symbol
(`encodePixel_getElem?`). -/
theorem encodePixelSubBits : Obligations.EncodePixelSubBits := by
  refine fun p r gam px => ⟨encodePixel_length p r gam px, fun k j m hk hj hm => ?subBit⟩
  case subBit =>
    have hbit := dataBits_getElem? gam r.bright r.strip px hk hj
    rw [scaledLane_stripSel_toNat] at hbit
    exact encodePixel_getElem? p r gam px _ hbit hm

/-- Settles O33: every output byte scales to 0, so every data bit is coded by the symbol of a 0-bit. -/
theorem zeroBrightnessIsDark : Obligations.ZeroBrightnessIsDark :=
  fun p _ gam px hr => ⟨fun x => hr ▸ scaledLane_zero gam px x, encodePixel_zero p gam px hr⟩

/-- Settles O32: the scale at 255 is the identity, and the identity table gives back the lane it is read at. -/
theorem fullBrightnessIsIdentity : Obligations.FullBrightnessIsIdentity := by
  refine fun gam px x => ⟨scaledLane_full gam px x, fun htable => ?identity⟩
  case identity =>
    calc scaledLane gam 255 px x
      _ = Memory.read identityTable gam (lane px x).toNat := scaledLane_full gam px x
      _ = BitVec.ofNat 8 (lane px x).toNat := htable _ (lane px x).isLt
      _ = lane px x := by rw [BitVec.ofNat_toNat, BitVec.setWidth_eq]

end Sys2Proof.Machine
end

section
/-! SUPPORT. The build step (43_frame_builder.md): the step it is of the system (R250), and the words of the back buffer
past the frame (R255). -/

namespace Sys2Proof.Machine

/-- A frame takes the indices below `2 * W` and no other. -/
theorem frameWords_index_lt {n : Instance} {acc : Pair (List Bool)} {e : Nat × Word} (he : e ∈ frameWords n acc) :
    e.1 < 2 * frameSteps n acc := by
  have hfst : e.1 ∈ (frameWords n acc).map Prod.fst := List.mem_map_of_mem he
  rwa [frameWords_fst, List.mem_range] at hfst

theorem frameWords_index_nodup (n : Instance) (acc : Pair (List Bool)) : ((frameWords n acc).map Prod.fst).Nodup := by
  rw [frameWords_fst]
  exact List.nodup_range

/-- Words past the frame keep their values. -/
theorem read_frame_past {n : Instance} {acc : Pair (List Bool)} {m : Memory 32} {a : Nat}
    (hm : Memory.wf zeroFill m = true) (ha : 2 * frameSteps n acc ≤ a) :
    Memory.read zeroFill (Memory.writeAll zeroFill m (frameWords n acc)) a = Memory.read zeroFill m a := by
  obtain ⟨-, hkept⟩ := read_writeAll (frameWords n acc) hm (frameWords_index_nodup n acc) a
  exact hkept fun e he => Nat.ne_of_lt (Nat.lt_of_lt_of_le (frameWords_index_lt he) ha)

/-- R250: the frame and its length go to the back buffer, the phase becomes `WAIT`, and nothing else changes. -/
theorem step_build {s : State} {ms : List Move} {k : Nat} {ok : Bool} {w : Wiring} {n : Instance} {q : InFlight}
    {acc : Pair (List Bool)} (hs : s.sched = .seq k ok :: ms) (hn : s.inst? k = some (w, n)) (hq : n.sq = some q)
    (hphase : q.phase = .build acc) :
    step s = .next { s with
      sched := ms
      insts := s.insts.set k { n with
        buf := n.buf.set n.front.other
          (Memory.writeAll zeroFill (n.buf.get n.front.other) (frameWords n acc))
        flen := n.flen.set n.front.other (frameSteps n acc)
        sq := some { q with phase := .wait } } } := by
  rw [step_seq hs hn hq, seqStep, hphase]
  rfl

/-! ### The obligation -/

/-- Settles O35: the memory is the back buffer with the words of the frame written (`step_build`), and `W` is
`frameSteps`; the bits below `2 * W` are those of the slots' streams (`frame_bit`), the words above are kept
(`read_frame_past`). -/
theorem buildLaysOutTheFrame : Obligations.BuildLaysOutTheFrame := by
  intro s ms k ok w n q acc hs hn hq hphase hwf
  exact ⟨_, frameSteps n acc, step_build hs hn hq hphase, fun _ => frameSteps_ge, frameSteps_or,
    fun _ _ _ hj hb => frame_bit hwf hj hb, fun _ ha => read_frame_past hwf ha⟩

end Sys2Proof.Machine
end

section
/-! SUPPORT. `INIT`, `POLL` and `FINI` at an instance that accepts them (44_transport.md R280 to R284, R310, R315 to R319):
one lemma for each answer. -/

namespace Sys2Proof.Machine

theorem State.setInst_raise {n : Instance} (s : State) (k : Nat) (hq : n.sq = none) (e : Code) :
    s.setInst k (n.raise e) = { s with insts := s.insts.set k { n with resultCode := e } } := by
  rw [Instance.raise_eq, Instance.finish_of_idle hq, State.setInst]

/-! ### The checks of `INIT` -/

/-- `crossValidate` fails in the three cases of R281. -/
theorem crossValid_eq_false_iff {n : Instance} : crossValid n = false ↔ (∀ c, (n.ch.get c).valid = false)
    ∨ ∃ c d, (n.ch.get c).valid = true ∧ (n.ch.get d).valid = true
      ∧ ((n.ch.get c).freq ≠ (n.ch.get d).freq ∨ (n.ch.get c).dma ≠ (n.ch.get d).dma) := by
  rw [← Bool.not_eq_true, crossValid_iff, not_and_or]
  refine or_congr ?none ?differ
  case none => simp only [not_exists, Bool.not_eq_true]
  case differ => simp only [not_forall, not_and_or, exists_prop]

/-- A resource of the configuration is claimed already (R284). -/
theorem claimed_claimSet_iff {cs : List Claim} {w : Wiring} {n : Instance} : claimed cs (claimSet w n) = true ↔
    ∃ x ∈ cs, (∃ t, x.id = .pwm w.pwmCtrl t) ∨ ∃ c, (n.ch.get c).valid = true
      ∧ (x.id = .pin (n.ch.get c).gpio.toNat ∨ x.id = .dma (n.ch.get c).dma.toNat) := by
  simp only [claimed_iff, mem_claimSet]

section
variable {s : State} {w : Wiring} {n : Instance}

theorem exec_init (ha : s.accepts w n) : exec .init s = .next (initStep s w n) := issueMain_idle ha.1 ha.2

theorem exec_poll (ha : s.accepts w n) : exec .poll s = .next (s.setInst s.sel (pollInst n)) := issueLocal_idle ha.1 ha.2

theorem exec_fini (ha : s.accepts w n) : exec .fini s = .next (finiStep s w n) := issueMain_idle ha.1 ha.2

/-! ### The errors of `INIT`, in their order -/

theorem initStep_of_up (hu : n.tstate ≠ .uninit) : initStep s w n = s.setInst s.sel (n.raise .illegalCommand) :=
  if_pos hu

theorem initStep_of_clash (hu : n.tstate = .uninit) (hcross : crossValid n = false) :
    initStep s w n = s.setInst s.sel (n.raise .invalidConfiguration) := by
  simp [initStep, hu, hcross]

theorem initStep_of_overlap (hu : n.tstate = .uninit) (hcross : crossValid n = true) (hover : overlaps n = true) :
    initStep s w n = s.setInst s.sel (n.raise .channelOverlap) := by
  simp [initStep, hu, hcross, hover]

theorem initStep_of_claimed (hu : n.tstate = .uninit) (hcross : crossValid n = true) (hover : overlaps n = false)
    (htaken : claimed s.claims (claimSet w n) = true) :
    initStep s w n = s.setInst s.sel (n.raise .resourceUnavailable) := by
  simp [initStep, hu, hcross, hover, htaken]

/-! ### The cases of `POLL` -/

theorem pollInst_illegal (h : n.tstate = .uninit ∨ n.args.a0 = 0 ∨ n.seq = 0) :
    pollInst n = n.raise .illegalCommand := by
  unfold pollInst
  by_cases hu : n.tstate = .uninit
  · exact if_pos hu
  · exact (if_neg hu).trans (if_pos (h.resolve_left hu))

/-- With a handle that can be polled, the answer goes by whether it is the last one, and then by the transport. -/
theorem pollInst_legal (hu : n.tstate ≠ .uninit) (hh : n.args.a0 ≠ 0) (hs : n.seq ≠ 0) : pollInst n =
    if n.args.a0 ≠ n.seq then Instance.finish { n with result := 3 } .ok
    else if n.tstate = .transmitting then Instance.finish { n with result := 0 } .ok
    else if n.xerr.any then Instance.finish { n with result := 2, errpend := false } .ok
    else Instance.finish { n with result := 1 } .ok := by
  unfold pollInst
  exact (if_neg hu).trans (if_neg (not_or.mpr ⟨hh, hs⟩))

/-! ### The cases of `FINI` -/

theorem exec_fini_of_uninit (ha : s.accepts w n) (hu : n.tstate = .uninit) :
    exec .fini s = .next { s with insts := s.insts.set s.sel { n with resultCode := .ok } } := by
  have hstep : finiStep s w n = s.setInst s.sel (n.finish .ok) := by rw [finiStep, hu]
  rw [exec_fini ha, hstep, Instance.finish_of_idle ha.2, State.setInst]

theorem exec_fini_of_ready (ha : s.accepts w n) (hready : n.tstate = .ready) :
    exec .fini s = .next (teardown s s.sel w n false) := by
  rw [exec_fini ha, finiStep, hready]

/-- A teardown leaves the instance as reset but for the code and the record of its lines (R316, R452). -/
theorem teardown_inst? {k : Nat} (hn : s.inst? k = some (w, n)) (aborted : Bool) :
    (teardown s k w n aborted).inst? k = some (w, { Instance.reset with
      resultCode := if aborted || n.errpend then .transmitFailure else .ok, emitted := n.emitted }) :=
  State.setInst_inst?_self _ hn

/-- R318: none of the instance's claims is left. -/
theorem teardown_owner_ne {k : Nat} {aborted : Bool} {x : Claim} (hx : x ∈ (teardown s k w n aborted).claims) :
    x.owner ≠ w.id := (mem_release.mp hx).2

/-- A `FINI` at an instance in `UNINIT` whose code is OK already changes nothing. -/
theorem exec_fini_eq_self (ha : s.accepts w n) (hu : n.tstate = .uninit) (hcode : n.resultCode = .ok) :
    exec .fini s = .next s := by
  have hsame : ({ n with resultCode := .ok } : Instance) = n := by rw [← hcode]
  rw [exec_fini_of_uninit ha hu, hsame, State.set_found ha.1]

end

/-! ### The obligations -/

/-- Settles O20: the checks of `INIT` are those the statement spells out, and each answer is the code alone. -/
theorem initReportsFirstError : Obligations.InitReportsFirstError := by
  intro s w n ha fails clash overlap taken
  have hfails {e : Code} (h : initStep s w n = s.setInst s.sel (n.raise e)) : fails e := by
    show exec .init s = _
    rw [exec_init ha, h, State.setInst_raise s _ ha.2]
  have hcross (h : ¬ clash) : crossValid n = true := by simpa using mt crossValid_eq_false_iff.mp h
  have hover (h : ¬ overlap) : overlaps n = false := by simpa using mt overlaps_iff.mp h
  refine ⟨fun hu => hfails (initStep_of_up hu), fun hu hclash => hfails ?clash,
    fun hu hclash hoverlap => hfails ?overlap, fun hu hclash hoverlap htaken => hfails ?taken⟩
  case clash => exact initStep_of_clash hu (crossValid_eq_false_iff.mpr hclash)
  case overlap => exact initStep_of_overlap hu (hcross hclash) (overlaps_iff.mpr hoverlap)
  case taken => exact initStep_of_claimed hu (hcross hclash) (hover hoverlap) (claimed_claimSet_iff.mpr htaken)

/-- Settles O22: the step is `pollInst` at the instance (`exec_poll`), the cases are those of `pollInst_illegal` and
`pollInst_legal`, and completing an idle instance writes the code alone. -/
theorem pollCommand : Obligations.PollCommand := by
  intro s w n ha
  have hpoll {m r : Instance} (h : pollInst n = m) (hr : m = r) :
      exec .poll s = .next { s with insts := s.insts.set s.sel r } := by
    rw [exec_poll ha, h, hr, State.setInst]
  have hanswer (r : Word) (e : Bool) : Instance.finish { n with result := r, errpend := e } .ok
      = { n with result := r, errpend := e, resultCode := .ok } :=
    Instance.finish_of_idle (n := { n with result := r, errpend := e }) ha.2 _
  refine ⟨rfl, rfl, fun h => hpoll (pollInst_illegal h) (Instance.finish_of_idle ha.2 _), fun hu hh hs => ?legal⟩
  case legal =>
    have hcases := pollInst_legal hu hh hs
    refine ⟨fun hne => ?other, fun heq ht => ?inFlight, fun heq ht hx => ?done, fun heq ht hx => ?failed⟩
    case other => exact hpoll (hcases.trans (if_pos hne)) (hanswer 3 n.errpend)
    all_goals rw [if_neg (not_not.mpr heq)] at hcases
    case inFlight => exact hpoll (hcases.trans (if_pos ht)) (hanswer 0 n.errpend)
    all_goals rw [if_neg (by simp [ht])] at hcases
    case done =>
      have hany : n.xerr.any ≠ true := by simp [xerr_word.mp hx]
      exact hpoll (hcases.trans (if_neg hany)) (hanswer 1 n.errpend)
    case failed =>
      have hany : n.xerr.any = true := by simpa using mt xerr_word.mpr hx
      exact hpoll (hcases.trans (if_pos hany)) (hanswer 2 false)

/-- Settles O24: the first `FINI` is the teardown, which leaves `UNINIT` with code OK, where a `FINI` changes nothing
(`exec_fini_eq_self`). -/
theorem finiIsIdempotent : Obligations.FiniIsIdempotent := by
  refine fun s w n ha => ⟨exec_fini_of_uninit ha, fun hready herr => ?twice⟩
  case twice =>
    have hdown := teardown_inst? ha.1 false
    rw [herr] at hdown
    exact ⟨_, _, exec_fini_of_ready ha hready, exec_fini_eq_self ⟨hdown, rfl⟩ rfl rfl, hdown, rfl, rfl,
      fun _ hx => teardown_owner_ne hx⟩

end Sys2Proof.Machine
end

section
/-! SUPPORT. The transitions of `TSTATE` (44_transport.md R330): which commands leave it, what the steps of the sequencer
and of the drain make of it, and the events a step changes it by (`TStateEvent`). -/

namespace Sys2Proof.Machine

/-! ### Commands that leave `TSTATE` -/

/-- Every instance is left in the transport state it was in. -/
def State.KeepsTState (s t : State) : Prop :=
  ∀ (k : Nat) (n n' : Instance), s.insts[k]? = some n → t.insts[k]? = some n' → n'.tstate = n.tstate

theorem State.KeepsTState.of_insts {s t : State} (h : t.insts = s.insts) : s.KeepsTState t := by
  intro k n n' hn hn'
  rw [h, hn] at hn'
  cases hn'
  rfl

theorem State.KeepsTState.of_set {s t : State} {k : Nat} {w : Wiring} {n m : Instance} (was : s.inst? k = some (w, n))
    (h : t.insts = s.insts.set k m) (hm : m.tstate = n.tstate) : s.KeepsTState t := by
  intro j l l' hl hl'
  obtain ⟨-, hn⟩ := State.inst?_eq_some.mp was
  rw [h] at hl'
  rcases get_set hl' with ⟨rfl, rfl⟩ | ⟨-, hsame⟩
  · rw [hn] at hl
    cases hl
    exact hm
  · rw [hl] at hsame
    cases hsame
    rfl

/-- A main-port command that answers next was held, or the port accepted it (30_encoding.md R116). -/
theorem issueMain_next {s t : State} {f : Wiring → Instance → State} (h : issueMain s f = .next t) :
    t = s ∨ ∃ w n, s.accepts w n ∧ t = f w n := by
  unfold issueMain at h
  split at h
  · cases h
  · rename_i w n hn
    split at h
    · cases h
      exact .inl rfl
    · rename_i hb
      cases h
      exact .inr ⟨w, n, ⟨hn, busy_false.mp (by simpa using hb)⟩, rfl⟩

theorem issueLocal_keepsTState {s t : State} {f : Instance → Instance} (h : issueLocal s f = .next t)
    (hf : ∀ n, (f n).tstate = n.tstate) : s.KeepsTState t := by
  rcases issueMain_next h with rfl | ⟨w, n, ha, rfl⟩
  · exact .of_insts rfl
  · exact .of_set ha.1 rfl (hf n)

theorem issuePixel_keepsTState {s t : State} {f : Instance → Instance} (h : issuePixel s f = .next t)
    (hf : ∀ n, (f n).tstate = n.tstate) : s.KeepsTState t := by
  unfold issuePixel at h
  split at h
  · cases h
  · rename_i n hn
    cases h
    exact .of_set hn rfl (hf n)

theorem onChannel_tstate {n : Instance} {ch : BitVec 2} {f : Idx → Instance} (hf : ∀ c, (f c).tstate = n.tstate) :
    (onChannel ch n f).tstate = n.tstate := by
  unfold onChannel
  split
  · rfl
  · exact hf _

theorem onPixelChannel_tstate {n : Instance} {ch : BitVec 2} {f : Idx → Instance} (hf : ∀ c, (f c).tstate = n.tstate) :
    (onPixelChannel ch n f).tstate = n.tstate := by
  unfold onPixelChannel
  split
  · rfl
  · exact hf _

theorem onPixel_tstate {n : Instance} {c : Idx} {i : BitVec 24} {f : Instance} (hf : f.tstate = n.tstate) :
    (onPixel n c i f).tstate = n.tstate := by
  unfold onPixel
  split
  · rfl
  · exact hf

theorem cfgInst_tstate (p : Params) (ch : BitVec 2) (n : Instance) : (cfgInst p ch n).tstate = n.tstate := by
  refine onChannel_tstate fun c => ?_
  split
  · rfl
  · split <;> rfl

theorem setbrightInst_tstate (ch : BitVec 2) (b : BitVec 24) (n : Instance) :
    (setbrightInst ch b n).tstate = n.tstate := by
  refine onChannel_tstate fun c => ?_
  split <;> rfl

theorem renderIssue_tstate (cmd : Instr) (n : Instance) : (renderIssue cmd n).tstate = n.tstate := by
  unfold renderIssue
  split <;> rfl

theorem pollInst_tstate (n : Instance) : (pollInst n).tstate = n.tstate := by
  simp only [pollInst, apply_ite Instance.tstate, Instance.raise_eq, Instance.finish_tstate, ite_self]

theorem writeReg_tstate (n : Instance) (r : Reg) (v : Word) : (n.writeReg r v).tstate = n.tstate := by
  cases r <;> rfl

/-- Of the commands, only `INIT` and `FINI` change a `TSTATE` when they are issued. -/
theorem exec_keepsTState {i : Instr} {s t : State} (hinit : i ≠ .init) (hfini : i ≠ .fini) (h : exec i s = .next t) :
    s.KeepsTState t := by
  cases i with
  | init => exact absurd rfl hinit
  | fini => exact absurd rfl hfini
  | cfg ch => exact issueLocal_keepsTState h (cfgInst_tstate s.params ch)
  | setbright ch b => exact issueLocal_keepsTState h (setbrightInst_tstate ch b)
  | gammawr ch j v => exact issueLocal_keepsTState h fun _ => onChannel_tstate fun _ => rfl
  | render => exact issueLocal_keepsTState h (renderIssue_tstate .render)
  | rendernb => exact issueLocal_keepsTState h (renderIssue_tstate .rendernb)
  | poll => exact issueLocal_keepsTState h pollInst_tstate
  | pixrd ch i => exact issuePixel_keepsTState h fun _ => onPixelChannel_tstate fun _ => onPixel_tstate rfl
  | pixwr ch i => exact issuePixel_keepsTState h fun _ => onPixelChannel_tstate fun _ => onPixel_tstate rfl
  | pixlen ch => exact issuePixel_keepsTState h fun _ => onPixelChannel_tstate fun _ => rfl

/-! ### `INIT` and `FINI` -/

/-- An `INIT` that answers next changes no `TSTATE`, or every check of R280 passes and the instance comes up. -/
theorem exec_init_next {s t : State} (h : exec .init s = .next t) : s.KeepsTState t ∨ ∃ w n, s.accepts w n
    ∧ n.tstate = .uninit ∧ crossValid n = true ∧ overlaps n = false ∧ claimed s.claims (claimSet w n) = false
    ∧ t.insts = s.insts.set s.sel
      (Instance.finish { n with tstate := .ready, line := n.idleLines, mux := muxOf s.params n } .ok) := by
  rcases issueMain_next h with rfl | ⟨w, n, ha, rfl⟩
  · exact .inl (.of_insts rfl)
  · have hraise (e : Code) : s.KeepsTState (s.setInst s.sel (n.raise e)) := .of_set ha.1 rfl rfl
    unfold initStep
    split
    · exact .inl (hraise _)
    · rename_i hu
      split
      · exact .inl (hraise _)
      · rename_i hcross
        split
        · exact .inl (hraise _)
        · rename_i hover
          split
          · exact .inl (hraise _)
          · rename_i hfree
            exact .inr ⟨w, n, ha, by simpa using hu, by simpa using hcross, by simpa using hover,
              by simpa using hfree, rfl⟩

/-- A `FINI` that answers next changes no `TSTATE`, or it tears down an instance in `READY` (R315). -/
theorem exec_fini_next {s t : State} (h : exec .fini s = .next t) : s.KeepsTState t ∨ ∃ w n, s.accepts w n
    ∧ n.tstate = .ready ∧ t.insts = s.insts.set s.sel { Instance.reset with
      resultCode := if n.errpend then .transmitFailure else .ok, emitted := n.emitted } := by
  rcases issueMain_next h with rfl | ⟨w, n, ha, rfl⟩
  · exact .inl (.of_insts rfl)
  · unfold finiStep
    split
    · exact .inl (.of_set ha.1 rfl rfl)
    · exact .inl (.of_set ha.1 rfl rfl)
    · rename_i hready
      exact .inr ⟨w, n, ha, hready, rfl⟩

/-! ### The step of a host thread -/

/-- A word issued to a port changes a `TSTATE` only as the word of `INIT` or `FINI` on the main port. -/
theorem issueWord_next {port : Port} {v : Word} {s t : State} (h : issueWord port v s = .next t) :
    s.KeepsTState t ∨ ∃ i, (i = .init ∨ i = .fini) ∧ port = .main ∧ decode port v = .ok i ∧ exec i s = .next t := by
  unfold issueWord at h
  split at h
  · rename_i i hd
    by_cases hi : i = .init ∨ i = .fini
    · cases port with
      | main => exact .inr ⟨i, hi, rfl, hd, h⟩
      | pixel =>
        obtain ⟨-, hop⟩ := decode_pixel_eq_ok_iff.mp hd
        rcases hop with ⟨-, rfl⟩ | ⟨-, rfl⟩ | ⟨-, -, rfl⟩ <;> simp at hi
    · rw [not_or] at hi
      exact .inl (exec_keepsTState hi.1 hi.2 h)
  · cases port with
    | main => exact .inl (issueLocal_keepsTState h fun _ => rfl)
    | pixel => exact .inl (issuePixel_keepsTState h fun _ => rfl)

/-- A store to a register changes a `TSTATE` only as the word of `INIT` or `FINI` to `CMD`. -/
theorem storeReg_next {h k : Nat} {th : HostThread} {r : Reg} {v : Word} {s t : State}
    (hs : storeReg h th k r v s = .next t) : s.KeepsTState t ∨ ∃ i, (i = .init ∨ i = .fini) ∧ r = .cmd
    ∧ decode .main v = .ok i ∧ exec i { s.setHost h th with sel := k } = .next t := by
  unfold storeReg at hs
  split at hs
  · cases hs
  · rename_i w n hn
    split at hs
    · split at hs
      · cases hs
        exact .inl (.of_insts rfl)
      · rcases issueWord_next hs with hkeeps | ⟨i, hi, -, hd, hexec⟩
        · exact .inl hkeeps
        · exact .inr ⟨i, hi, rfl, hd, hexec⟩
    · rcases issueWord_next hs with hkeeps | ⟨i, -, hport, -⟩
      · exact .inl hkeeps
      · cases hport
    · cases hs
      exact .inl (.of_set hn rfl (writeReg_tstate n r v))

theorem loadReg_keepsTState {h k : Nat} {r : Reg} {f : Word → HostThread} {s t : State}
    (hl : loadReg h k r f s = .next t) : s.KeepsTState t := by
  unfold loadReg at hl
  split at hl
  · cases hl
  · cases hl
    exact .of_insts rfl

/-- An access that reaches a register is 32 bits wide and at the register's offset (20_memory.md R86, R94). -/
theorem accessReg_eq_ok {p : Params} {addr size k : Nat} {r : Reg} (h : accessReg p addr size = .ok (k, r)) :
    size = 4 ∧ ∃ off, locate p addr = some (k, off) ∧ regAt off = some r := by
  unfold accessReg at h
  split at h
  · cases h
  · rename_i off hl
    split at h
    · cases h
    · rename_i hbad
      split at h
      · cases h
      · rename_i hr
        cases h
        exact ⟨by omega, off, hl, hr⟩

theorem regAt_cmd {off : Nat} (h : regAt off = some .cmd) : off = 0x00 := by
  have hrows : ∀ x ∈ regMap, x.2 = .cmd → x.1 = 0x00 := by decide
  exact hrows _ (regAt_mem h) rfl

/-- A thread's operation changes a `TSTATE` only as a store of the word of `INIT` or `FINI` to `CMD`. -/
theorem hostOp_next {h : Nat} {th : HostThread} {op : HostOp} {rest : List HostOp} {s t : State}
    (hs : hostOp h th op rest s = .next t) : s.KeepsTState t ∨ ∃ i addr v k, (i = .init ∨ i = .fini)
    ∧ op = .store addr 4 v ∧ locate s.params addr = some (k, 0x00) ∧ decode .main v = .ok i
    ∧ exec i { s.setHost h { th with prog := rest } with sel := k } = .next t := by
  cases op with
  | store addr size v =>
    simp only [hostOp] at hs
    split at hs
    · cases hs
    · rename_i k r hr
      rcases storeReg_next hs with hkeeps | ⟨i, hi, rfl, hd, hexec⟩
      · exact .inl hkeeps
      · obtain ⟨rfl, off, hl, hoff⟩ := accessReg_eq_ok hr
        cases regAt_cmd hoff
        exact .inr ⟨i, addr, v, k, hi, rfl, hl, hd, hexec⟩
  | load | waitIdle =>
    simp only [hostOp] at hs
    split at hs
    · cases hs
    · exact .inl (loadReg_keepsTState hs)
  | setGamma | setRange | rangeGuard | fill =>
    cases hs
    exact .inl (.of_insts rfl)

/-! ### The steps of the sequencer and of the drain -/

/-- A start phase leaves `TSTATE`, or it starts a frame: not refused, with the buffers swapped and the next handle
(R296). -/
theorem startPhase_cases (p : Params) (n : Instance) (cmd : Instr) (ok : Bool) :
    (startPhase p n cmd ok).tstate = n.tstate
    ∨ (ok = true ∨ p.xferErrors = false) ∧ (startPhase p n cmd ok).tstate = .transmitting
      ∧ (startPhase p n cmd ok).front = n.front.other ∧ (startPhase p n cmd ok).seq = nextSeq n.seq
      ∧ (startPhase p n cmd ok).dpos = 0 := by
  unfold startPhase
  split
  · exact .inl rfl
  · unfold startFrame
    dsimp only
    split
    · rename_i hok
      right
      refine ⟨by simpa using hok, ?_⟩
      split <;> exact ⟨rfl, rfl, rfl, rfl⟩
    · left
      split <;> rfl

/-- The draw of a word-step decides between the good one and an error's (R320, R322). -/
theorem drainInst_draw (p : Params) (n : Instance) (e : DrainDraw) :
    (e = .good ∨ p.xferErrors = false) ∧ drainInst p n e = drainGood n
    ∨ e ≠ .good ∧ p.xferErrors = true ∧ (drainInst p n e).errpend = true ∧ (drainInst p n e).xerr.any = true
      ∧ (drainInst p n e).tstate = .ready := by
  cases hx : p.xferErrors with
  | false => exact .inl ⟨.inr rfl, by simp [drainInst, hx]⟩
  | true =>
    cases e with
    | good => exact .inl ⟨.inl rfl, by simp [drainInst]⟩
    | busError bits | fifoUnderrun bits =>
      exact .inr ⟨nofun, rfl, by simp [drainInst, hx, drainError, Xerr.any]⟩

/-! ### The events that change a `TSTATE` -/

/-- The event a step changes the `TSTATE` of instance `k` by: what it is, what it needs, and what the instance becomes. -/
inductive TStateEvent (s : State) (k : Nat) (w : Wiring) (n n' : Instance) : Prop where
  | init (issued : s.Issues k .init) (idle : n.sq = none) (uninit : n.tstate = .uninit) (cross : crossValid n = true)
      (apart : overlaps n = false) (free : claimed s.claims (claimSet w n) = false) (up : n'.tstate = .ready)
      (code : n'.resultCode = .ok)
  | fini (issued : s.Issues k .fini) (idle : n.sq = none) (ready : n.tstate = .ready) (down : n'.tstate = .uninit)
  | start (q : InFlight) (ok : Bool) (move : s.nextMove = .seq k ok) (flight : n.sq = some q) (at_ : q.phase = .start)
      (free : n.tstate ≠ .transmitting) (drawn : ok = true ∨ s.params.xferErrors = false)
      (on : n'.tstate = .transmitting) (front : n'.front = n.front.other) (seq : n'.seq = nextSeq n.seq)
      (dpos : n'.dpos = 0)
  | waited (q : InFlight) (ok : Bool) (move : s.nextMove = .seq k ok) (flight : n.sq = some q)
      (at_ : q.phase = .finiWait) (free : n.tstate ≠ .transmitting) (down : n'.tstate = .uninit)
  | aborted (q : InFlight) (cut : Pair Nat) (move : s.nextMove = .abort k cut) (flight : n.sq = some q)
      (at_ : q.phase = .finiWait) (down : n'.tstate = .uninit) (code : n'.resultCode = .transmitFailure)
  | drained (e : DrainDraw) (move : s.nextMove = .drain k e) (on : n.draining = true)
      (good : e = .good ∨ s.params.xferErrors = false) (last : n.dpos + 1 = n.flen.get n.front)
      (off : n'.tstate = .ready) (dpos : n'.dpos = n.flen.get n.front) (xerr : n'.xerr = n.xerr)
      (errpend : n'.errpend = n.errpend)
  | failed (e : DrainDraw) (move : s.nextMove = .drain k e) (on : n.draining = true) (bad : e ≠ .good)
      (admitted : s.params.xferErrors = true) (off : n'.tstate = .ready) (errpend : n'.errpend = true)
      (xerr : n'.xerr.any = true)

/-- What a step makes of the `TSTATE`s: they stay, or one instance changes by one of the events. -/
inductive TStateStep (s t : State) : Prop where
  | kept (h : s.KeepsTState t)
  | event (k : Nat) (w : Wiring) (n n' : Instance) (was : s.inst? k = some (w, n))
      (insts : t.insts = s.insts.set k n') (by_ : TStateEvent s k w n n')

theorem State.moved_setInst_insts (s : State) (k : Nat) (m : Instance) :
    (s.moved.setInst k m).insts = s.insts.set k m := by rw [State.setInst_insts, State.moved_insts]

theorem moved_teardown_insts (s : State) (k : Nat) (w : Wiring) (n : Instance) (aborted : Bool) :
    (teardown s.moved k w n aborted).insts = s.insts.set k { Instance.reset with
      resultCode := if aborted || n.errpend then .transmitFailure else .ok, emitted := n.emitted } := by
  rw [teardown, State.setInst_insts, State.moved_insts]

theorem State.KeepsTState.of_moved {s t : State} (h : s.moved.KeepsTState t) : s.KeepsTState t := by
  simpa only [State.KeepsTState, State.moved_insts] using h

/-- A move that is used up without a step (log 5). -/
theorem TStateStep.moved (s : State) : TStateStep s s.moved := .kept (.of_insts s.moved_insts)

theorem TStateStep.setInst_kept {s : State} {k : Nat} {w : Wiring} {n m : Instance} (was : s.inst? k = some (w, n))
    (hm : m.tstate = n.tstate) : TStateStep s (s.moved.setInst k m) :=
  .kept (.of_set was (s.moved_setInst_insts k m) hm)

/-! ### The event of each move -/

theorem hostMove_tstate {s t : State} {h : Nat} (hm : s.nextMove = .host h) (hs : hostMove h s.moved = .next t) :
    TStateStep s t := by
  unfold hostMove at hs
  split at hs
  · cases hs
    exact .moved s
  · rename_i th hth
    split at hs
    · cases hs
      exact .moved s
    · rename_i op rest hprog
      rcases hostOp_next hs with hkeeps | ⟨i, addr, v, k, hi, rfl, hl, hd, hexec⟩
      · exact .kept (.of_moved hkeeps)
      · rw [State.moved_hosts] at hth
        rw [State.moved_params] at hl
        rcases hi with rfl | rfl
        · have hissued : s.Issues k .init := ⟨h, th, addr, v, rest, hm, hth, hprog, hl, hd⟩
          rcases exec_init_next hexec with hkeeps | ⟨w, n, ⟨hn, hq⟩, hu, hcross, hover, hfree, ht⟩
          · exact .kept (.of_moved hkeeps)
          · exact .event k w n _ (s.moved_inst? k ▸ hn) (s.moved_insts ▸ ht)
              (.init hissued hq hu hcross hover (s.moved_claims ▸ hfree) rfl rfl)
        · have hissued : s.Issues k .fini := ⟨h, th, addr, v, rest, hm, hth, hprog, hl, hd⟩
          rcases exec_fini_next hexec with hkeeps | ⟨w, n, ⟨hn, hq⟩, hready, ht⟩
          · exact .kept (.of_moved hkeeps)
          · exact .event k w n _ (s.moved_inst? k ▸ hn) (s.moved_insts ▸ ht) (.fini hissued hq hready rfl)

theorem seqStep_tstate {s : State} {k : Nat} {ok : Bool} {w : Wiring} {n : Instance} {q : InFlight}
    (hm : s.nextMove = .seq k ok) (hn : s.inst? k = some (w, n)) (hq : n.sq = some q) :
    TStateStep s (seqStep s.moved k w n q ok) := by
  unfold seqStep
  cases hphase : q.phase with
  | enc | build => exact .setInst_kept hn rfl
  | wait =>
    dsimp only
    split
    · exact .moved s
    · exact .setInst_kept hn rfl
  | start =>
    dsimp only
    split
    · exact .moved s
    · rename_i hfree
      rw [State.moved_params]
      rcases startPhase_cases s.params n q.cmd ok with hkept | ⟨hdrawn, hon, hfront, hseq, hdpos⟩
      · exact .setInst_kept hn hkept
      · exact .event k w n _ hn (s.moved_setInst_insts k _)
          (.start q ok hm hq hphase hfree hdrawn hon hfront hseq hdpos)
  | finiWait =>
    dsimp only
    split
    · exact .moved s
    · rename_i hfree
      exact .event k w n _ hn (moved_teardown_insts ..) (.waited q ok hm hq hphase hfree rfl)

theorem seqMove_tstate {s : State} {k : Nat} {ok : Bool} (hm : s.nextMove = .seq k ok) :
    TStateStep s (seqMove k ok s.moved) := by
  unfold seqMove
  rw [State.moved_inst?]
  split
  · exact .moved s
  · rename_i w n hn
    split
    · exact .moved s
    · rename_i q hq
      exact seqStep_tstate hm hn hq

theorem abortMove_tstate {s : State} {k : Nat} {cut : Pair Nat} (hm : s.nextMove = .abort k cut) :
    TStateStep s (abortMove k cut s.moved) := by
  unfold abortMove
  rw [State.moved_inst?]
  split
  · exact .moved s
  · rename_i w n hn
    split
    · rename_i hq
      exact .event k w n _ hn (moved_teardown_insts ..) (.aborted _ cut hm hq rfl rfl rfl)
    · exact .moved s

theorem drainMove_tstate {s : State} {k : Nat} {e : DrainDraw} (hm : s.nextMove = .drain k e) :
    TStateStep s (drainMove k e s.moved) := by
  unfold drainMove
  rw [State.moved_inst?]
  split
  · exact .moved s
  · rename_i w n hn
    split
    · rename_i hon
      rw [State.moved_params]
      rcases drainInst_draw s.params n e with ⟨hgood, heq⟩ | ⟨hbad, hadmitted, herrpend, hxerr, hoff⟩
      · rw [heq]
        obtain ⟨hdpos, herrpend, hxerr, ⟨hlast, hoff, -⟩ | ⟨-, hkept⟩⟩ := drainGood_facts n
        · exact .event k w n _ hn (s.moved_setInst_insts k _)
            (.drained e hm hon hgood hlast hoff (hdpos.trans hlast) hxerr herrpend)
        · exact .setInst_kept hn hkept
      · exact .event k w n _ hn (s.moved_setInst_insts k _)
          (.failed e hm hon hbad hadmitted hoff herrpend hxerr)
    · exact .moved s

/-- Every step that answers next keeps the `TSTATE`s or is one of the events. -/
theorem step_tstate {s t : State} (h : step s = .next t) : TStateStep s t := by
  rw [step_eq] at h
  cases hm : s.nextMove with
  | host j => exact hostMove_tstate hm (by simpa only [hm, perform] using h)
  | seq k ok =>
    rw [hm] at h
    cases h
    exact seqMove_tstate hm
  | abort k cut =>
    rw [hm] at h
    cases h
    exact abortMove_tstate hm
  | drain k e =>
    rw [hm] at h
    cases h
    exact drainMove_tstate hm

/-- The same at one instance. -/
theorem TStateStep.at_inst {s t : State} {k : Nat} {w : Wiring} {n n' : Instance} (h : TStateStep s t)
    (hn : s.inst? k = some (w, n)) (hn' : t.inst? k = some (w, n')) :
    n'.tstate = n.tstate ∨ TStateEvent s k w n n' := by
  obtain ⟨-, hget⟩ := State.inst?_eq_some.mp hn
  obtain ⟨-, hget'⟩ := State.inst?_eq_some.mp hn'
  cases h with
  | kept hkept => exact .inl (hkept k n n' hget hget')
  | event j v m m' was hinsts by_ =>
    rw [hinsts] at hget'
    rcases get_set hget' with ⟨rfl, rfl⟩ | ⟨-, hsame⟩
    · rw [hn] at was
      cases was
      exact .inr by_
    · rw [hget] at hsame
      cases hsame
      exact .inl rfl

/-! ### What a consistent transport excludes -/

section
variable {p : Params} {n : Instance} {q : InFlight}

/-- No command is in flight in `UNINIT`. -/
theorem Instance.Consistent.up_of_flight (h : n.Consistent p) (hq : n.sq = some q) : n.tstate ≠ .uninit := by
  intro hu
  obtain ⟨hnone, -⟩ := h.uninit hu
  rw [hq] at hnone
  cases hnone

theorem Instance.Consistent.ready_of_flight (h : n.Consistent p) (hq : n.sq = some q)
    (hfree : n.tstate ≠ .transmitting) : n.tstate = .ready := by
  cases ht : n.tstate with
  | uninit => exact absurd ht (h.up_of_flight hq)
  | ready => rfl
  | transmitting => exact absurd ht hfree

theorem Instance.Consistent.cmd_of_finiWait (h : n.Consistent p) (hq : n.sq = some q) (hphase : q.phase = .finiWait) :
    q.cmd = .fini := (h.flight q hq).2.2.mpr hphase

theorem Instance.Consistent.cmd_of_start (h : n.Consistent p) (hq : n.sq = some q) (hphase : q.phase = .start) :
    q.cmd = .render ∨ q.cmd = .rendernb := by
  obtain ⟨-, hcmd, hfini⟩ := h.flight q hq
  have hne : q.cmd ≠ .fini := by simp [hfini, hphase]
  simpa [hne] using hcmd

end

theorem Instance.draining_iff {n : Instance} :
    n.draining = true ↔ n.tstate = .transmitting ∧ n.dpos < n.flen.get n.front := by simp [Instance.draining]

/-! ### The obligation -/

/-- Settles O50: a step keeps the `TSTATE` or is one of the events of `TStateEvent` (`step_tstate`), and each event is
that of its row of R330; the consistent transport gives the state and the command of a phase in flight. -/
theorem transportTransitions : Obligations.TransportTransitions := by
  intro s t k w n n' htransport hstep hn hn'
  have hcon : n.Consistent s.params := htransport.2 k w n hn
  rcases (step_tstate hstep).at_inst hn hn' with hkept | hevent
  · rw [hkept]
    cases n.tstate <;> exact trivial
  · cases hevent with
    | init issued idle uninit cross apart free up code =>
      rw [uninit, up]
      exact ⟨issued, idle, cross, apart, free, code⟩
    | fini issued idle ready down =>
      rw [ready, down]
      exact .inl ⟨issued, idle⟩
    | start q ok move flight at_ free drawn on front seq dpos =>
      rw [hcon.ready_of_flight flight free, on]
      exact ⟨⟨ok, move, drawn⟩, ⟨q, flight, at_, hcon.cmd_of_start flight at_⟩, front, seq, dpos⟩
    | waited q ok move flight at_ free down =>
      rw [hcon.ready_of_flight flight free, down]
      exact .inr ⟨⟨q, flight, hcon.cmd_of_finiWait flight at_, at_⟩, .inl ⟨ok, move⟩⟩
    | aborted q cut move flight at_ down code =>
      have hwait : ∃ q, n.sq = some q ∧ q.cmd = .fini ∧ q.phase = .finiWait :=
        ⟨q, flight, hcon.cmd_of_finiWait flight at_, at_⟩
      rw [down]
      cases ht : n.tstate with
      | uninit => exact trivial
      | ready => exact .inr ⟨hwait, .inr ⟨cut, move⟩⟩
      | transmitting => exact ⟨⟨cut, move⟩, hwait, code⟩
    | drained e move on good last off dpos xerr errpend =>
      obtain ⟨ht, hleft⟩ := Instance.draining_iff.mp on
      rw [ht, off]
      exact ⟨e, move, hleft, .inl ⟨good, last, dpos, xerr, errpend⟩⟩
    | failed e move on bad admitted off errpend xerr =>
      obtain ⟨ht, hleft⟩ := Instance.draining_iff.mp on
      have hword : n'.readReg .xerr ≠ 0 := fun h => by simp [xerr_word.mp h] at xerr
      rw [ht, off]
      exact ⟨e, move, hleft, .inr ⟨bad, admitted, errpend, hword⟩⟩

end Sys2Proof.Machine
end

section
/-! SUPPORT. The state after reset (70_reset_and_hazards.md R450). -/

namespace Sys2Proof.Machine

theorem mem_insts_resetWith {p : Params} {n : Instance} (hn : n ∈ (State.resetWith p).insts) : n = Instance.reset := by
  obtain ⟨-, -, rfl⟩ := List.mem_map.mp hn
  rfl

theorem Args.get_zero (i : ArgNo) : Args.zero.get i = 0 := by cases i <;> rfl

/-- Settles O49: every instance of `State.resetWith` is `Instance.reset`, whose pairs hold one value twice and whose empty
memories read as the reset contents. -/
theorem resetState : Obligations.ResetState := by
  intro p
  refine ⟨rfl, List.length_map _, fun n hn => ?_⟩
  cases mem_insts_resetWith hn
  have hchannel (c : Idx) : Instance.reset.ch.get c = .reset := Pair.get_both _ c
  have hgamma (c : Idx) : Instance.reset.gam.get c = [] := Pair.get_both _ c
  have hpixels (c : Idx) : Instance.reset.pix.get c = [] := Pair.get_both _ c
  have hbuffer (b : Idx) : Instance.reset.buf.get b = [] := Pair.get_both _ b
  refine ⟨rfl, rfl, rfl, rfl, Args.get_zero, rfl, rfl, rfl, fun c => ?_, fun c j _ => ?_, fun c i => ?_, rfl, rfl, rfl,
    fun b a => ?_, fun b => Pair.get_both _ b, rfl, rfl, fun t => Pair.get_both _ t⟩
  · rw [hchannel]
    exact ⟨rfl, rfl, rfl, rfl, rfl, rfl, rfl, rfl, rfl⟩
  · rw [hgamma, Memory.read_nil, identityTable]
  · rw [hpixels, Memory.read_nil, zeroFill]
  · rw [hbuffer, Memory.read_nil, zeroFill]

end Sys2Proof.Machine
end

section
/-! SUPPORT. Every step keeps the transport of every instance consistent (`Instance.Consistent`, `State.Transport`), and so
every state of a run has a consistent transport. -/

namespace Sys2Proof.Machine

/-! ### What the parameters give -/

theorem resetSub_pos {p : Params} {r : Channel} (hp : p.wf = true) (hf : r.freq.toNat ∈ p.freqSet) : 0 < resetSub p r := by
  simp only [Params.wf, Params.codesOk, Bool.and_eq_true, decide_eq_true_eq, List.all_eq_true] at hp
  have hfreq := hp.1.1.1.2 _ hf
  have hus : 0 < p.resetUs := by omega
  have hlen : 0 < p.symLen := by omega
  have hprod : 0 < p.resetUs * r.freq.toNat * p.symLen := by positivity
  rw [resetSub, ceilDiv_eq]
  omega

theorem Params.maxPixels_pos {p : Params} (hp : p.wf = true) : 0 < p.maxPixels := by
  simp only [Params.wf, Bool.and_eq_true, decide_eq_true_eq] at hp
  omega

theorem resetGap_ne_nil {p : Params} {r : Channel} (hp : p.wf = true) (hf : r.freq.toNat ∈ p.freqSet) :
    resetGap p r ≠ [] := by
  simpa [resetGap] using (resetSub_pos hp hf).ne'

/-! ### Channel records -/

/-- A write lists no index but its own and those listed before. -/
theorem Memory.mem_write {w : Nat} {d : Nat → BitVec w} {m : Memory w} {a : Nat} {v : BitVec w} {e : Nat × BitVec w}
    (he : e ∈ Memory.write d m a v) : e.1 = a ∨ e ∈ m := by
  have hcons {m : Memory w} (he : e ∈ Memory.cons d a v m) : e.1 = a ∨ e ∈ m := by
    unfold Memory.cons at he
    split at he
    · exact .inr he
    · rcases List.mem_cons.mp he with rfl | he
      · exact .inl rfl
      · exact .inr he
  induction m with
  | nil => exact hcons he
  | cons b m ih =>
    simp only [Memory.write] at he
    split at he
    · exact hcons he
    · split at he
      · rcases hcons he with h | h
        · exact .inl h
        · exact .inr (.tail _ h)
      · rcases List.mem_cons.mp he with rfl | he
        · exact .inr (.head _)
        · exact (ih he).imp id (.tail _)

section
variable {p : Params} {r : Channel} {m : Memory 32}

theorem Channel.ok.freq (h : r.ok p m) (hv : r.valid = true) : r.freq.toNat ∈ p.freqSet := by
  obtain ⟨-, h⟩ := h
  rw [if_pos hv] at h
  exact h.2.1

theorem Channel.ok.count_le (h : r.ok p m) : r.count.toNat ≤ p.maxPixels := by
  obtain ⟨-, h⟩ := h
  split at h
  · obtain ⟨-, -, -, -, -, hle⟩ := h
    exact hle
  · simp [h]

theorem Channel.ok.write {a : Nat} {v : Word} (h : r.ok p m) (ha : a < r.count.toNat) :
    r.ok p (Memory.write zeroFill m a v) := by
  refine ⟨fun e he => ?_, h.2⟩
  rcases Memory.mem_write he with rfl | he
  · exact ha
  · exact h.1 e he

/-- A record a `CFG` has validated (40_config.md R151). -/
theorem cfgRecord_ok {a : Args} (hp : p.wf = true) (hv : validate p a = none) : (cfgRecord p a).ok p [] := by
  obtain ⟨⟨t, hslot⟩, hfreq, hdma, hreserved, -, -, -, hstrip, hcount⟩ := validate_eq_none.mp hv
  have hmax : p.maxPixels < 2 ^ 24 := by
    simp only [Params.wf, Bool.and_eq_true, decide_eq_true_eq] at hp
    omega
  refine ⟨nofun, ?_⟩
  rw [if_pos (show (cfgRecord p a).valid = true from rfl)]
  refine ⟨by simp [cfgRecord, hslot], hfreq, hdma, hreserved, hstrip, ?_⟩
  simp only [cfgRecord, BitVec.extractLsb'_toNat, Nat.shiftRight_zero]
  omega

end

/-- One channel replaced in both its record and its pixels. -/
theorem channels_set {p : Params} {ch : Pair Channel} {pix : Pair (Memory 32)} {c : Idx} {r : Channel} {m : Memory 32}
    (h : ∀ d, (ch.get d).ok p (pix.get d)) (hc : r.ok p m) (d : Idx) : ((ch.set c r).get d).ok p ((pix.set c m).get d) := by
  by_cases hd : d = c
  · subst hd
    simpa using hc
  · rw [Pair.get_set_ne _ _ hd, Pair.get_set_ne _ _ hd]
    exact h d

theorem get_set_bright (ch : Pair Channel) (c : Idx) (b : Byte) (d : Idx) :
    ∃ b', (ch.set c { ch.get c with bright := b }).get d = { ch.get d with bright := b' } := by
  by_cases hd : d = c
  · subst hd
    exact ⟨b, Pair.get_set ..⟩
  · exact ⟨_, Pair.get_set_ne _ _ hd⟩

/-! ### The phases of a render -/

theorem firstPhase_ok (n : Instance) : (firstPhase n).ok n := by
  cases h0 : (n.ch.get .i0).valid with
  | true =>
    rw [firstPhase_eq h0 (by simp [Idx.toNat])]
    exact ⟨h0, .inl rfl, by simp [Idx.toNat]⟩
  | false =>
    have hbelow (d : Idx) (hd : d.toNat < Idx.i1.toNat) : (n.ch.get d).valid = false := by
      cases d with
      | i0 => exact h0
      | i1 => exact absurd hd (lt_irrefl _)
    cases h1 : (n.ch.get .i1).valid with
    | true =>
      rw [firstPhase_eq h1 hbelow]
      exact ⟨h1, .inl rfl, fun d hd hv => by simp [hbelow d hd] at hv⟩
    | false =>
      have hnone (d : Idx) : (n.ch.get d).valid = false := by cases d <;> assumption
      have hactive : n.active = [] := List.eq_nil_iff_forall_not_mem.mpr fun c hc => by
        simp [Instance.mem_active, hnone] at hc
      rw [firstPhase, hactive]
      exact fun d hv => by simp [hnone] at hv

/-- A phase in which the sequencer encodes or builds. -/
def Phase.encoding : Phase → Bool
  | .enc _ _ _ | .build _ => true
  | .wait | .start | .finiWait => false

theorem firstPhase_encoding (n : Instance) : (firstPhase n).encoding = true := by
  unfold firstPhase
  split <;> rfl

theorem nextPhase_encoding (p : Params) (n : Instance) (cs : List Idx) (acc : Pair (List Bool)) :
    (nextPhase p n cs acc).encoding = true := by
  induction cs generalizing acc with
  | nil => rfl
  | cons c cs ih =>
    unfold nextPhase
    split
    · split
      · exact ih _
      · rfl
    · exact ih _

theorem encPhase_encoding (p : Params) (n : Instance) (c : Idx) (i : Nat) (acc : Pair (List Bool)) :
    (encPhase p n c i acc).encoding = true := by
  rcases Nat.lt_trichotomy (i + 1) (n.ch.get c).count.toNat with h | h | h
  · rw [encPhase_more h]
    rfl
  · rw [encPhase_last h]
    exact nextPhase_encoding ..
  · rw [encPhase_empty (by omega)]
    exact nextPhase_encoding ..

/-- `next` after channel `c`, when the streams up to `c` are made. -/
theorem nextPhase_later_ok {p : Params} {n : Instance} {c : Idx} {acc : Pair (List Bool)}
    (hgap : ∀ d, (n.ch.get d).valid = true → resetGap p (n.ch.get d) ≠ [])
    (hacc : ∀ d, d.toNat ≤ c.toNat → (n.ch.get d).valid = true → acc.get d ≠ []) :
    (nextPhase p n (Idx.later c) acc).ok n := by
  cases c with
  | i1 => exact fun d => hacc d (by cases d <;> decide)
  | i0 =>
    have h0 := hacc .i0 le_rfl
    simp only [Idx.later, nextPhase]
    split
    · rename_i h1
      split
      · intro d hd
        cases d with
        | i0 => exact h0 hd
        | i1 => rw [Pair.get_set]; exact hgap .i1 h1
      · refine ⟨h1, .inl rfl, fun d hlt hd => ?_⟩
        cases d with
        | i0 => exact h0 hd
        | i1 => exact absurd hlt (lt_irrefl _)
    · rename_i h1
      intro d hd
      cases d with
      | i0 => exact h0 hd
      | i1 => exact absurd hd h1

theorem encPhase_ok {p : Params} {n : Instance} {c : Idx} {i : Nat} {acc : Pair (List Bool)}
    (hgap : ∀ d, (n.ch.get d).valid = true → resetGap p (n.ch.get d) ≠ [])
    (h : (Phase.enc c i acc).ok n) : (encPhase p n c i acc).ok n := by
  obtain ⟨hvalid, -, hacc⟩ := h
  have hset {l : List Bool} (hl : l ≠ []) (d : Idx) (hd : d.toNat ≤ c.toNat) (hv : (n.ch.get d).valid = true) :
      (acc.set c l).get d ≠ [] := by
    by_cases hdc : d = c
    · subst hdc
      rwa [Pair.get_set]
    · rw [Pair.get_set_ne _ _ hdc]
      refine hacc d ?_ hv
      cases d <;> cases c <;> simp_all [Idx.toNat]
  rcases Nat.lt_trichotomy (i + 1) (n.ch.get c).count.toNat with hi | hi | hi
  · rw [encPhase_more hi]
    refine ⟨hvalid, .inr hi, fun d hd hv => ?_⟩
    have hdc : d ≠ c := by rintro rfl; exact absurd hd (lt_irrefl _)
    rw [Pair.get_set_ne _ _ hdc]
    exact hacc d hd hv
  · rw [encPhase_last hi]
    exact nextPhase_later_ok hgap (hset (by simp [hgap c hvalid]))
  · rw [encPhase_empty (by omega)]
    exact nextPhase_later_ok hgap (hset (by simp [hgap c hvalid]))

/-- A frame of streams that are not empty has a word-step. -/
theorem frameSteps_pos {n : Instance} {acc : Pair (List Bool)} (hcross : crossValid n = true)
    (h : (Phase.build acc).ok n) : 0 < frameSteps n acc := by
  obtain ⟨⟨c, hc⟩, -⟩ := crossValid_iff.mp hcross
  have hpos : 0 < (acc.get c).length := List.length_pos_iff.mpr (h c hc)
  have hle := frameSteps_ge (acc := acc) hc
  omega

/-! ### The invariant -/

section
variable {p : Params} {n : Instance}

theorem Instance.reset_consistent (p : Params) (c : Code) (out : Pair (List Bool)) :
    Instance.Consistent p { Instance.reset with resultCode := c, emitted := out } where
  channels d := by cases d <;> exact ⟨nofun, rfl⟩
  uninit _ := ⟨rfl, rfl, rfl, rfl, rfl, rfl, rfl, rfl, rfl, rfl⟩
  configured h := absurd rfl h
  transmitting := nofun
  ready := nofun
  pending := nofun
  flight := nofun

theorem Instance.Consistent.gap_ne_nil (h : n.Consistent p) (hp : p.wf = true) (d : Idx)
    (hd : (n.ch.get d).valid = true) : resetGap p (n.ch.get d) ≠ [] := resetGap_ne_nil hp ((h.channels d).freq hd)

/-- The end of a command leaves the transport as it is. -/
theorem Instance.Consistent.finish (h : n.Consistent p) (c : Code) : (n.finish c).Consistent p where
  channels := h.channels
  uninit hu := ⟨rfl, (h.uninit hu).2⟩
  configured := h.configured
  transmitting := h.transmitting
  ready := h.ready
  pending := h.pending
  flight := nofun

/-- A render's or a `FINI`'s command in flight, out of `UNINIT`. -/
theorem Instance.Consistent.withFlight (h : n.Consistent p) (hu : n.tstate ≠ .uninit) {q : InFlight}
    (hphase : q.phase.ok n) (hcmd : q.cmd = .render ∨ q.cmd = .rendernb ∨ q.cmd = .fini)
    (hfini : q.cmd = .fini ↔ q.phase = .finiWait) : Instance.Consistent p { n with sq := some q } where
  channels := h.channels
  uninit hu' := absurd hu' hu
  configured := h.configured
  transmitting := h.transmitting
  ready := h.ready
  pending := h.pending
  flight q' hq' := by
    cases hq'
    exact ⟨phase_congr (fun _ => ⟨rfl, rfl⟩) rfl rfl hphase, hcmd, hfini⟩

theorem Instance.Consistent.toPhase (h : n.Consistent p) {q : InFlight} {ph : Phase} (hq : n.sq = some q)
    (hph : ph.ok n) (hheld : q.phase ≠ .finiWait) (hnew : ph ≠ .finiWait) : (n.toPhase q ph).Consistent p := by
  obtain ⟨-, hcmd, hfini⟩ := h.flight q hq
  exact h.withFlight (h.up_of_flight hq) hph hcmd (iff_of_false (by rwa [hfini]) hnew)

theorem Instance.Consistent.bright (h : n.Consistent p) (c : Idx) (b : Byte) (idle : n.sq = none) :
    Instance.Consistent p { n with ch := n.ch.set c { n.ch.get c with bright := b } } := by
  have hch := get_set_bright n.ch c b
  obtain ⟨hcross, hover, -⟩ := cross_congr (n := n)
    (m := { n with ch := n.ch.set c { n.ch.get c with bright := b } })
    (fun d => by obtain ⟨b', hd⟩ := hch d; simp [hd])
  exact {
    channels := fun d => by
      obtain ⟨b', hd⟩ := hch d
      rw [hd]
      exact h.channels d
    uninit := h.uninit
    configured := fun hu => by rw [hcross, hover]; exact h.configured hu
    transmitting := h.transmitting
    ready := fun hr => (h.ready hr).trans
      (idleLines_of fun d => by obtain ⟨b', hd⟩ := hch d; simp [hd]).symm
    pending := h.pending
    flight := fun q hq => by rw [idle] at hq; cases hq }

theorem Instance.Consistent.cfg (h : n.Consistent p) (hp : p.wf = true) (c : Idx) (idle : n.sq = none)
    (uninit : n.tstate = .uninit) (valid : validate p n.args = none) :
    Instance.Consistent p { n with ch := n.ch.set c (cfgRecord p n.args), pix := n.pix.set c [] } where
  channels := channels_set h.channels (cfgRecord_ok hp valid)
  uninit := h.uninit
  configured hu := absurd uninit hu
  transmitting ht := by simp [uninit] at ht
  ready hr := by simp [uninit] at hr
  pending := h.pending
  flight q hq := by simp [idle] at hq

theorem Instance.Consistent.poll (h : n.Consistent p) {r : Word} {e : Bool} (told : e = n.errpend ∨ e = false)
    (up : n.tstate ≠ .uninit) : Instance.Consistent p { n with result := r, errpend := e } where
  channels := h.channels
  uninit hu := absurd hu up
  configured := h.configured
  transmitting ht := by
    obtain ⟨hseq, hxerr, herrpend, hdpos⟩ := h.transmitting ht
    exact ⟨hseq, hxerr, by simpa [herrpend] using told, hdpos⟩
  ready := h.ready
  pending he := by
    rcases told with rfl | rfl
    · exact h.pending he
    · cases he
  flight := h.flight

theorem Instance.Consistent.pixwr (h : n.Consistent p) {c : Idx} {i : Nat} (below : i < (n.ch.get c).count.toNat) :
    Instance.Consistent p { n with pix := n.pix.set c (Memory.write zeroFill (n.pix.get c) i n.pdata) } where
  channels d := by
    by_cases hd : d = c
    · subst hd
      simpa using (h.channels d).write below
    · simpa [Pair.get_set_ne _ _ hd] using h.channels d
  uninit := h.uninit
  configured := h.configured
  transmitting := h.transmitting
  ready := h.ready
  pending := h.pending
  flight := h.flight

theorem Instance.Consistent.build (h : n.Consistent p) {q : InFlight} {acc : Pair (List Bool)} (hq : n.sq = some q)
    (hph : q.phase = .build acc) : ((buildFrame n acc).toPhase q .wait).Consistent p where
  channels := h.channels
  uninit hu := absurd hu (h.up_of_flight hq)
  configured := h.configured
  transmitting ht := by simpa [buildFrame, Instance.toPhase] using h.transmitting ht
  ready := h.ready
  pending := h.pending
  flight q' hq' := by
    obtain ⟨hok, hcmd, hfini⟩ := h.flight q hq
    rw [hph] at hok hfini
    cases hq'
    refine ⟨?_, hcmd, by simpa using hfini⟩
    simpa [Phase.ok, buildFrame, Instance.toPhase] using frameSteps_pos (h.configured (h.up_of_flight hq)).1 hok

theorem Instance.Consistent.startFrame (h : n.Consistent p) {blocking ok : Bool} (up : n.tstate ≠ .uninit)
    (free : n.tstate ≠ .transmitting) (hlen : 0 < n.flen.get n.front.other) (herr : n.errpend = false) :
    (startFrame p n blocking ok).Consistent p := by
  have hstarted (r : Word) (c : Code) : Instance.Consistent p
      { n with front := n.front.other, seq := nextSeq n.seq, xerr := .none, tstate := .transmitting, dpos := 0,
               sq := none, result := r, resultCode := c } :=
    { channels := h.channels
      uninit := nofun
      configured := fun _ => h.configured up
      transmitting := fun _ => ⟨nextSeq_ne _, rfl, herr, hlen⟩
      ready := nofun
      pending := fun he => by simp [herr] at he
      flight := nofun }
  have hrefused (e : Bool) (r : Word) (c : Code) : Instance.Consistent p
      { n with front := n.front.other, seq := nextSeq n.seq, xerr := { Xerr.none with startFail := true }, errpend := e,
               sq := none, result := r, resultCode := c } :=
    { channels := h.channels
      uninit := fun hu => absurd hu up
      configured := h.configured
      transmitting := fun ht => absurd ht free
      ready := h.ready
      pending := fun _ => rfl
      flight := nofun }
  unfold Machine.startFrame
  dsimp only
  split
  · split <;> exact hstarted _ _
  · split <;> exact hrefused _ _ _

theorem Instance.Consistent.startPhase (h : n.Consistent p) {q : InFlight} (ok : Bool) (hq : n.sq = some q)
    (hph : q.phase = .start) (free : n.tstate ≠ .transmitting) : (startPhase p n q.cmd ok).Consistent p := by
  have hup := h.up_of_flight hq
  obtain ⟨hlen, -⟩ := h.flight q hq
  rw [hph] at hlen
  unfold Machine.startPhase
  split
  · exact Instance.Consistent.finish (n := { n with errpend := false })
      { h with
        uninit := fun hu => absurd hu hup
        transmitting := fun ht => absurd ht free
        pending := nofun } _
  · rename_i herr
    exact h.startFrame hup free hlen (by simpa using herr)

/-- A word-step ends the transmission, with an error's kind in `XERR` if it reports one, or the frame goes on (R320-R322). -/
theorem drainInst_outcome (p : Params) (e : DrainDraw) (on : n.draining = true) :
    (drainInst p n e).tstate = .ready ∧ (drainInst p n e).line = n.idleLines
        ∧ ((drainInst p n e).errpend = n.errpend ∨ (drainInst p n e).xerr.any = true)
      ∨ (drainInst p n e).tstate = .transmitting ∧ (drainInst p n e).errpend = n.errpend
        ∧ (drainInst p n e).xerr = n.xerr ∧ (drainInst p n e).dpos = n.dpos + 1 ∧ n.dpos + 1 < n.flen.get n.front := by
  obtain ⟨ht, hleft⟩ := Instance.draining_iff.mp on
  rcases drainInst_cases p n e with hgood | ⟨-, hany, hready, hline⟩
  · rw [hgood]
    obtain ⟨hdpos, herr, hxerr, ⟨-, hready, hline⟩ | ⟨hmore, hkept⟩⟩ := drainGood_facts n
    · exact .inl ⟨hready, hline, .inl herr⟩
    · exact .inr ⟨hkept.trans ht, herr, hxerr, hdpos, by omega⟩
  · exact .inl ⟨hready, hline, .inr hany⟩

theorem Instance.Consistent.drain (h : n.Consistent p) (e : DrainDraw) (on : n.draining = true) :
    (drainInst p n e).Consistent p := by
  obtain ⟨ht, -⟩ := Instance.draining_iff.mp on
  obtain ⟨hseq, hxerr, herr, -⟩ := h.transmitting ht
  obtain ⟨hch, -, hpix, -, hflen, hfront, hseq', hsq, -⟩ := drainInst_frame p n e
  have hchannels (c : Idx) : ((drainInst p n e).ch.get c).ok p ((drainInst p n e).pix.get c) := by
    rw [hch, hpix]
    exact h.channels c
  have hconfigured : crossValid (drainInst p n e) = true ∧ overlaps (drainInst p n e) = false := by
    obtain ⟨hcross, hover, -⟩ := cross_congr (n := n) (m := drainInst p n e) (fun c => by simp [hch])
    rw [hcross, hover]
    exact h.configured (by simp [ht])
  have hflight (q : InFlight) (hq : (drainInst p n e).sq = some q) : q.phase.ok (drainInst p n e)
      ∧ (q.cmd = .render ∨ q.cmd = .rendernb ∨ q.cmd = .fini) ∧ (q.cmd = .fini ↔ q.phase = .finiWait) :=
    (h.flight q (hsq ▸ hq)).imp_left (phase_congr (fun c => by simp [hch]) hflen hfront)
  rcases drainInst_outcome p e on with ⟨hready, hline, htold⟩ | ⟨hon, herr', hxerr', hdpos, hmore⟩
  · exact {
      channels := hchannels
      uninit := fun hu => by simp [hready] at hu
      configured := fun _ => hconfigured
      transmitting := fun ht' => by simp [hready] at ht'
      ready := fun _ => hline.trans (Instance.idleLines_congr hch).symm
      pending := fun he => by
        rcases htold with herr' | hany
        · simp [herr', herr] at he
        · exact hany
      flight := hflight }
  · exact {
      channels := hchannels
      uninit := fun hu => by simp [hon] at hu
      configured := fun _ => hconfigured
      transmitting := fun _ => ⟨hseq' ▸ hseq, hxerr'.trans hxerr, herr'.trans herr, by rwa [hflen, hfront, hdpos]⟩
      ready := fun hr => by simp [hon] at hr
      pending := fun he => by simp [herr', herr] at he
      flight := hflight }

/-- A successful `INIT` (44_transport.md R280). -/
theorem Instance.Consistent.init (h : n.Consistent p) (idle : n.sq = none)
    (cross : crossValid n = true) (apart : overlaps n = false) (mux : List (Nat × Nat)) :
    Instance.Consistent p { n with tstate := .ready, line := n.idleLines, mux := mux } where
  channels := h.channels
  uninit := nofun
  configured _ := ⟨cross, apart⟩
  transmitting := nofun
  ready _ := rfl
  pending := h.pending
  flight q hq := by simp [idle] at hq

/-- Whatever becomes of one instance while the claims stay. -/
theorem LocalStep.consistent {n' : Instance} (hp : p.wf = true) (h : n.Consistent p) (hstep : LocalStep p n n') :
    n'.Consistent p := by
  cases hstep with
  | same => exact h
  | code c idle => exact h.finish c
  | cfg c idle uninit valid => exact (h.cfg hp c idle uninit valid).finish _
  | bright c b idle => exact (h.bright c b idle).finish _
  | gamma c j v idle =>
    have hg : Instance.Consistent p
        { n with gam := n.gam.set c (Memory.write identityTable (n.gam.get c) j.toNat v) } := { h with }
    exact hg.finish _
  | issue cmd render idle up =>
    have hcmd : cmd ≠ .fini := by rcases render with rfl | rfl <;> nofun
    have hph : firstPhase n ≠ .finiWait := fun he => by simpa [he, Phase.encoding] using firstPhase_encoding n
    exact h.withFlight up (firstPhase_ok n) (by tauto) (iff_of_false hcmd hph)
  | poll r e told idle up => exact (h.poll told up).finish _
  | finiWait idle busy => exact h.withFlight (by simp [busy]) trivial (.inr (.inr rfl)) (iff_of_true rfl rfl)
  | port r c => exact { h with }
  | pixwr c i below => exact { h.pixwr below with }
  | regs a v => exact { h with }
  | enc q c i acc flight at_ =>
    have hok := at_ ▸ (h.flight q flight).1
    have hph : encPhase p n c i acc ≠ .finiWait := fun he => by
      simpa [he, Phase.encoding] using encPhase_encoding p n c i acc
    exact h.toPhase flight (encPhase_ok (h.gap_ne_nil hp) hok) (by simp [at_]) hph
  | build q acc flight at_ => exact h.build flight at_
  | waited q flight at_ free =>
    have hok := at_ ▸ (h.flight q flight).1
    exact h.toPhase flight hok (by simp [at_]) nofun
  | start q ok flight at_ free => exact h.startPhase ok flight at_ free
  | drain e on => exact h.drain e on

end

theorem Became.consistent {s : State} {k : Nat} {n n' : Instance} (hp : s.params.wf = true)
    (h : n.Consistent s.params) (hb : Became s k n n') : n'.Consistent s.params := by
  cases hb with
  | same heq => exact heq ▸ h
  | loc w _ hstep => exact hstep.consistent hp h
  | init w _ idle _ cross apart heq => exact heq ▸ (h.init idle cross apart _).finish _
  | down w _ c out _ _ heq => exact heq ▸ Instance.reset_consistent s.params c out

/-- The instance a step answers with was there before the step. -/
theorem step_inst_before {s t : State} (hstep : step s = .next t) {k : Nat} {w : Wiring} {n' : Instance}
    (hn' : t.inst? k = some (w, n')) : ∃ n, s.inst? k = some (w, n) := by
  have hsys := step_sys hstep
  obtain ⟨hw, hget'⟩ := State.inst?_eq_some.mp hn'
  obtain ⟨n, hget⟩ := hsys.found hget'
  exact ⟨n, State.inst?_eq_some.mpr ⟨hsys.params_eq ▸ hw, hget⟩⟩

/-- An instance is still there after a step. -/
theorem step_inst_after {s t : State} (hstep : step s = .next t) {k : Nat} {w : Wiring} {n : Instance}
    (hn : s.inst? k = some (w, n)) : ∃ n', t.inst? k = some (w, n') := by
  have hsys := step_sys hstep
  obtain ⟨hw, hget⟩ := State.inst?_eq_some.mp hn
  obtain ⟨hk, -⟩ := List.getElem?_eq_some_iff.mp hget
  refine ⟨t.insts[k]'(hsys.length_eq ▸ hk), State.inst?_eq_some.mpr ⟨hsys.params_eq ▸ hw, ?_⟩⟩
  exact List.getElem?_eq_getElem _

theorem step_became {s t : State} (hstep : step s = .next t) {k : Nat} {w : Wiring} {n n' : Instance}
    (hn : s.inst? k = some (w, n)) (hn' : t.inst? k = some (w, n')) : Became s k n n' :=
  (step_sys hstep).became (State.inst?_eq_some.mp hn).2 (State.inst?_eq_some.mp hn').2

theorem step_keeps_transport {s t : State} (h : s.Transport) (hstep : step s = .next t) : t.Transport := by
  obtain ⟨hp, hcon⟩ := h
  have hparams := (step_sys hstep).params_eq
  refine ⟨hparams ▸ hp, fun k w n' hn' => ?_⟩
  obtain ⟨n, hn⟩ := step_inst_before hstep hn'
  rw [hparams]
  exact (step_became hstep hn hn').consistent hp (hcon k w n hn)

end Sys2Proof.Machine
end

section
/-! SUPPORT. Runs under weak fairness (70_reset_and_hazards.md R470): an agent that stays enabled takes steps without end, what
its steps do to a busy and to a transmitting instance, and the progress these give. -/

namespace Sys2Proof.Machine

/-! ### Runs from a later state -/

theorem IsRun.drop {r : Nat → State} (h : IsRun r) (i : Nat) : IsRun fun d => r (i + d) := fun d => h (i + d)

theorem WeaklyFair.drop {enabled takes : State → Bool} {r : Nat → State} (h : WeaklyFair enabled takes r) (i : Nat) :
    WeaklyFair enabled takes fun d => r (i + d) := by
  intro d hen
  obtain ⟨j, hj, htakes⟩ := h (i + d) fun j hj => by
    obtain ⟨e, rfl⟩ := Nat.exists_eq_add_of_le hj
    rw [Nat.add_assoc]
    exact hen (d + e) (Nat.le_add_right d e)
  obtain ⟨e, rfl⟩ := Nat.exists_eq_add_of_le hj
  rw [Nat.add_assoc] at htakes
  exact ⟨d + e, Nat.le_add_right d e, htakes⟩

theorem FairRun.drop {r : Nat → State} (h : FairRun r) (i : Nat) : FairRun fun d => r (i + d) :=
  fun k => ⟨(h k).1.drop i, (h k).2.drop i⟩

theorem IsRun.transport {r : Nat → State} (h : IsRun r) (h0 : (r 0).Transport) (i : Nat) : (r i).Transport := by
  induction i with
  | zero => exact h0
  | succ i ih => exact step_keeps_transport ih (h i)

theorem IsRun.params_eq {r : Nat → State} (h : IsRun r) (i : Nat) : (r i).params = (r 0).params := by
  induction i with
  | zero => rfl
  | succ i ih => exact (step_sys (h i)).params_eq.trans ih

/-- Instance `k` of a run is `n d` after `d` steps. -/
def Tracks (r : Nat → State) (k : Nat) (w : Wiring) (n : Nat → Instance) : Prop := ∀ d, (r d).inst? k = some (w, n d)

theorem IsRun.exists_tracks {r : Nat → State} (h : IsRun r) {k : Nat} {w : Wiring} {n : Instance}
    (hn : (r 0).inst? k = some (w, n)) : ∃ m, Tracks r k w m ∧ m 0 = n := by
  have hall (d : Nat) : ∃ m, (r d).inst? k = some (w, m) := by
    induction d with
    | zero => exact ⟨n, hn⟩
    | succ d ih =>
      obtain ⟨m, hm⟩ := ih
      exact step_inst_after (h d) hm
  choose m hm using hall
  refine ⟨m, hm, ?_⟩
  have h0 := hm 0
  rw [hn] at h0
  cases h0
  rfl

/-! ### Counting the steps an agent takes -/

/-- How many of the first `d` steps of a run are steps of the agent. -/
def stepsTaken (takes : State → Bool) (r : Nat → State) (d : Nat) : Nat := (List.range d).countP fun x => takes (r x)

theorem stepsTaken_succ (takes : State → Bool) (r : Nat → State) (d : Nat) :
    stepsTaken takes r (d + 1) = stepsTaken takes r d + (takes (r d)).toNat := by
  simp only [stepsTaken, List.range_succ, List.countP_append, List.countP_singleton]
  cases takes (r d) <;> rfl

theorem stepsTaken_mono (takes : State → Bool) (r : Nat → State) : Monotone (stepsTaken takes r) :=
  monotone_nat_of_le_succ fun d => by simp [stepsTaken_succ]

/-- An agent that is always enabled takes as many steps as one likes. -/
theorem WeaklyFair.exists_le_stepsTaken {enabled takes : State → Bool} {r : Nat → State} (h : WeaklyFair enabled takes r)
    (hen : ∀ d, enabled (r d) = true) (b : Nat) : ∃ d, b ≤ stepsTaken takes r d := by
  induction b with
  | zero => exact ⟨0, Nat.zero_le _⟩
  | succ b ih =>
    obtain ⟨d, hd⟩ := ih
    obtain ⟨j, hj, htakes⟩ := h d fun j _ => hen j
    have hmono : stepsTaken takes r d ≤ stepsTaken takes r j := stepsTaken_mono takes r hj
    refine ⟨j + 1, ?_⟩
    rw [stepsTaken_succ, htakes, Bool.toNat_true]
    omega

/-- Progress under weak fairness. While `P` holds the agent is enabled; a step reaches `Q`, or keeps `P` and the steps the
agent has left do not grow, and go down where it takes the step. Then `Q` is reached, by at most one step of the agent
more than it has left. -/
theorem WeaklyFair.progress {enabled takes : State → Bool} {r : Nat → State} (hfair : WeaklyFair enabled takes r)
    {P Q : Nat → Prop} {left : Nat → Nat} (h0 : P 0) (hen : ∀ d, P d → enabled (r d) = true)
    (hstep : ∀ d, P d → Q (d + 1) ∨ P (d + 1) ∧ left (d + 1) + (takes (r d)).toNat ≤ left d) :
    ∃ d, 0 < d ∧ Q d ∧ stepsTaken takes r d ≤ left 0 + 1 := by
  by_contra hnever
  have hinv (d : Nat) : P d ∧ left d + stepsTaken takes r d ≤ left 0 := by
    induction d with
    | zero => exact ⟨h0, le_rfl⟩
    | succ d ih =>
      obtain ⟨hP, hleft⟩ := ih
      have hone : (takes (r d)).toNat ≤ 1 := Bool.toNat_le _
      rcases hstep d hP with hQ | ⟨hP', hleft'⟩
      · exact absurd ⟨d + 1, Nat.succ_pos d, hQ, by rw [stepsTaken_succ]; omega⟩ hnever
      · exact ⟨hP', by rw [stepsTaken_succ]; omega⟩
  obtain ⟨d, hd⟩ := hfair.exists_le_stepsTaken (fun d => hen d (hinv d).1) (left 0 + 1)
  have := (hinv d).2
  omega

/-! ### The steps of the agents at one instance -/

theorem State.seqTakes_eq_true {s : State} {k : Nat} {w : Wiring} {n : Instance} (hn : s.inst? k = some (w, n))
    (h : s.seqTakes k = true) : (∃ ok, s.nextMove = .seq k ok ∧ n.seqReady = true)
      ∨ ∃ cut, s.nextMove = .abort k cut ∧ n.abortReady = true := by
  unfold State.seqTakes at h
  rw [hn] at h
  cases hm : s.nextMove with
  | host | drain => simp [hm] at h
  | seq j ok =>
    rw [hm] at h
    simp only [Bool.and_eq_true, beq_iff_eq] at h
    obtain ⟨rfl, hready⟩ := h
    exact .inl ⟨ok, rfl, hready⟩
  | abort j cut =>
    rw [hm] at h
    simp only [Bool.and_eq_true, beq_iff_eq] at h
    obtain ⟨rfl, hready⟩ := h
    exact .inr ⟨cut, rfl, hready⟩

theorem State.drainTakes_eq_true {s : State} {k : Nat} {w : Wiring} {n : Instance} (hn : s.inst? k = some (w, n))
    (h : s.drainTakes k = true) : ∃ e, s.nextMove = .drain k e ∧ n.draining = true := by
  unfold State.drainTakes at h
  rw [hn] at h
  cases hm : s.nextMove with
  | host | seq | abort => simp [hm] at h
  | drain j e =>
    rw [hm] at h
    simp only [Bool.and_eq_true, beq_iff_eq] at h
    obtain ⟨rfl, hready⟩ := h
    exact ⟨e, rfl, hready⟩

/-- What the sequencer's step makes of the instance, by the phase of the command in flight. -/
def AfterSeq (p : Params) (n : Instance) (q : InFlight) (n' : Instance) : Prop :=
  match q.phase with
  | .enc c i acc => n'.sq = some { q with phase := encPhase p n c i acc } ∧ n'.ch = n.ch
  | .build _ => n'.sq = some { q with phase := .wait }
  | .wait => n'.sq = some { q with phase := .start } ∧ n'.tstate ≠ .transmitting
  | .start => n'.sq = none
  | .finiWait => n'.sq = none ∧ n'.tstate = .uninit

section
variable {p : Params} {n n' : Instance} {q : InFlight}

theorem AfterSeq.enc {c : Idx} {i : Nat} {acc : Pair (List Bool)} (hph : q.phase = .enc c i acc) :
    AfterSeq p n q (n.toPhase q (encPhase p n c i acc)) := by
  rw [AfterSeq, hph]
  exact ⟨rfl, rfl⟩

theorem AfterSeq.build {acc : Pair (List Bool)} (hph : q.phase = .build acc) :
    AfterSeq p n q ((buildFrame n acc).toPhase q .wait) := by
  rw [AfterSeq, hph]
  exact rfl

theorem AfterSeq.waited (hph : q.phase = .wait) (free : n.tstate ≠ .transmitting) :
    AfterSeq p n q (n.toPhase q .start) := by
  rw [AfterSeq, hph]
  exact ⟨rfl, free⟩

theorem AfterSeq.start (hph : q.phase = .start) (ok : Bool) : AfterSeq p n q (startPhase p n q.cmd ok) := by
  obtain ⟨-, -, -, -, -, -, -, hsq⟩ := startPhase_frame p n q.cmd ok
  rw [AfterSeq, hph]
  exact hsq

theorem AfterSeq.down (hph : q.phase = .finiWait) (c : Code) (out : Pair (List Bool)) :
    AfterSeq p n q { Instance.reset with resultCode := c, emitted := out } := by
  rw [AfterSeq, hph]
  exact ⟨rfl, rfl⟩

theorem Instance.abortReady_iff (hq : n.sq = some q) : n.abortReady = true ↔ q.phase = .finiWait := by
  simp [Instance.abortReady, hq]

theorem Instance.seqReady_of_encoding (hq : n.sq = some q) (hph : q.phase.encoding = true) : n.seqReady = true := by
  cases hphase : q.phase <;> simp_all [Instance.seqReady, Phase.encoding]

theorem Instance.seqReady_of_free (hq : n.sq = some q) (free : n.tstate ≠ .transmitting) : n.seqReady = true := by
  cases hphase : q.phase <;> simp [Instance.seqReady, hq, hphase, free]

theorem Instance.free_of_seqReady (hq : n.sq = some q) (hph : q.phase.encoding = false) (h : n.seqReady = true) :
    n.tstate ≠ .transmitting := by
  cases hphase : q.phase <;> simp_all [Instance.seqReady, Phase.encoding]

end

section
variable {s t : State} {k : Nat} {w : Wiring} {n n' : Instance} {q : InFlight}

theorem eq_of_setInst_inst? {m : Instance} (hn : s.inst? k = some (w, n)) (hn' : (s.setInst k m).inst? k = some (w, n')) :
    n' = m := by
  rw [State.setInst_inst?_self m hn] at hn'
  cases hn'
  rfl

theorem eq_of_teardown_inst? {m : Instance} {aborted : Bool} (hn : s.inst? k = some (w, n))
    (hn' : (teardown s k w m aborted).inst? k = some (w, n')) :
    ∃ c out, n' = { Instance.reset with resultCode := c, emitted := out } :=
  ⟨_, _, eq_of_setInst_inst? (s := { s with claims := _ }) hn hn'⟩

theorem seqStep_after {ok : Bool} (hn : s.inst? k = some (w, n)) (hq : n.sq = some q) (hready : n.seqReady = true)
    (hn' : (seqStep s k w n q ok).inst? k = some (w, n')) : AfterSeq s.params n q n' := by
  have hfree (hph : q.phase.encoding = false) := Instance.free_of_seqReady hq hph hready
  unfold seqStep at hn'
  cases hph : q.phase with
  | enc c i acc =>
    rw [hph] at hn'
    cases eq_of_setInst_inst? hn hn'
    exact .enc hph
  | build acc =>
    rw [hph] at hn'
    cases eq_of_setInst_inst? hn hn'
    exact .build hph
  | wait =>
    rw [hph] at hfree hn'
    dsimp only at hn'
    rw [if_neg (hfree rfl)] at hn'
    cases eq_of_setInst_inst? hn hn'
    exact .waited hph (hfree rfl)
  | start =>
    rw [hph] at hfree hn'
    dsimp only at hn'
    rw [if_neg (hfree rfl)] at hn'
    cases eq_of_setInst_inst? hn hn'
    exact .start hph ok
  | finiWait =>
    rw [hph] at hfree hn'
    dsimp only at hn'
    rw [if_neg (hfree rfl)] at hn'
    obtain ⟨c, out, rfl⟩ := eq_of_teardown_inst? hn hn'
    exact .down hph c out

/-- A step the sequencer takes, the abort among them. -/
theorem afterSeq_of_seqTakes (hn : s.inst? k = some (w, n)) (hn' : t.inst? k = some (w, n')) (hstep : step s = .next t)
    (hq : n.sq = some q) (htakes : s.seqTakes k = true) : AfterSeq s.params n q n' := by
  have hmoved : s.moved.inst? k = some (w, n) := (s.moved_inst? k).trans hn
  rw [step_eq] at hstep
  rcases State.seqTakes_eq_true hn htakes with ⟨ok, hm, hready⟩ | ⟨cut, hm, hready⟩
  · rw [hm] at hstep
    cases hstep
    rw [seqMove, hmoved] at hn'
    simp only [hq] at hn'
    exact s.moved_params ▸ seqStep_after hmoved hq hready hn'
  · rw [hm] at hstep
    cases hstep
    rw [abortMove_of_ready cut hmoved hready] at hn'
    obtain ⟨c, out, rfl⟩ := eq_of_teardown_inst? hmoved hn'
    exact .down ((Instance.abortReady_iff hq).mp hready) c out

/-- One step at a busy instance: the sequencer has taken its step, or the command in flight is where it was. -/
theorem busy_step (hn : s.inst? k = some (w, n)) (hn' : t.inst? k = some (w, n')) (hstep : step s = .next t)
    (hq : n.sq = some q) : AfterSeq s.params n q n'
      ∨ s.seqTakes k = false ∧ n'.sq = some q ∧ n'.ch = n.ch ∧ (n'.tstate = .transmitting → n.tstate = .transmitting) := by
  cases htakes : s.seqTakes k with
  | true => exact .inl (afterSeq_of_seqTakes hn hn' hstep hq htakes)
  | false =>
    have hidle : n.sq ≠ none := by simp [hq]
    cases step_became hstep hn hn' with
    | same heq => exact .inr ⟨rfl, heq ▸ hq, by rw [heq], by rw [heq]; exact id⟩
    | init _ _ idle => exact absurd idle hidle
    | down _ _ c out fini told heq =>
      rcases fini with ⟨idle, -⟩ | ⟨q', hq', hph⟩
      · exact absurd idle hidle
      · cases hq.symm.trans hq'
        exact .inl (heq ▸ .down hph c out)
    | loc _ _ hloc =>
      cases hloc with
      | same | port | pixwr | regs => exact .inr ⟨rfl, hq, rfl, id⟩
      | code | cfg | bright | gamma | issue | poll | finiWait => exact absurd ‹n.sq = none› hidle
      | drain e on =>
        obtain ⟨hch, -, -, -, -, -, -, hsq, -⟩ := drainInst_frame s.params n e
        exact .inr ⟨rfl, hsq.trans hq, hch, fun _ => (Instance.draining_iff.mp on).1⟩
      | enc q' c i acc flight at_ =>
        cases hq.symm.trans flight
        exact .inl (.enc at_)
      | build q' acc flight at_ =>
        cases hq.symm.trans flight
        exact .inl (.build at_)
      | waited q' flight at_ free =>
        cases hq.symm.trans flight
        exact .inl (.waited at_ free)
      | start q' ok flight at_ free =>
        cases hq.symm.trans flight
        exact .inl (.start at_ ok)

/-- One step at a transmitting instance: the transmission has ended, or it goes on with the same frame, and where the drain
takes the step, one word-step further. -/
theorem transmitting_step (hn : s.inst? k = some (w, n)) (hn' : t.inst? k = some (w, n')) (hstep : step s = .next t)
    (hon : n.tstate = .transmitting) : n'.tstate ≠ .transmitting ∨ n'.tstate = .transmitting
      ∧ n'.flen.get n'.front = n.flen.get n.front ∧ n.dpos + (s.drainTakes k).toNat ≤ n'.dpos := by
  have hdrain (e : DrainDraw) (on : n.draining = true) : (drainInst s.params n e).tstate ≠ .transmitting
      ∨ (drainInst s.params n e).tstate = .transmitting
        ∧ (drainInst s.params n e).flen.get (drainInst s.params n e).front = n.flen.get n.front
        ∧ n.dpos + 1 ≤ (drainInst s.params n e).dpos := by
    obtain ⟨-, -, -, -, hflen, hfront, -⟩ := drainInst_frame s.params n e
    rcases drainInst_outcome s.params e on with ⟨hready, -⟩ | ⟨hgoes, -, -, hdpos, -⟩
    · exact .inl (by simp [hready])
    · exact .inr ⟨hgoes, by rw [hflen, hfront], hdpos.ge⟩
  cases htakes : s.drainTakes k with
  | true =>
    obtain ⟨e, hm, hdraining⟩ := State.drainTakes_eq_true hn htakes
    have hmoved : s.moved.inst? k = some (w, n) := (s.moved_inst? k).trans hn
    rw [step_eq, hm] at hstep
    cases hstep
    simp only [drainMove, hmoved, hdraining, if_true, State.moved_params] at hn'
    cases eq_of_setInst_inst? hmoved hn'
    exact hdrain e hdraining
  | false =>
    cases step_became hstep hn hn' with
    | same heq =>
      subst heq
      exact .inr ⟨hon, rfl, le_rfl⟩
    | init _ _ _ uninit => simp [hon] at uninit
    | down _ _ c out _ _ heq => exact .inl (heq ▸ nofun)
    | loc _ _ hloc =>
      cases hloc with
      | same | code | cfg | bright | gamma | issue | poll | finiWait | port | pixwr | regs | enc =>
        exact .inr ⟨hon, rfl, le_rfl⟩
      | build q acc =>
        refine .inr ⟨hon, ?_, le_rfl⟩
        exact Pair.get_set_other ..
      | waited _ _ _ free | start _ _ _ _ free => exact absurd hon free
      | drain e on => exact (hdrain e on).imp_right fun ⟨h, hf, hd⟩ => ⟨h, hf, Nat.le_of_succ_le hd⟩

end
end Sys2Proof.Machine
end

section
/-! SUPPORT. The progress of R470 of 70_reset_and_hazards.md, ending by ending, and the end of a run (R471). -/

namespace Sys2Proof.Machine

/-! ### The steps an encode has left -/

/-- The sequencer steps up to the build step of a render in this phase: one for each pixel to come, and one for a first
channel without pixels (log 12). -/
def Phase.stepsLeft (n : Instance) : Phase → Nat
  | .enc c i _ => max 1 ((n.ch.get c).count.toNat - i) + ((Idx.later c).map fun d => (n.ch.get d).count.toNat).sum
  | .build _ | .wait | .start | .finiWait => 0

theorem Phase.stepsLeft_congr {n n' : Instance} (h : n'.ch = n.ch) (ph : Phase) : ph.stepsLeft n' = ph.stepsLeft n := by
  cases ph <;> simp only [Phase.stepsLeft, h]

theorem nextPhase_stepsLeft_le (p : Params) (n : Instance) (c : Idx) (acc : Pair (List Bool)) :
    (nextPhase p n (Idx.later c) acc).stepsLeft n ≤ ((Idx.later c).map fun d => (n.ch.get d).count.toNat).sum := by
  cases c with
  | i1 => exact Nat.zero_le _
  | i0 =>
    simp only [Idx.later, nextPhase]
    split
    · split
      · exact Nat.zero_le _
      · rename_i hcount
        have hpos : 0 < (n.ch.get .i1).count.toNat := by
          rw [Nat.pos_iff_ne_zero, ← BitVec.toNat_zero, Ne, BitVec.toNat_inj]
          exact hcount
        simp [Phase.stepsLeft, Idx.later]
        omega
    · exact Nat.zero_le _

/-- Each encode step is one of the steps left. -/
theorem encPhase_stepsLeft_lt (p : Params) (n : Instance) (c : Idx) (i : Nat) (acc : Pair (List Bool)) :
    (encPhase p n c i acc).stepsLeft n < (Phase.enc c i acc).stepsLeft n := by
  have hlater := nextPhase_stepsLeft_le p n c
  rcases Nat.lt_trichotomy (i + 1) (n.ch.get c).count.toNat with h | h | h
  · rw [encPhase_more h]
    simp only [Phase.stepsLeft]
    omega
  · rw [encPhase_last h]
    exact Nat.lt_of_le_of_lt (hlater _) (by simp only [Phase.stepsLeft]; omega)
  · rw [encPhase_empty (by omega)]
    exact Nat.lt_of_le_of_lt (hlater _) (by simp only [Phase.stepsLeft]; omega)

theorem Instance.Consistent.stepsLeft_le {p : Params} {n : Instance} (h : n.Consistent p) (hp : p.wf = true) (ph : Phase) :
    ph.stepsLeft n ≤ 2 * p.maxPixels := by
  have hcount (c : Idx) : (n.ch.get c).count.toNat ≤ p.maxPixels := (h.channels c).count_le
  have hpos := Params.maxPixels_pos hp
  cases ph with
  | enc c i acc =>
    have hc := hcount c
    have h1 := hcount .i1
    cases c <;> simp [Phase.stepsLeft, Idx.later] <;> omega
  | build | wait | start | finiWait => exact Nat.zero_le _

/-! ### Progress of one instance -/

/-- The steps left in the phase of the command in flight. -/
def Instance.phaseLeft (n : Instance) : Nat :=
  match n.sq with
  | some q => q.phase.stepsLeft n
  | none => 0

section
variable {r : Nat → State} {k : Nat} {w : Wiring} {n : Nat → Instance}

theorem Tracks.seqEnabled (ht : Tracks r k w n) {d : Nat} (h : (n d).seqReady = true) : (r d).seqEnabled k = true := by
  simp [State.seqEnabled, ht d, h]

theorem Tracks.drainEnabled (ht : Tracks r k w n) {d : Nat} (h : (n d).draining = true) : (r d).drainEnabled k = true := by
  simp [State.drainEnabled, ht d, h]

variable (hrun : IsRun r) (hfair : FairRun r) (hcon : (r 0).Transport) (ht : Tracks r k w n)
include hrun hfair hcon ht

theorem transmission_ends (hon : (n 0).tstate = .transmitting) : ∃ d, 0 < d ∧ (n d).tstate ≠ .transmitting
    ∧ stepsTaken (·.drainTakes k) r d ≤ (n 0).flen.get (n 0).front := by
  have hleft (d : Nat) (hd : (n d).tstate = .transmitting) : (n d).dpos < (n d).flen.get (n d).front := by
    obtain ⟨-, -, -, h⟩ := ((hrun.transport hcon d).2 k w _ (ht d)).transmitting hd
    exact h
  obtain ⟨d, hpos, hoff, hsteps⟩ := (hfair k).2.progress (P := fun d => (n d).tstate = .transmitting)
    (Q := fun d => (n d).tstate ≠ .transmitting) (left := fun d => (n d).flen.get (n d).front - 1 - (n d).dpos) hon
    (fun d hd => ht.drainEnabled (Instance.draining_iff.mpr ⟨hd, hleft d hd⟩))
    (fun d hd => (transmitting_step (ht d) (ht (d + 1)) (hrun d) hd).imp_right fun ⟨hd', hframe, hdpos⟩ => by
      have := hleft (d + 1) hd'
      exact ⟨hd', by omega⟩)
  have := hleft 0 hon
  exact ⟨d, hpos, hoff, by omega⟩

/-- No command in flight stays where it is: if every step left it there, the transmission would end, the sequencer would
stay enabled from there on, and by fairness would take its step. -/
theorem flight_moves_on {q : InFlight} (hq : (n 0).sq = some q) :
    ∃ d p m, 0 < d ∧ AfterSeq p m q (n d) := by
  by_contra hnever
  have hstep (d : Nat) (hd : (n d).sq = some q) : (r d).seqTakes k = false ∧ (n (d + 1)).sq = some q
      ∧ ((n (d + 1)).tstate = .transmitting → (n d).tstate = .transmitting) := by
    rcases busy_step (ht d) (ht (d + 1)) (hrun d) hd with hafter | ⟨htakes, hq', -, hoff⟩
    · exact absurd ⟨d + 1, _, n d, Nat.succ_pos d, hafter⟩ hnever
    · exact ⟨htakes, hq', hoff⟩
  have hstays (d : Nat) : (n d).sq = some q := by
    induction d with
    | zero => exact hq
    | succ d ih => exact (hstep d ih).2.1
  have hends : ∃ d, (n d).tstate ≠ .transmitting := by
    by_cases hon : (n 0).tstate = .transmitting
    · obtain ⟨d, -, hoff, -⟩ := transmission_ends hrun hfair hcon ht hon
      exact ⟨d, hoff⟩
    · exact ⟨0, hon⟩
  obtain ⟨d, hoff⟩ := hends
  have hfree (j : Nat) (hj : d ≤ j) : (n j).tstate ≠ .transmitting := by
    induction j, hj using Nat.le_induction with
    | base => exact hoff
    | succ j _ ih => exact mt (hstep j (hstays j)).2.2 ih
  obtain ⟨j, -, htakes⟩ := (hfair k).1 d fun j hj => ht.seqEnabled (Instance.seqReady_of_free (hstays j) (hfree j hj))
  have hnot := (hstep j (hstays j)).1
  simp [htakes] at hnot

omit hcon in
theorem encoding_ends {q : InFlight} (hq : (n 0).sq = some q) (hph : q.phase.encoding = true) :
    ∃ d, 0 < d ∧ (n d).sq = some { q with phase := .wait }
      ∧ stepsTaken (·.seqTakes k) r d ≤ q.phase.stepsLeft (n 0) + 1 := by
  have hleft (d : Nat) {ph : Phase} (hd : (n d).sq = some { q with phase := ph }) :
      (n d).phaseLeft = ph.stepsLeft (n d) := by simp [Instance.phaseLeft, hd]
  rw [← hleft 0 (ph := q.phase) hq]
  refine (hfair k).1.progress (P := fun d => ∃ ph, (n d).sq = some { q with phase := ph } ∧ ph.encoding = true)
    (Q := fun d => (n d).sq = some { q with phase := .wait }) (left := fun d => (n d).phaseLeft) ⟨q.phase, hq, hph⟩ ?_ ?_
  · rintro d ⟨ph, hd, henc⟩
    exact ht.seqEnabled (Instance.seqReady_of_encoding hd henc)
  · rintro d ⟨ph, hd, henc⟩
    rcases busy_step (ht d) (ht (d + 1)) (hrun d) hd with hafter | ⟨htakes, hd', hch, -⟩
    · cases ph with
      | enc c i acc =>
        obtain ⟨hd', hch⟩ := hafter
        have hlt := encPhase_stepsLeft_lt (r d).params (n d) c i acc
        refine .inr ⟨⟨_, hd', encPhase_encoding ..⟩, ?_⟩
        rw [hleft _ hd', hleft _ hd, Phase.stepsLeft_congr hch]
        have := Bool.toNat_le ((r d).seqTakes k)
        omega
      | build acc => exact .inl hafter
      | wait | start | finiWait => cases henc
    · refine .inr ⟨⟨ph, hd', henc⟩, ?_⟩
      rw [hleft _ hd', hleft _ hd, Phase.stepsLeft_congr hch, htakes]
      exact le_rfl

end

/-! ### The end of a run -/

/-- Of the instances only `j` changes, and no thread. -/
def State.OnlyAt (j : Nat) (s t : State) : Prop := t.hosts = s.hosts ∧ ∀ k, k ≠ j → t.inst? k = s.inst? k

section
variable (j : Nat) (s : State)

theorem State.OnlyAt.refl : s.OnlyAt j s := ⟨rfl, fun _ _ => rfl⟩

theorem State.OnlyAt.setInst (m : Instance) : s.OnlyAt j (s.setInst j m) := ⟨rfl, fun _ => State.setInst_inst?_ne m⟩

theorem State.OnlyAt.teardown (w : Wiring) (n : Instance) (aborted : Bool) : s.OnlyAt j (teardown s j w n aborted) :=
  ⟨rfl, fun _ hk => State.setInst_inst?_ne (s := { s with claims := _ }) _ hk⟩

end

theorem seqMove_onlyAt (j : Nat) (ok : Bool) (s : State) : s.OnlyAt j (seqMove j ok s) := by
  unfold seqMove
  split
  · exact .refl j s
  · split
    · exact .refl j s
    · unfold seqStep
      split
      · exact .setInst j s _
      · exact .setInst j s _
      · split
        · exact .refl j s
        · exact .setInst j s _
      · split
        · exact .refl j s
        · exact .setInst j s _
      · split
        · exact .refl j s
        · exact .teardown j s _ _ _

theorem abortMove_onlyAt (j : Nat) (cut : Pair Nat) (s : State) : s.OnlyAt j (abortMove j cut s) := by
  unfold abortMove
  split
  · exact .refl j s
  · split
    · exact .teardown j s _ _ _
    · exact .refl j s

theorem drainMove_onlyAt (j : Nat) (e : DrainDraw) (s : State) : s.OnlyAt j (drainMove j e s) := by
  unfold drainMove
  split
  · exact .refl j s
  · split
    · exact .setInst j s _
    · exact .refl j s

/-- No thread has an operation left and instance `k` has no step, so whatever agent moves, the instance stays as it is. -/
theorem step_of_ended {s : State} {k : Nat} {w : Wiring} {n : Instance} (hn : s.inst? k = some (w, n))
    (h : s.ended k = true) : ∃ t, step s = .next t ∧ t.hosts = s.hosts ∧ t.inst? k = some (w, n) := by
  obtain ⟨hq, hoff, hhosts⟩ := (State.ended_iff hn).mp h
  have hmoved : s.moved.inst? k = some (w, n) := (s.moved_inst? k).trans hn
  have hagent {j : Nat} {t : State} (ht : s.moved.OnlyAt j t) (hself : k = j → t = s.moved) :
      t.hosts = s.hosts ∧ t.inst? k = some (w, n) := by
    obtain ⟨hsame, hothers⟩ := ht
    refine ⟨hsame.trans s.moved_hosts, ?_⟩
    by_cases hj : k = j
    · rw [hself hj, hmoved]
    · rw [hothers k hj, hmoved]
  rw [step_eq]
  cases s.nextMove with
  | host i => exact ⟨_, hostMove_of_done i (by simpa using hhosts), s.moved_hosts, hmoved⟩
  | seq j ok =>
    refine ⟨_, rfl, hagent (seqMove_onlyAt j ok _) fun hj => ?_⟩
    exact seqMove_of_not_ready ok (hj ▸ hmoved) (by simp [Instance.seqReady, hq])
  | abort j cut =>
    refine ⟨_, rfl, hagent (abortMove_onlyAt j cut _) fun hj => ?_⟩
    exact abortMove_of_not_ready cut (hj ▸ hmoved) (by simp [Instance.abortReady, hq])
  | drain j e =>
    refine ⟨_, rfl, hagent (drainMove_onlyAt j e _) fun hj => ?_⟩
    exact drainMove_of_not_draining e (hj ▸ hmoved) (by simp [Instance.draining, hoff])

/-- Settles O51: the run from its state `i` on is fair and consistent again, and in it a transmission ends by
`transmission_ends`, an encode or build phase by `encoding_ends`, every other phase by `flight_moves_on`; after the end of a
run, `step_of_ended`. -/
theorem progressAndTheEndOfARun : Obligations.ProgressAndTheEndOfARun := by
  refine ⟨fun r i k w n hrun hfair hcon hn => ?progress, fun s k w n hn => ⟨State.ended_iff hn, fun h => ?ended⟩⟩
  case progress =>
    have hrun' := hrun.drop i
    have hfair' := hfair.drop i
    have hcon' : (r (i + 0)).Transport := hrun.transport hcon i
    have hsteps (takes : State → Nat → Bool) (d : Nat) :
        ((List.range (i + d - i)).countP fun x => takes (r (i + x)) k) = stepsTaken (takes · k) (fun d => r (i + d)) d := by
      rw [Nat.add_sub_cancel_left, stepsTaken]
    obtain ⟨m, ht, rfl⟩ := hrun'.exists_tracks hn
    have hreaches {d : Nat} (hd : 0 < d) : i < i + d ∧ (r (i + d)).inst? k = some (w, m d) :=
      ⟨Nat.lt_add_of_pos_right hd, ht d⟩
    refine ⟨fun hon => ?transmission, fun q hq => ?flight⟩
    case transmission =>
      obtain ⟨d, hd, hoff, hle⟩ := transmission_ends hrun' hfair' hcon' ht hon
      exact ⟨i + d, m d, hreaches hd, hoff, (hsteps _ d).trans_le hle⟩
    case flight =>
      obtain ⟨d, p, m', hd, hafter⟩ := flight_moves_on hrun' hfair' hcon' ht hq
      refine ⟨fun hph => ?_, fun hph => ?_, fun hph => ?_, fun hph => ?_⟩
      · rw [AfterSeq, hph] at hafter
        exact ⟨i + d, m d, hreaches hd, hafter⟩
      · have henc : q.phase.encoding = true := by
          rcases hph with ⟨c, x, acc, hph⟩ | ⟨acc, hph⟩ <;> rw [hph] <;> rfl
        obtain ⟨e, he, hwait, hle⟩ := encoding_ends hrun' hfair' ht hq henc
        have hbound : q.phase.stepsLeft (m 0) ≤ 2 * (r i).params.maxPixels :=
          (hcon'.2 k w _ hn).stepsLeft_le hcon'.1 q.phase
        exact ⟨i + e, m e, hreaches he, hwait, (hsteps _ e).trans_le (hle.trans (Nat.succ_le_succ hbound))⟩
      · rw [AfterSeq, hph] at hafter
        exact ⟨i + d, m d, hreaches hd, hafter⟩
      · rw [AfterSeq, hph] at hafter
        exact ⟨i + d, m d, hreaches hd, hafter⟩
  case ended =>
    obtain ⟨t, hstep, hhosts, hinst⟩ := step_of_ended hn h
    have hended : t.ended k = true := (State.ended_iff hinst).mpr (hhosts ▸ (State.ended_iff hn).mp h)
    exact ⟨t, n, hstep, hended, hinst, rfl⟩

end Sys2Proof.Machine
end

section
/-! SUPPORT. The decoder and the assembler (30_encoding.md R111 to R118): what a port makes of the fields of a word, which
commands it accepts, and which check it names. -/

namespace Sys2Proof

/-! ### Words put together from fields -/

theorem decode_of_rsv {port : Port} {v : Word} (h : rsvField v = 0) : decode port v = match port with
    | .main => decodeMain (opField v) (chField v) (immField v)
    | .pixel => decodePixel (opField v) (chField v) (immField v) := if_pos h

theorem decode_main_formatC (op : BitVec 4) (ch : BitVec 2) (imm : BitVec 24) :
    decode .main (formatC op ch imm) = decodeMain op ch imm := by
  rw [decode, rsvField_formatC, opField_formatC, chField_formatC, immField_formatC, if_pos rfl]

theorem decode_pixel_formatC (op : BitVec 4) (ch : BitVec 2) (imm : BitVec 24) :
    decode .pixel (formatC op ch imm) = decodePixel op ch imm := by
  rw [decode, rsvField_formatC, opField_formatC, chField_formatC, immField_formatC, if_pos rfl]

/-! ### The command a port accepts -/

theorem opcode_eq {op : BitVec 4} {x : Nat} (h : op.toNat = x) : op = BitVec.ofNat 4 x := by
  rw [← h, BitVec.ofNat_toNat, BitVec.setWidth_eq]

theorem whenZero_eq_ok {b : Bool} {i j : Instr} : whenZero b i = .ok j ↔ b = true ∧ i = j := by
  cases b <;> simp [whenZero]

theorem whenZero_eq_error {b : Bool} {i : Instr} {e : DecodeError} (h : whenZero b i = .error e) : e = .notZero := by
  cases b <;> simp_all [whenZero]

section
variable {op : BitVec 4} {ch : BitVec 2} {imm : BitVec 24} {i : Instr} {e : DecodeError}

/-- R114: a command the main port accepts assembles to the fields it was read from. -/
theorem decodeMain_ok (h : decodeMain op ch imm = .ok i) : i.port = .main ∧ encode i = formatC op ch imm := by
  unfold decodeMain at h
  split at h
  case h_1 hx =>
    obtain ⟨hz, rfl⟩ := whenZero_eq_ok.mp h
    exact ⟨rfl, by rw [opcode_eq hx, eq_of_beq hz]; rfl⟩
  case h_3 hx =>
    cases h
    exact ⟨rfl, by rw [opcode_eq hx]; rfl⟩
  case h_4 hx =>
    obtain ⟨hz, rfl⟩ := whenZero_eq_ok.mp h
    exact ⟨rfl, by rw [encode, imm_bytes imm (eq_of_beq hz), opcode_eq hx]; rfl⟩
  case h_9 => cases h
  all_goals
    rename_i hx
    obtain ⟨hz, rfl⟩ := whenZero_eq_ok.mp h
    obtain ⟨hch, himm⟩ := Bool.and_eq_true_iff.mp hz
    exact ⟨rfl, by rw [opcode_eq hx, eq_of_beq hch, eq_of_beq himm]; rfl⟩

/-- R115. -/
theorem decodePixel_ok (h : decodePixel op ch imm = .ok i) : i.port = .pixel ∧ encode i = formatC op ch imm := by
  unfold decodePixel at h
  split at h
  case h_1 hx => cases h; exact ⟨rfl, by rw [opcode_eq hx]; rfl⟩
  case h_2 hx => cases h; exact ⟨rfl, by rw [opcode_eq hx]; rfl⟩
  case h_3 hx =>
    obtain ⟨hz, rfl⟩ := whenZero_eq_ok.mp h
    exact ⟨rfl, by rw [opcode_eq hx, eq_of_beq hz]; rfl⟩
  case h_4 => cases h

/-! ### The check a port names -/

/-- R118 check 3 is the only one left for an opcode of the map. -/
theorem decodeMain_error (h1 : 1 ≤ op.toNat) (h8 : op.toNat ≤ 8) (h : decodeMain op ch imm = .error e) :
    e = .notZero := by
  unfold decodeMain at h
  split at h
  case h_3 => cases h
  case h_9 => simp only [imp_false] at *; omega
  all_goals exact whenZero_eq_error h

theorem decodePixel_error (h1 : 1 ≤ op.toNat) (h3 : op.toNat ≤ 3) (h : decodePixel op ch imm = .error e) :
    e = .notZero := by
  unfold decodePixel at h
  split at h
  case h_1 => cases h
  case h_2 => cases h
  case h_3 => exact whenZero_eq_error h
  case h_4 => simp only [imp_false] at *; omega

/-- R118 check 2. -/
theorem decodeMain_reserved (h : op.toNat = 0 ∨ 8 < op.toNat) : decodeMain op ch imm = .error .reservedOpcode := by
  unfold decodeMain
  split
  case h_9 => rfl
  all_goals omega

theorem decodePixel_reserved (h : op.toNat = 0 ∨ 3 < op.toNat) : decodePixel op ch imm = .error .reservedOpcode := by
  unfold decodePixel
  split
  case h_4 => rfl
  all_goals omega

end

/-- The last opcode of a port's map (R114, R115). -/
def Port.lastOp : Port → Nat
  | .main => 8
  | .pixel => 3

section
variable {port : Port} {v : Word}

theorem decode_reservedBits (h : rsvField v ≠ 0) : decode port v = .error .reservedBits := if_neg h

theorem decode_eq_ok {i : Instr} (h : decode port v = .ok i) : i.port = port ∧ encode i = v := by
  by_cases hrsv : rsvField v = 0
  case neg => simp [decode_reservedBits hrsv] at h
  case pos =>
    rw [decode_of_rsv hrsv] at h
    rw [← formatC_fields v hrsv]
    cases port with
    | main => exact decodeMain_ok h
    | pixel => exact decodePixel_ok h

theorem decode_reservedOpcode (hrsv : rsvField v = 0) (hop : (opField v).toNat = 0 ∨ port.lastOp < (opField v).toNat) :
    decode port v = .error .reservedOpcode := by
  rw [decode_of_rsv hrsv]
  cases port with
  | main => exact decodeMain_reserved hop
  | pixel => exact decodePixel_reserved hop

theorem decode_notZero (hrsv : rsvField v = 0) (h1 : 1 ≤ (opField v).toNat) (htop : (opField v).toNat ≤ port.lastOp)
    (hnone : ∀ i : Instr, i.port = port → encode i ≠ v) : decode port v = .error .notZero := by
  cases hd : decode port v with
  | ok i =>
    obtain ⟨hport, he⟩ := decode_eq_ok hd
    exact absurd he (hnone i hport)
  | error e =>
    rw [decode_of_rsv hrsv] at hd
    cases port with
    | main => rw [decodeMain_error h1 htop hd]
    | pixel => rw [decodePixel_error h1 htop hd]

end

/-! ### The obligations -/

/-- Settles O1: the decoder sees the fields the assembler has put together; of `GAMMAWR` they are the bytes of the
immediate (`bytes_imm`). -/
theorem decodeInvertsEncode : Obligations.DecodeInvertsEncode := by
  intro i
  cases i with
  | gammawr ch j v =>
    obtain ⟨hzero, hj, hv⟩ := bytes_imm j v
    calc decode .main (formatC 0x4 ch (0#8 ++ j ++ v)) = decodeMain 0x4 ch (0#8 ++ j ++ v) := decode_main_formatC ..
      _ = whenZero ((0#8 ++ j ++ v).extractLsb' 16 8 == 0)
          (.gammawr ch ((0#8 ++ j ++ v).extractLsb' 8 8) ((0#8 ++ j ++ v).extractLsb' 0 8)) := rfl
      _ = .ok (.gammawr ch j v) := by rw [hzero, hj, hv]; rfl
  | cfg | init | setbright | render | rendernb | poll | fini => exact decode_main_formatC ..
  | pixrd | pixwr | pixlen => exact decode_pixel_formatC ..

/-- Settles O2: an accepted word is the one its fields make, and those are the command's. -/
theorem encodeInvertsDecode : Obligations.EncodeInvertsDecode := fun _ _ _ => decode_eq_ok

/-- Settles O3: one lemma for each of the three checks. -/
theorem decodeChecksInOrder : Obligations.DecodeChecksInOrder := by
  intro port v top htop
  have hlast : top = port.lastOp := by cases port <;> exact htop
  subst hlast
  exact ⟨decode_reservedBits, decode_reservedOpcode, decode_notZero⟩

/-- Settles O4: each word is decoded to its command by evaluation. -/
theorem specWordsDecode : Obligations.SpecWordsDecode :=
  ⟨rfl, rfl, rfl, rfl, rfl, rfl, rfl, rfl, rfl, rfl, rfl⟩

end Sys2Proof
end

section
/-! SUPPORT. Every step keeps every memory in canonical form (log 10). -/

namespace Sys2Proof.Machine

section
variable {p : Params} {n m : Instance}

theorem Instance.memWf.congr (h : n.memWf) (hgam : m.gam = n.gam) (hpix : m.pix = n.pix) (hbuf : m.buf = n.buf) :
    m.memWf := by
  intro i
  rw [hgam, hpix, hbuf]
  exact h i

theorem Instance.reset_memWf (c : Code) (out : Pair (List Bool)) :
    Instance.memWf { Instance.reset with resultCode := c, emitted := out } := by
  intro i
  cases i <;> exact ⟨rfl, rfl, rfl⟩

/-- One gamma table, pixel RAM or buffer replaced by one in canonical form. -/
theorem Instance.memWf.setGam (h : n.memWf) (c : Idx) {g : Memory 8} (hg : Memory.wf identityTable g = true) :
    Instance.memWf { n with gam := n.gam.set c g } :=
  fun i => ⟨wf_set (fun j => (h j).1) hg i, (h i).2⟩

theorem Instance.memWf.setPix (h : n.memWf) (c : Idx) {x : Memory 32} (hx : Memory.wf zeroFill x = true) :
    Instance.memWf { n with pix := n.pix.set c x } :=
  fun i => ⟨(h i).1, wf_set (fun j => (h j).2.1) hx i, (h i).2.2⟩

theorem Instance.memWf.setBuf (h : n.memWf) (c : Idx) {x : Memory 32} (hx : Memory.wf zeroFill x = true) :
    Instance.memWf { n with buf := n.buf.set c x } :=
  fun i => ⟨(h i).1, (h i).2.1, wf_set (fun j => (h j).2.2) hx i⟩

/-- Of the steps of an instance `GAMMAWR`, `CFG`, `PIXWR` and the build step write a memory; a drain or a start step
writes none (`drainInst_frame`, `startPhase_frame`). -/
theorem LocalStep.memWf (hstep : LocalStep p n m) (h : n.memWf) : m.memWf := by
  cases hstep with
  | cfg c => exact (h.setPix c (Memory.wf_nil zeroFill)).congr rfl rfl rfl
  | gamma c j v => exact (h.setGam c (Memory.wf_write _ _ v (h c).1)).congr rfl rfl rfl
  | pixwr c i => exact (h.setPix c (Memory.wf_write _ i _ (h c).2.1)).congr rfl rfl rfl
  | build q acc =>
    exact (h.setBuf n.front.other (Memory.wf_writeAll _ (frameWords n acc) (h _).2.2)).congr rfl rfl rfl
  | start q ok =>
    obtain ⟨-, hgam, hpix, hbuf, -⟩ := startPhase_frame p n q.cmd ok
    exact h.congr hgam hpix hbuf
  | drain e =>
    obtain ⟨-, hgam, hpix, hbuf, -⟩ := drainInst_frame p n e
    exact h.congr hgam hpix hbuf
  | same | code | bright | issue | poll | finiWait | port | regs | enc | waited => exact h.congr rfl rfl rfl

end

theorem Became.memWf {s : State} {k : Nat} {n m : Instance} (hb : Became s k n m) (h : n.memWf) : m.memWf := by
  cases hb with
  | same heq => exact heq ▸ h
  | loc w _ hstep => exact hstep.memWf h
  | init w _ _ _ _ _ heq => exact heq ▸ h.congr rfl rfl rfl
  | down w _ c out _ _ heq => exact heq ▸ Instance.reset_memWf c out

/-- Settles O45: an instance a step answers with has become of one before it (`SysStep.became`), and whatever becomes of
an instance keeps its memories canonical (`Became.memWf`). -/
theorem stepKeepsMemoriesCanonical : Obligations.StepKeepsMemoriesCanonical := by
  intro s t h hstep m hm
  have hsys := step_sys hstep
  obtain ⟨k, hk⟩ := List.getElem?_of_mem hm
  obtain ⟨n, hn⟩ := hsys.found hk
  exact (hsys.became hn hk).memWf (h n (List.mem_of_getElem? hn))

/-- Settles O46: each step of an instance keeps `Instance.Consistent` (`Became.consistent`). -/
theorem stepKeepsTransportConsistent : Obligations.StepKeepsTransportConsistent :=
  fun _ _ => step_keeps_transport

end Sys2Proof.Machine
end

section
/-! SUPPORT. Every step keeps the claim registry right (10_state.md R60, 44_transport.md R284, R285, R318). -/

namespace Sys2Proof.Machine

/-! ### The instances after one was replaced -/

section
variable {s t : State} {j k : Nat} {v w : Wiring} {n m m' : Instance}

theorem inst?_of_set (hp : t.params = s.params) (hi : t.insts = s.insts.set k m) (j : Nat) :
    t.inst? j = (s.setInst k m).inst? j :=
  State.inst?_congr (s := s.setInst k m) hp hi j

theorem inst?_set_self (hp : t.params = s.params) (hi : t.insts = s.insts.set k m) (hn : s.inst? k = some (w, n)) :
    t.inst? k = some (w, m) :=
  (inst?_of_set hp hi k).trans (State.setInst_inst?_self m hn)

theorem inst?_set_ne (hp : t.params = s.params) (hi : t.insts = s.insts.set k m) (hj : j ≠ k) :
    t.inst? j = s.inst? j :=
  (inst?_of_set hp hi j).trans (State.setInst_inst?_ne m hj)

/-- An instance found after the replacement is the new one or one that was there. -/
theorem inst?_set_cases (hp : t.params = s.params) (hi : t.insts = s.insts.set k m) (hn : s.inst? k = some (w, n))
    (h : t.inst? j = some (v, m')) : (j = k ∧ v = w ∧ m' = m) ∨ (j ≠ k ∧ s.inst? j = some (v, m')) := by
  by_cases hj : j = k
  · subst hj
    rw [inst?_set_self hp hi hn] at h
    cases h
    exact .inl ⟨rfl, rfl, rfl⟩
  · exact .inr ⟨hj, inst?_set_ne hp hi hj ▸ h⟩

end

/-! ### Claims made -/

/-- Claims of unclaimed ids leave at most one pair for each id: an id named twice is claimed once (R285). -/
theorem addClaims_once {cs : List Claim} {ids : List ClaimId} {me : Nat} (hcs : cs.Pairwise fun a b => a.id ≠ b.id)
    (hmine : ∀ x ∈ cs, x.id ∈ ids → x.owner = me) : (addClaims cs ids me).Pairwise fun a b => a.id ≠ b.id := by
  unfold addClaims
  induction ids generalizing cs with
  | nil => exact hcs
  | cons i ids ih =>
    rw [List.foldl_cons]
    split
    · exact ih hcs fun x hx hid => hmine x hx (.tail _ hid)
    · rename_i hnew
      have hfree (x : Claim) (hx : x ∈ cs) : x.id ≠ i := by
        rintro rfl
        have hown := hmine x hx (.head _)
        exact hnew (by simpa [← hown] using hx)
      refine ih ?once fun x hx hid => ?mine
      case once => simpa [List.pairwise_append, hcs] using hfree
      case mine =>
        rcases List.mem_append.mp hx with hx | hx
        · exact hmine x hx (.tail _ hid)
        · rw [List.mem_singleton.mp hx]

theorem not_claimed {cs : List Claim} {ids : List ClaimId} (h : claimed cs ids = false) {x : Claim} (hx : x ∈ cs) :
    x.id ∉ ids :=
  fun hid => by simp [claimed_iff.mpr ⟨x, hx, hid⟩] at h

/-! ### The registry after each step of the system -/

section
variable {s t : State} {k : Nat} {w : Wiring} {n m : Instance}

/-- Two instances the system has under one identity are one (00_scope.md R11). -/
theorem State.ClaimsOk.index_unique (h : s.ClaimsOk) {j : Nat} {v : Wiring} {l : Instance}
    (hj : s.inst? j = some (v, l)) (hk : s.inst? k = some (w, n)) (hid : v.id = w.id) : j = k :=
  wiring_index_unique h.wiring (State.inst?_eq_some.mp hj).1 (State.inst?_eq_some.mp hk).1 hid

theorem State.ClaimsOk.congr (h : s.ClaimsOk) (hp : t.params = s.params) (hi : t.insts = s.insts)
    (hc : t.claims = s.claims) : t.ClaimsOk := by
  have hinst := State.inst?_congr hp hi
  exact {
    wiring := hp ▸ h.wiring
    wired := by rw [hi, hp, h.wired]
    once := hc ▸ h.once
    owned := fun x hx => by simpa only [hinst] using h.owned x (hc ▸ hx)
    held := fun j v l hl hup i hid => hc ▸ h.held j v l (hinst j ▸ hl) hup i hid }

/-- An instance that stays initialised, or stays in `UNINIT`, and keeps what `INIT` claims for it. -/
theorem State.ClaimsOk.inst (h : s.ClaimsOk) (hn : s.inst? k = some (w, n)) (hp : t.params = s.params)
    (hi : t.insts = s.insts.set k m) (hc : t.claims = s.claims) (hup : m.tstate = .uninit ↔ n.tstate = .uninit)
    (hids : n.tstate ≠ .uninit → claimSet w m = claimSet w n) : t.ClaimsOk where
  wiring := hp ▸ h.wiring
  wired := by rw [hi, hp, List.length_set, h.wired]
  once := hc ▸ h.once
  owned x hx := by
    obtain ⟨j, v, l, hl, hown, hlup, hid⟩ := h.owned x (hc ▸ hx)
    by_cases hj : j = k
    · subst hj
      rw [hn] at hl
      cases hl
      exact ⟨j, w, m, inst?_set_self hp hi hn, hown, mt hup.mp hlup, (hids hlup).symm ▸ hid⟩
    · exact ⟨j, v, l, (inst?_set_ne hp hi hj).trans hl, hown, hlup, hid⟩
  held j v l hl hlup i hid := by
    rw [hc]
    rcases inst?_set_cases hp hi hn hl with ⟨rfl, rfl, rfl⟩ | ⟨-, hl⟩
    · have hnup := mt hup.mpr hlup
      exact h.held j v n hn hnup i (hids hnup ▸ hid)
    · exact h.held j v l hl hlup i hid

/-- A successful `INIT` (R285). -/
theorem State.ClaimsOk.init (h : s.ClaimsOk) (hn : s.inst? k = some (w, n)) (hu : n.tstate = .uninit)
    (hfree : claimed s.claims (claimSet w n) = false) (hp : t.params = s.params) (hi : t.insts = s.insts.set k m)
    (hc : t.claims = addClaims s.claims (claimSet w n) w.id) (hup : m.tstate ≠ .uninit)
    (hids : claimSet w m = claimSet w n) : t.ClaimsOk where
  wiring := hp ▸ h.wiring
  wired := by rw [hi, hp, List.length_set, h.wired]
  once := hc ▸ addClaims_once h.once fun x hx hid => absurd hid (not_claimed hfree hx)
  owned x hx := by
    rw [hc, mem_addClaims] at hx
    rcases hx with hx | ⟨hown, hid⟩
    · obtain ⟨j, v, l, hl, hown, hlup, hid⟩ := h.owned x hx
      have hj : j ≠ k := by
        rintro rfl
        rw [hn] at hl
        cases hl
        exact hlup hu
      exact ⟨j, v, l, (inst?_set_ne hp hi hj).trans hl, hown, hlup, hid⟩
    · exact ⟨k, w, m, inst?_set_self hp hi hn, hown, hup, hids.symm ▸ hid⟩
  held j v l hl hlup i hid := by
    rw [hc, mem_addClaims]
    rcases inst?_set_cases hp hi hn hl with ⟨rfl, rfl, rfl⟩ | ⟨-, hl⟩
    · exact .inr ⟨rfl, hids ▸ hid⟩
    · exact .inl (h.held j v l hl hlup i hid)

/-- A teardown releases the claims of its instance and no other's (R318). -/
theorem State.ClaimsOk.teardown (h : s.ClaimsOk) (hn : s.inst? k = some (w, n)) (hp : t.params = s.params)
    (hi : t.insts = s.insts.set k m) (hc : t.claims = s.claims.filter fun x => x.owner != w.id)
    (hdown : m.tstate = .uninit) : t.ClaimsOk where
  wiring := hp ▸ h.wiring
  wired := by rw [hi, hp, List.length_set, h.wired]
  once := hc ▸ h.once.filter _
  owned x hx := by
    obtain ⟨hx, hne⟩ := mem_release.mp (hc ▸ hx)
    obtain ⟨j, v, l, hl, hown, hlup, hid⟩ := h.owned x hx
    have hj : j ≠ k := by
      rintro rfl
      rw [hn] at hl
      cases hl
      exact hne hown
    exact ⟨j, v, l, (inst?_set_ne hp hi hj).trans hl, hown, hlup, hid⟩
  held j v l hl hlup i hid := by
    rcases inst?_set_cases hp hi hn hl with ⟨rfl, rfl, rfl⟩ | ⟨hj, hl⟩
    · exact absurd hdown hlup
    · rw [hc, mem_release]
      exact ⟨h.held j v l hl hlup i hid, fun hown => hj (h.index_unique hl hn hown)⟩

/-- Out of `UNINIT` no step of an instance changes what `INIT` claims for it: the record is immutable but for the
brightness (10_state.md R39). -/
theorem LocalStep.claimSet_eq {p : Params} (hstep : LocalStep p n m) (hup : n.tstate ≠ .uninit) :
    claimSet w m = claimSet w n := by
  obtain ⟨-, hch⟩ := hstep.up fun hu => absurd hu hup
  exact claimSet_congr w fun c => by rw [hch hup c]; exact ⟨rfl, rfl, rfl⟩

end

/-- Settles O47: the registry after each of the steps of the system (`SysStep`). -/
theorem stepKeepsClaims : Obligations.StepKeepsClaims := by
  intro s t htransport h hstep
  cases step_sys hstep with
  | quiet hp hi hc => exact h.congr hp hi hc
  | inst k w n m hp hn hdoes hi hc =>
    have hidle (hu : n.tstate = .uninit) : n.sq = none := ((htransport.2 k w n hn).uninit hu).1
    exact h.inst hn hp hi hc (hdoes.up hidle).1 hdoes.claimSet_eq
  | init k w n hp hn _ hu _ _ hfree hi hc =>
    exact h.init hn hu hfree hp hi hc nofun (claimSet_congr w fun _ => ⟨rfl, rfl, rfl⟩)
  | teardown k w n c out hp hn _ _ hi hc => exact h.teardown hn hp hi hc rfl

/-! ### The state after reset -/

theorem resetWith_inst? {p : Params} {k : Nat} {w : Wiring} {n : Instance}
    (h : (State.resetWith p).inst? k = some (w, n)) : n = Instance.reset :=
  mem_insts_resetWith (List.mem_of_getElem? (State.inst?_eq_some.mp h).2)

theorem Params.wf.wiringOk {p : Params} (h : p.wf = true) : p.wiringOk = true := by
  simp only [Params.wf, Bool.and_eq_true] at h
  simp only [h]

theorem resetWith_meets_invariants {p : Params} (hp : p.wf = true) :
    (State.resetWith p).memWf ∧ (State.resetWith p).Transport ∧ (State.resetWith p).ClaimsOk := by
  refine ⟨fun n hn => ?memories, ⟨hp, fun k w n hn => ?transport⟩, ?claims⟩
  case memories =>
    rw [mem_insts_resetWith hn]
    exact Instance.reset_memWf .ok (.both [])
  case transport =>
    rw [resetWith_inst? hn]
    exact Instance.reset_consistent p .ok (.both [])
  case claims =>
    exact {
      wiring := Params.wf.wiringOk hp
      wired := List.length_map _
      once := .nil
      owned := nofun
      held := fun k w n hn hup => absurd (resetWith_inst? hn ▸ rfl) hup }

/-- Settles O48: `State.reset` is `State.resetWith` of parameters that meet `Params.wf`. -/
theorem resetMeetsTheInvariants : Obligations.ResetMeetsTheInvariants :=
  ⟨fun _ => resetWith_meets_invariants, resetWith_meets_invariants (p := .suggested) (by decide)⟩

/-! ### What a right registry gives -/

/-- Settles O55: both instances hold a claim on a common id, so it is one pair of the registry, and one instance. -/
theorem initialisedInstancesShareNothing : Obligations.InitialisedInstancesShareNothing := by
  intro s j k v w m n h hjk hm hn hmup hnup i hi hi'
  have hv := h.held j v m hm hmup i hi
  have hw := h.held k w n hn hnup i hi'
  have hnodup : (s.claims.map Claim.id).Nodup := List.pairwise_map.mpr h.once
  have hsame : (⟨i, v.id⟩ : Claim) = ⟨i, w.id⟩ := List.inj_on_of_nodup_map hnodup hv hw rfl
  exact hjk (h.index_unique hm hn (congrArg Claim.owner hsame))

/-- Settles O56: the other instance's claim on the pin makes the check of R284 fail. -/
theorem secondInitOnPinFails : Obligations.SecondInitOnPinFails := by
  intro s j v w m n c d h ha hj hm hmup hu hcross hover hc hd hpin
  have hheld : (⟨.pin (m.ch.get c).gpio.toNat, v.id⟩ : Claim) ∈ s.claims :=
    h.held j v m hm hmup _ (mem_claimSet.mpr (.inr ⟨c, hc, .inl rfl⟩))
  have htaken : claimed s.claims (claimSet w n) = true :=
    claimed_claimSet_iff.mpr ⟨_, hheld, .inr ⟨d, hd, .inl (by rw [hpin])⟩⟩
  rw [exec_init ha, initStep_of_claimed hu hcross hover htaken, State.setInst_raise s _ ha.2]

end Sys2Proof.Machine
end

section
/-! SUPPORT. A host thread's access to a port or to an undefined place (30_encoding.md R116, R118; 20_memory.md R87, R94). -/

namespace Sys2Proof.Machine

/-! ### The issue of a word -/

section
variable {port : Port} {v : Word} {s : State} {w : Wiring} {n : Instance} {i : Instr} {e : DecodeError}

theorem issueWord_of_ok (h : decode port v = .ok i) : issueWord port v s = exec i s := by rw [issueWord, h]

theorem issueWord_of_error (h : decode port v = .error e) : issueWord port v s = issueIllegal port s := by
  rw [issueWord, h]

/-- A main-port command at an instance with a command in flight is held (log 14). -/
theorem issueMain_busy {f : Wiring → Instance → State} (hn : s.inst? s.sel = some (w, n)) (hq : n.sq ≠ none) :
    issueMain s f = .next s := by
  have hb : n.busy = true := by simpa using mt busy_false.mp hq
  simp [issueMain, hn, hb]

theorem issueIllegal_main (hn : s.inst? s.sel = some (w, n)) (hq : n.sq = none) :
    issueIllegal .main s = .next { s with insts := s.insts.set s.sel { n with resultCode := .illegalCommand } } := by
  rw [issueIllegal, issueLocal_idle hn hq, State.setInst_raise s _ hq]

theorem issueIllegal_pixel (hn : s.inst? s.sel = some (w, n)) :
    issueIllegal .pixel s = .next { s with insts := s.insts.set s.sel { n with presultCode := .illegalCommand } } := by
  rw [issueIllegal, issuePixel_found hn, State.setInst, Instance.finishPixel_eq]

end

/-! ### A store to `CMD` -/

section
variable {s : State} {ms : List Move} {h : Nat} {th : HostThread} {addr : Nat} {v : Word} {rest : List HostOp} {k : Nat}
  {w : Wiring} {n : Instance}

/-- A store to `CMD` of an idle instance issues the word there. -/
theorem step_store_cmd (hs : s.sched = .host h :: ms) (hh : s.hosts[h]? = some th)
    (hp : th.prog = .store addr 4 v :: rest) (hl : locate s.params addr = some (k, 0x00)) (hn : s.inst? k = some (w, n))
    (hq : n.sq = none) :
    step s = issueWord .main v { s with sched := ms, hosts := s.hosts.set h { th with prog := rest }, sel := k } :=
  (step_store hs hh hl (r := .cmd) rfl hp).trans (storeReg_cmd_idle hn hq)

/-- R116: held. -/
theorem storeReg_cmd_busy {t : HostThread} (hn : s.inst? k = some (w, n)) (hq : n.sq ≠ none) :
    storeReg h t k .cmd v s = .next s := by
  have hb : n.busy = true := by simpa using mt busy_false.mp hq
  simp [storeReg, hn, hb]

/-! ### An access that reaches no register -/

theorem accessReg_misaligned {p : Params} {off size : Nat} (hl : locate p addr = some (k, off))
    (hbad : size ≠ 4 ∨ off % 4 ≠ 0) : accessReg p addr size = .error (.badAccess addr size) := by
  simp only [accessReg, hl, if_pos hbad]

theorem accessReg_reserved {p : Params} {off : Nat} (hl : locate p addr = some (k, off)) (halign : off % 4 = 0)
    (hr : regAt off = none) : accessReg p addr 4 = .error (.reservedOffset off) := by
  simp [accessReg, hl, halign, hr]

/-- R86, R87: the registers end before 0x30, and the mirrors and the pixel port lie between 0x40 and 0x90. -/
theorem regAt_reserved {off : Nat} (h : (0x30 ≤ off ∧ off < 0x40) ∨ 0x90 ≤ off) : regAt off = none := by
  have hrows : ∀ x ∈ regMap, ¬ ((0x30 ≤ x.1 ∧ x.1 < 0x40) ∨ 0x90 ≤ x.1) := by decide
  cases hr : regAt off with
  | none => rfl
  | some r => exact absurd h (hrows _ (regAt_mem hr))

/-- A store or a load that reaches no register has no step, and says why. -/
theorem step_refused {size : Nat} {e : Refusal} (hs : s.sched = .host h :: ms) (hh : s.hosts[h]? = some th)
    (hp : th.prog = .store addr size v :: rest ∨ th.prog = .load addr size :: rest)
    (he : accessReg s.params addr size = .error e) : step s = .refused e := by
  rcases hp with hp | hp <;> simp [step_host hs hh hp, hostOp, he]

end

/-! ### The obligations -/

/-- Settles O5: the store issues the word (`step_store_cmd`), which decodes to the command. -/
theorem stepRunsMainCommand : Obligations.StepRunsMainCommand :=
  fun _ _ _ _ _ _ _ _ _ _ _ hs hh hp hl hn hq hd => (step_store_cmd hs hh hp hl hn hq).trans (issueWord_of_ok hd)

/-- Settles O6: the same at `PCMD` (`step_store_pcmd`), for which no idle main port is needed. -/
theorem stepRunsPixelOperation : Obligations.StepRunsPixelOperation :=
  fun _ _ _ _ _ _ _ _ _ _ _ hs hh hp hl hn hd => (step_store_pcmd hs hh hp hl hn).trans (issueWord_of_ok hd)

/-- Settles O7: a store to `CMD` of a busy instance is held (`storeReg_cmd_busy`). -/
theorem busyPortHoldsTheWrite : Obligations.BusyPortHoldsTheWrite :=
  fun _ _ _ _ _ _ _ _ _ _ hs hh hp hl hn hq =>
    (step_store hs hh hl (r := .cmd) rfl hp).trans (storeReg_cmd_busy hn hq)

/-- Settles O8: on either port a word that is no command is issued as `issueIllegal`. -/
theorem illegalWordOnlySetsCode : Obligations.IllegalWordOnlySetsCode :=
  fun _ _ _ _ _ _ _ _ _ _ _ hs hh hp hn =>
    ⟨fun hl hq hd => (step_store_cmd hs hh hp hl hn hq).trans ((issueWord_of_error hd).trans (issueIllegal_main hn hq)),
      fun hl hd => (step_store_pcmd hs hh hp hl hn).trans ((issueWord_of_error hd).trans (issueIllegal_pixel hn))⟩

/-- Settles O11: neither access reaches a register (`accessReg_misaligned`, `accessReg_reserved`). -/
theorem undefinedAccessesAreRefused : Obligations.UndefinedAccessesAreRefused := by
  refine fun s ms h th addr off size v rest k hs hh hl hp =>
    ⟨fun hbad => step_refused hs hh hp (accessReg_misaligned hl hbad), ?reserved⟩
  case reserved =>
    rintro rfl halign hoff
    exact step_refused hs hh hp (accessReg_reserved hl halign (regAt_reserved hoff))

end Sys2Proof.Machine
end

section
/-! SUPPORT. Commands at an instance that accepts them, each with its answer: the channel that does not exist (check 4 of
30_encoding.md R118), `CFG` and `SETBRIGHT` (40_config.md), `PIXLEN` (41_pixel.md), `INIT`, `RENDER` and `FINI`
(44_transport.md). -/

namespace Sys2Proof.Machine

section
variable {s : State} {w : Wiring} {n : Instance} {ch : BitVec 2}

theorem exec_cfg (ha : s.accepts w n) : exec (.cfg ch) s = .next (s.setInst s.sel (cfgInst s.params ch n)) :=
  issueLocal_idle ha.1 ha.2

theorem exec_setbright {b : BitVec 24} (ha : s.accepts w n) :
    exec (.setbright ch b) s = .next (s.setInst s.sel (setbrightInst ch b n)) := issueLocal_idle ha.1 ha.2

/-! ### A channel that does not exist -/

theorem onChannel_of_not_ok {f : Idx → Instance} (hch : chOk ch = false) : onChannel ch n f = n.raise .illegalCommand := by
  rw [onChannel, channelOf_of_not_ok hch]

theorem exec_main_of_not_wf {i : Instr} (ha : s.accepts w n) (hport : i.port = .main) (hwf : i.wf = false) :
    exec i s = .next (s.setInst s.sel (n.raise .illegalCommand)) := by
  cases i with
  | cfg ch => rw [exec_cfg ha, cfgInst, onChannel_of_not_ok hwf]
  | setbright ch b => rw [exec_setbright ha, setbrightInst, onChannel_of_not_ok hwf]
  | gammawr ch j v =>
    calc exec (.gammawr ch j v) s = .next (s.setInst s.sel (gammawrInst ch j v n)) := issueLocal_idle ha.1 ha.2
      _ = _ := by rw [gammawrInst, onChannel_of_not_ok hwf]
  | init | render | rendernb | poll | fini => cases hwf
  | pixrd | pixwr | pixlen => cases hport

/-! ### `CFG` and `SETBRIGHT` -/

theorem cfgInst_of_up (p : Params) (hu : n.tstate ≠ .uninit) : cfgInst p ch n = n.raise .illegalCommand := by
  unfold cfgInst onChannel
  split
  · rfl
  · exact if_pos hu

theorem setbrightInst_of_gt {c : Idx} {b : BitVec 24} (hc : ch.toNat = c.toNat) (hb : 255 < b.toNat) :
    setbrightInst ch b n = n.raise .invalidConfiguration := by
  rw [setbrightInst, onChannel_of_eq hc, if_pos hb]

theorem setbrightInst_of_le {c : Idx} {b : BitVec 24} (hq : n.sq = none) (hc : ch.toNat = c.toNat) (hb : b.toNat ≤ 255) :
    setbrightInst ch b n =
      { n with ch := n.ch.set c { n.ch.get c with bright := b.setWidth 8 }, resultCode := .ok } := by
  rw [setbrightInst, onChannel_of_eq hc, if_neg (Nat.not_lt.mpr hb), Instance.finish_of_idle]
  · rfl
  · exact hq

/-! ### `PIXLEN` -/

theorem exec_pixlen_of_eq {c : Idx} (hn : s.inst? s.sel = some (w, n)) (hc : ch.toNat = c.toNat) :
    exec (.pixlen ch) s = .next { s with insts := s.insts.set s.sel { n with
      presult := (n.ch.get c).count.setWidth 32, presultCode := .ok } } := by
  rw [exec_pixlen hn, pixlenInst, onPixelChannel_of_eq hc, State.setInst, Instance.finishPixel_eq]

/-! ### `INIT` -/

/-- R280: every check passes. -/
theorem initStep_of_free (hq : n.sq = none) (hu : n.tstate = .uninit) (hcross : crossValid n = true)
    (hover : overlaps n = false) (hfree : claimed s.claims (claimSet w n) = false) :
    initStep s w n = { s with
      claims := addClaims s.claims (claimSet w n) w.id
      insts := s.insts.set s.sel
        { n with tstate := .ready, line := n.idleLines, mux := muxOf s.params n, resultCode := .ok } } := by
  have hfinish := Instance.finish_of_idle
    (n := { n with tstate := .ready, line := n.idleLines, mux := muxOf s.params n }) hq .ok
  simp only [initStep, hu, hcross, hover, hfree, hfinish, State.setInst]
  simp

/-- A line in use rests at its channel's `invert`, where no other active channel is on its slot (R59). -/
theorem idleLines_used {c : Idx} (hc : (n.ch.get c).valid = true)
    (honly : ∀ d, (n.ch.get d).valid = true → (n.ch.get d).slot = (n.ch.get c).slot → d = c) :
    n.idleLines.get (n.ch.get c).slot = .driven (n.ch.get c).invert := by
  rw [idleLines_get, Instance.idleLevel, channelOn_of hc honly]

theorem idleLines_unused {t : Idx} (h : ∀ c, (n.ch.get c).valid = true → (n.ch.get c).slot ≠ t) :
    n.idleLines.get t = .undriven := by
  rw [idleLines_get, Instance.idleLevel, channelOn_none h]

/-- R282. -/
theorem mem_muxOf {p : Params} {c : Idx} {alt : Nat} (hc : (n.ch.get c).valid = true)
    (halt : pinAlt p (n.ch.get c).gpio.toNat = some alt) : ((n.ch.get c).gpio.toNat, alt) ∈ muxOf p n :=
  List.mem_map.mpr ⟨c, Instance.mem_active.mpr hc, by rw [halt, Option.getD_some]⟩

/-! ### `RENDER` and `FINI` -/

theorem exec_render {cmd : Instr} (hcmd : cmd = .render ∨ cmd = .rendernb) (s : State) :
    exec cmd s = issueLocal s (renderIssue cmd) := by
  rcases hcmd with rfl | rfl <;> rfl

theorem renderIssue_of_uninit {cmd : Instr} (hu : n.tstate = .uninit) : renderIssue cmd n = n.raise .illegalCommand :=
  if_pos hu

theorem renderIssue_of_up {cmd : Instr} (hu : n.tstate ≠ .uninit) :
    renderIssue cmd n = { n with sq := some ⟨cmd, n.args, firstPhase n⟩ } := if_neg hu

theorem exec_fini_of_transmitting (ha : s.accepts w n) (ht : n.tstate = .transmitting) :
    exec .fini s = .next { s with insts := s.insts.set s.sel { n with sq := some ⟨.fini, n.args, .finiWait⟩ } } := by
  rw [exec_fini ha, finiStep, ht]
  rfl

end

/-! ### The obligations -/

/-- Settles O9: on either port the channel check comes first, and it fails. -/
theorem channelOutOfRangeIsIllegal : Obligations.ChannelOutOfRangeIsIllegal := by
  refine fun i s w n hwf hn => ⟨fun hport hq => ?main, fun hport => ?pixel⟩
  case main => rw [exec_main_of_not_wf ⟨hn, hq⟩ hport hwf, State.setInst_raise s _ hq]
  case pixel => rw [exec_pixel_of_not_wf hn hport hwf, State.setInst, Instance.finishPixel_eq]

/-- Settles O16: the state check fails, and so does the channel check before it. -/
theorem cfgOnlyInUninit : Obligations.CfgOnlyInUninit := by
  intro s w n ch ha hu
  rw [exec_cfg ha, cfgInst_of_up s.params hu, State.setInst_raise s _ ha.2]

/-- Settles O17: the two sides of 255. -/
theorem setbrightCommand : Obligations.SetbrightCommand := by
  refine fun s w n ch c b ha hc => ⟨rfl, rfl, fun hb => ?refused, fun hb => ?stored⟩
  case refused => rw [exec_setbright ha, setbrightInst_of_gt hc hb, State.setInst_raise s _ ha.2]
  case stored => rw [exec_setbright ha, setbrightInst_of_le ha.2 hc hb, State.setInst]

/-- Settles O19: the hypotheses are the checks of R281, R283 and R284, and what the step adds is read off the claim set,
the idle lines and the list of the pins' functions. -/
theorem initAcquires : Obligations.InitAcquires := by
  intro s w n ha hu hactive hagree hunclaimed
  have hcross : crossValid n = true := crossValid_iff.mpr
    ⟨hactive, fun c d hc hd => ⟨(hagree c d hc hd).1, (hagree c d hc hd).2.1⟩⟩
  have hslots (c d : Idx) (hc : (n.ch.get c).valid = true) (hd : (n.ch.get d).valid = true) (hne : c ≠ d) :
      (n.ch.get c).slot ≠ (n.ch.get d).slot := (hagree c d hc hd).2.2 hne
  have hover : overlaps n = false := by
    rw [← Bool.not_eq_true, overlaps_iff]
    rintro ⟨c, d, hne, hc, hd, hslot⟩
    exact hslots c d hc hd hne hslot
  have hfree : claimed s.claims (claimSet w n) = false := by
    rw [← Bool.not_eq_true, claimed_claimSet_iff]
    rintro ⟨x, hx, htaken⟩
    exact hunclaimed x hx htaken
  refine ⟨_, n.idleLines, muxOf s.params n, (exec_init ha).trans (congrArg _ (initStep_of_free ha.2 hu hcross hover hfree)),
    fun x => ?claims, fun c hc => idleLines_used hc fun d hd hslot => ?only, fun t => idleLines_unused,
    fun c alt => mem_muxOf⟩
  case claims => rw [mem_addClaims, mem_claimSet]
  case only =>
    by_contra hne
    exact hslots d c hd hc hne hslot

/-- Settles O21: the encode phase begins at the first active channel (`firstPhase_eq`). The name `renderIssue` is the
model's. -/
theorem renderIssue_answers : Obligations.RenderIssue := by
  refine fun s w n cmd hn hcmd => ⟨fun hq hu c hc hfirst => ?begins, fun hq hu => ?refused, fun hq => ?held⟩
  all_goals rw [exec_render hcmd]
  case begins => rw [issueLocal_idle hn hq, renderIssue_of_up hu, firstPhase_eq hc hfirst, State.setInst]
  case refused => rw [issueLocal_idle hn hq, renderIssue_of_uninit hu, State.setInst_raise s _ hq]
  case held => exact issueMain_busy hn hq

/-- Settles O23: one lemma for each transport state; the claims of a teardown are those of other owners
(`mem_release`). -/
theorem finiCommand : Obligations.FiniCommand :=
  fun _ _ _ ha => ⟨exec_fini_of_uninit ha, exec_fini_of_transmitting ha,
    fun ht => ⟨_, exec_fini_of_ready ha ht, fun _ => mem_release⟩⟩

/-- Settles O27: the count of the record, which is 0 where nothing is configured (`count_eq_zero`). -/
theorem pixlenCommand : Obligations.PixlenCommand := by
  refine fun s w n ch hn => ⟨rfl, rfl, fun c hc => exec_pixlen_of_eq hn hc, fun ht c hc hv => ?unconfigured,
    fun hch => exec_pixel_of_not_wf hn rfl (chOk_eq_false_iff.mpr hch)⟩
  case unconfigured =>
    have hzero : (n.ch.get c).count = 0 := BitVec.eq_of_toNat_eq ((ht.2 _ w n hn).count_eq_zero hv)
    rw [exec_pixlen_of_eq hn hc, hzero]
    rfl

end Sys2Proof.Machine
end

section
/-! SUPPORT. Errors at issue are precise (60_exceptions.md R405): a command that ends with an error leaves everything but its
port's code. -/

namespace Sys2Proof.Machine

/-- A main-port command at `n` answers `m`: unless it goes on in a later step or ends with OK, the code is all it changes. -/
def Instance.Precise (n m : Instance) : Prop := m.sq = none → m.resultCode ≠ .ok → m = n.finish m.resultCode

/-- The same of a pixel-port operation and its code. -/
def Instance.PixelPrecise (n m : Instance) : Prop := m.presultCode ≠ .ok → m = n.finishPixel m.presultCode

section
variable {n m : Instance} {ch : BitVec 2}

theorem Instance.Precise.raise (e : Code) : n.Precise (n.raise e) := fun _ _ => rfl

theorem Instance.Precise.of_ok (h : m.resultCode = .ok) : n.Precise m := fun _ herr => absurd h herr

theorem Instance.Precise.of_flight {q : InFlight} (h : m.sq = some q) : n.Precise m :=
  fun hidle => by rw [h] at hidle; cases hidle

theorem Instance.PixelPrecise.error (e : Code) : n.PixelPrecise (n.finishPixel e) := fun _ => rfl

theorem Instance.PixelPrecise.ok : n.PixelPrecise (m.finishPixel .ok) := fun herr => absurd rfl herr

theorem onChannel_precise {f : Idx → Instance} (hf : ∀ c, n.Precise (f c)) : n.Precise (onChannel ch n f) := by
  unfold onChannel
  split
  · exact .raise _
  · exact hf _

theorem onPixelChannel_precise {f : Idx → Instance} (hf : ∀ c, n.PixelPrecise (f c)) :
    n.PixelPrecise (onPixelChannel ch n f) := by
  unfold onPixelChannel
  split
  · exact .error _
  · exact hf _

theorem onPixel_precise {c : Idx} {i : BitVec 24} {f : Instance} (hf : n.PixelPrecise f) :
    n.PixelPrecise (onPixel n c i f) := by
  unfold onPixel
  split
  · exact .error _
  · exact hf

/-! ### The commands -/

theorem cfgInst_precise (p : Params) : n.Precise (cfgInst p ch n) := by
  refine onChannel_precise fun c => ?_
  split
  · exact .raise _
  · split
    · exact .raise _
    · exact .of_ok rfl

theorem setbrightInst_precise (b : BitVec 24) : n.Precise (setbrightInst ch b n) := by
  refine onChannel_precise fun c => ?_
  split
  · exact .raise _
  · exact .of_ok rfl

theorem gammawrInst_precise (j v : BitVec 8) : n.Precise (gammawrInst ch j v n) :=
  onChannel_precise fun _ => .of_ok rfl

theorem renderIssue_precise (cmd : Instr) : n.Precise (renderIssue cmd n) := by
  unfold renderIssue
  split
  · exact .raise _
  · exact .of_flight rfl

/-- A `POLL` that is legal answers OK, whatever it reports. -/
theorem pollInst_precise : n.Precise (pollInst n) := by
  by_cases h : n.tstate = .uninit ∨ n.args.a0 = 0 ∨ n.seq = 0
  · rw [pollInst_illegal h]
    exact .raise _
  · obtain ⟨hu, hh, hs⟩ : n.tstate ≠ .uninit ∧ n.args.a0 ≠ 0 ∧ n.seq ≠ 0 := by simpa using h
    rw [pollInst_legal hu hh hs]
    refine .of_ok ?_
    simp only [apply_ite Instance.resultCode, Instance.finish_resultCode, ite_self]

theorem pixrdInst_precise (i : BitVec 24) : n.PixelPrecise (pixrdInst ch i n) :=
  onPixelChannel_precise fun _ => onPixel_precise .ok

theorem pixwrInst_precise (i : BitVec 24) : n.PixelPrecise (pixwrInst ch i n) :=
  onPixelChannel_precise fun _ => onPixel_precise .ok

theorem pixlenInst_precise : n.PixelPrecise (pixlenInst ch n) := onPixelChannel_precise fun _ => .ok

end

/-! ### The step of the system -/

section
variable {s t : State} {w : Wiring} {n m : Instance}

/-- An `INIT` raises an error, or it makes its claims and ends with OK. -/
theorem initStep_cases (s : State) (w : Wiring) (n : Instance) :
    (∃ e, initStep s w n = s.setInst s.sel (n.raise e))
    ∨ ∃ cs m, initStep s w n = State.setInst { s with claims := cs } s.sel m ∧ m.resultCode = .ok := by
  unfold initStep
  split
  · exact .inl ⟨_, rfl⟩
  · split
    · exact .inl ⟨_, rfl⟩
    · split
      · exact .inl ⟨_, rfl⟩
      · split
        · exact .inl ⟨_, rfl⟩
        · exact .inr ⟨_, _, rfl, rfl⟩

/-- An idle instance that a precise command has made an error of. -/
theorem precise_setInst {f : Instance} (hn : s.inst? s.sel = some (w, n)) (hq : n.sq = none) (hf : n.Precise f)
    (hm : (s.setInst s.sel f).inst? s.sel = some (w, m)) (hidle : m.sq = none) (herr : m.resultCode ≠ .ok) :
    s.setInst s.sel f = { s with insts := s.insts.set s.sel { n with resultCode := m.resultCode } } := by
  rw [State.setInst_inst?_self f hn] at hm
  cases hm
  calc s.setInst s.sel m = s.setInst s.sel (n.finish m.resultCode) := congrArg _ (hf hidle herr)
    _ = _ := by rw [Instance.finish_of_idle hq, State.setInst]

theorem issueLocal_precise {f : Instance → Instance} (hn : s.inst? s.sel = some (w, n)) (hq : n.sq = none)
    (hf : n.Precise (f n)) (h : issueLocal s f = .next t) (hm : t.inst? s.sel = some (w, m)) (hidle : m.sq = none)
    (herr : m.resultCode ≠ .ok) :
    t = { s with insts := s.insts.set s.sel { n with resultCode := m.resultCode } } := by
  rw [issueLocal_idle hn hq] at h
  cases h
  exact precise_setInst hn hq hf hm hidle herr

theorem issuePixel_precise {f : Instance → Instance} (hn : s.inst? s.sel = some (w, n)) (hf : n.PixelPrecise (f n))
    (h : issuePixel s f = .next t) (hm : t.inst? s.sel = some (w, m)) (herr : m.presultCode ≠ .ok) :
    t = { s with insts := s.insts.set s.sel { n with presultCode := m.presultCode } } := by
  rw [issuePixel_found hn] at h
  cases h
  rw [State.setInst_inst?_self (f n) hn] at hm
  cases hm
  exact congrArg (s.setInst s.sel) (hf herr)

theorem exec_init_precise (hn : s.inst? s.sel = some (w, n)) (hq : n.sq = none) (h : exec .init s = .next t)
    (hm : t.inst? s.sel = some (w, m)) (hidle : m.sq = none) (herr : m.resultCode ≠ .ok) :
    t = { s with insts := s.insts.set s.sel { n with resultCode := m.resultCode } } := by
  rw [exec_init ⟨hn, hq⟩] at h
  cases h
  rcases initStep_cases s w n with ⟨e, hraise⟩ | ⟨cs, r, hdone, hok⟩
  · rw [hraise] at hm ⊢
    exact precise_setInst hn hq (.raise e) hm hidle herr
  · rw [hdone, State.setInst_inst?_self (s := { s with claims := cs }) r hn] at hm
    cases hm
    exact absurd hok herr

end

/-! ### The obligation -/

/-- Settles O29: each command's effect on its instance is precise (`Instance.Precise`, `Instance.PixelPrecise`). -/
theorem errorIsPrecise : Obligations.ErrorIsPrecise := by
  refine fun i s t w n m hn h hm => ⟨fun hport hfini hq hidle herr => ?main, fun hport herr => ?pixel⟩
  case main =>
    cases i with
    | cfg ch => exact issueLocal_precise hn hq (cfgInst_precise s.params) h hm hidle herr
    | init => exact exec_init_precise hn hq h hm hidle herr
    | setbright ch b => exact issueLocal_precise hn hq (setbrightInst_precise b) h hm hidle herr
    | gammawr ch j v => exact issueLocal_precise hn hq (gammawrInst_precise j v) h hm hidle herr
    | render => exact issueLocal_precise hn hq (renderIssue_precise .render) h hm hidle herr
    | rendernb => exact issueLocal_precise hn hq (renderIssue_precise .rendernb) h hm hidle herr
    | poll => exact issueLocal_precise hn hq pollInst_precise h hm hidle herr
    | fini => exact absurd rfl hfini
    | pixrd | pixwr | pixlen => cases hport
  case pixel =>
    cases i with
    | pixrd ch i => exact issuePixel_precise hn (pixrdInst_precise i) h hm herr
    | pixwr ch i => exact issuePixel_precise hn (pixwrInst_precise i) h hm herr
    | pixlen ch => exact issuePixel_precise hn pixlenInst_precise h hm herr
    | cfg | init | setbright | gammawr | render | rendernb | poll | fini => cases hport

end Sys2Proof.Machine
end

section
/-! SUPPORT. What no step changes: the configuration between `INIT` and `FINI` (10_state.md R39), the buffer being drained
(43_frame_builder.md R258), and the other instances (60_exceptions.md R435). -/

namespace Sys2Proof.Machine

/-- Settles O52: of the steps of an instance that is up none but a teardown changes more of a record than its brightness
(`LocalStep.up`). -/
theorem configurationIsImmutable : Obligations.ConfigurationIsImmutable := by
  intro s t k n m hstep hn hm hup hup' c
  cases (step_sys hstep).became hn hm with
  | same heq => rw [heq]
  | loc w _ hlocal => exact (hlocal.up fun hu => absurd hu hup).2 hup c
  | init w _ _ hu => exact absurd hu hup
  | down w _ c out _ _ heq => exact absurd (heq ▸ rfl) hup'

/-- A build step writes the back buffer, and the buffers are swapped only in a start phase. -/
theorem LocalStep.front_kept {p : Params} {n m : Instance} (h : LocalStep p n m) :
    (m.buf.get n.front = n.buf.get n.front ∧ m.flen.get n.front = n.flen.get n.front)
    ∧ (m.front ≠ n.front → n.tstate ≠ .transmitting ∧ ∃ q, n.sq = some q ∧ q.phase = .start) := by
  cases h with
  | build q acc => exact ⟨⟨Pair.get_set_other .., Pair.get_set_other ..⟩, fun hne => absurd rfl hne⟩
  | start q ok flight at_ free =>
    obtain ⟨-, -, -, hbuf, hflen, -⟩ := startPhase_frame p n q.cmd ok
    exact ⟨by rw [hbuf, hflen]; exact ⟨rfl, rfl⟩, fun _ => ⟨free, q, flight, at_⟩⟩
  | drain e =>
    obtain ⟨-, -, -, hbuf, hflen, hfront, -⟩ := drainInst_frame p n e
    exact ⟨by rw [hbuf, hflen]; exact ⟨rfl, rfl⟩, fun hne => absurd hfront hne⟩
  | same | code | cfg | bright | gamma | issue | poll | finiWait | port | pixwr | regs | enc | waited =>
    exact ⟨⟨rfl, rfl⟩, fun hne => absurd rfl hne⟩

/-- Settles O53: a step that leaves the instance up keeps the buffer being drained (`LocalStep.front_kept`). -/
theorem drainedBufferIsUntouched : Obligations.DrainedBufferIsUntouched := by
  intro s t k n m hstep hn hm hup
  have hkept (hbuf : m.buf = n.buf) (hflen : m.flen = n.flen) (hfront : m.front = n.front) :
      (m.buf.get n.front = n.buf.get n.front ∧ m.flen.get n.front = n.flen.get n.front)
      ∧ (m.front ≠ n.front → n.tstate ≠ .transmitting ∧ ∃ q, n.sq = some q ∧ q.phase = .start) :=
    ⟨by rw [hbuf, hflen]; exact ⟨rfl, rfl⟩, fun hne => absurd hfront hne⟩
  cases (step_sys hstep).became hn hm with
  | same heq => subst heq; exact hkept rfl rfl rfl
  | loc w _ hlocal => exact hlocal.front_kept
  | init w _ _ _ _ _ heq => subst heq; exact hkept rfl rfl rfl
  | down w _ c out _ _ heq => exact absurd (heq ▸ rfl) hup

/-- Settles O54: each step of the system replaces at most one instance, and its claims are that instance's. -/
theorem stepTouchesOneInstance : Obligations.StepTouchesOneInstance := by
  intro s t hstep
  have hsys := step_sys hstep
  refine ⟨hsys.params_eq, hsys.length_eq, ?_⟩
  have hothers {k : Nat} {m : Instance} (hi : t.insts = s.insts.set k m) (j : Nat) (hj : j ≠ k) :
      t.insts[j]? = s.insts[j]? := by rw [hi, List.getElem?_set_ne hj.symm]
  cases hsys with
  | quiet _ hi hc => exact ⟨0, fun j _ => by rw [hi], fun x _ => by rw [hc]⟩
  | inst k w n m _ _ _ hi hc => exact ⟨k, hothers hi, fun x _ => by rw [hc]⟩
  | init k w n _ hn _ _ _ _ _ hi hc =>
    refine ⟨k, hothers hi, fun x hx => ?_⟩
    have hother : x.owner ≠ w.id := hx w (State.inst?_eq_some.mp hn).1
    simp [hc, mem_addClaims, hother]
  | teardown k w n c out _ hn _ _ hi hc =>
    refine ⟨k, hothers hi, fun x hx => ?_⟩
    have hother : x.owner ≠ w.id := hx w (State.inst?_eq_some.mp hn).1
    simp [hc, hother]

end Sys2Proof.Machine
end

section
/-! SUPPORT. One step of the sequencer in each phase of a command in flight (42_encoder.md R211, 44_transport.md R290 to R300,
R315 to R317). -/

namespace Sys2Proof.Machine

section
variable {s : State} {ms : List Move} {k : Nat} {ok : Bool} {w : Wiring} {n : Instance} {q : InFlight}

/-! ### The encode phase -/

theorem step_enc {c : Idx} {i : Nat} {acc : Pair (List Bool)} (hs : s.sched = .seq k ok :: ms)
    (hn : s.inst? k = some (w, n)) (hq : n.sq = some q) (hph : q.phase = .enc c i acc) :
    step s = .next { s with
      sched := ms
      insts := s.insts.set k { n with sq := some { q with phase := encPhase s.params n c i acc } } } := by
  rw [step_seq hs hn hq, seqStep, hph]
  rfl

/-- What comes after a channel: channel 1 after channel 0, where it is active, and else the build step (R211). -/
theorem nextPhase_later (p : Params) (n : Instance) (c : Idx) (acc : Pair (List Bool)) :
    nextPhase p n (Idx.later c) acc =
      if c = .i0 ∧ (n.ch.get .i1).valid = true then
        if (n.ch.get .i1).count = 0 then .build (acc.set .i1 (resetGap p (n.ch.get .i1))) else .enc .i1 0 acc
      else .build acc := by
  cases c <;> simp [Idx.later, nextPhase]

/-! ### The waits -/

/-- `WAIT`, `START` and `FINI_WAIT` take no step while a transmission is in flight; the move is used up (log 5). -/
theorem step_held (hs : s.sched = .seq k ok :: ms) (hn : s.inst? k = some (w, n)) (hq : n.sq = some q)
    (ht : n.tstate = .transmitting) (hph : q.phase = .wait ∨ q.phase = .start ∨ q.phase = .finiWait) :
    step s = .next { s with sched := ms } := by
  rw [step_seq hs hn hq, seqStep]
  rcases hph with hph | hph | hph <;> rw [hph] <;> exact congrArg _ (if_pos ht)

theorem step_waited (hs : s.sched = .seq k ok :: ms) (hn : s.inst? k = some (w, n)) (hq : n.sq = some q)
    (hfree : n.tstate ≠ .transmitting) (hph : q.phase = .wait) :
    step s = .next { s with sched := ms, insts := s.insts.set k { n with sq := some { q with phase := .start } } } := by
  rw [step_seq hs hn hq, seqStep, hph]
  exact congrArg _ (if_neg hfree)

theorem step_finiWaited (hs : s.sched = .seq k ok :: ms) (hn : s.inst? k = some (w, n)) (hq : n.sq = some q)
    (hfree : n.tstate ≠ .transmitting) (hph : q.phase = .finiWait) :
    step s = .next (teardown { s with sched := ms } k w n false) := by
  rw [step_seq hs hn hq, seqStep, hph]
  exact congrArg _ (if_neg hfree)

/-! ### The start phase -/

theorem step_start (hs : s.sched = .seq k ok :: ms) (hn : s.inst? k = some (w, n)) (hq : n.sq = some q)
    (hfree : n.tstate ≠ .transmitting) (hph : q.phase = .start) :
    step s = .next { s with sched := ms, insts := s.insts.set k (startPhase s.params n q.cmd ok) } := by
  rw [step_seq hs hn hq, seqStep, hph]
  exact congrArg _ (if_neg hfree)

variable {p : Params} {cmd : Instr}

theorem startPhase_of_pending (herr : n.errpend = true) :
    startPhase p n cmd ok = { n with errpend := false, resultCode := .transmitFailure, sq := none } := if_pos herr

/-- The instance whose transmission has just begun, with a new handle for the buffer just built (R296). -/
def Instance.started (n : Instance) (cmd : Instr) : Instance := { n with
  front := n.front.other, seq := nextSeq n.seq, xerr := ⟨false, false, false⟩, tstate := .transmitting, dpos := 0
  sq := none, resultCode := .ok, result := if cmd = .rendernb then nextSeq n.seq else n.result }

theorem startPhase_begins (herr : n.errpend = false) (hcmd : cmd = .render ∨ cmd = .rendernb)
    (hgo : ok = true ∨ p.xferErrors = false) : startPhase p n cmd ok = n.started cmd := by
  have hgo' : (ok || !p.xferErrors) = true := by simpa using hgo
  rcases hcmd with rfl | rfl <;> simp [startPhase, startFrame, herr, hgo', Instance.finish, Xerr.none, Instance.started]

/-- R297: a refused start is reported by `RENDER`. -/
theorem startPhase_refused_render (herr : n.errpend = false) (hadmit : p.xferErrors = true) :
    startPhase p n .render false = { n with
      front := n.front.other, seq := nextSeq n.seq, xerr := ⟨true, false, false⟩, sq := none
      resultCode := .transmitFailure } := by
  simp [startPhase, startFrame, herr, hadmit, Instance.finish, Xerr.none]

/-- R300: and it is left pending by `RENDERNB`. -/
theorem startPhase_refused_rendernb (herr : n.errpend = false) (hadmit : p.xferErrors = true) :
    startPhase p n .rendernb false = { n with
      front := n.front.other, seq := nextSeq n.seq, xerr := ⟨true, false, false⟩, sq := none, resultCode := .ok
      errpend := true, result := nextSeq n.seq } := by
  simp [startPhase, startFrame, herr, hadmit, Instance.finish, Xerr.none]

end

/-! ### The obligations -/

/-- Settles O30: below the last pixel the phase goes on to the next (`encPhase_more`), at the last one to the next channel
or to the build step (`encPhase_last`, `nextPhase_later`). -/
theorem encodeStepReadsOnePixel : Obligations.EncodeStepReadsOnePixel := by
  intro s ms k ok w n q c i acc bits ph hs hn hq hph hi hbits heq
  have hphase : encPhase s.params n c i acc = ph := by
    subst hbits
    rw [heq]
    split
    · rename_i hmore
      exact encPhase_more hmore
    · rename_i hlast
      rw [encPhase_last (by omega), nextPhase_later]
  rw [step_enc hs hn hq hph, hphase]

/-- Settles O37: one lemma for each wait, held and over. -/
theorem waitsHoldWhileTransmitting : Obligations.WaitsHoldWhileTransmitting :=
  fun _ _ _ _ _ _ _ hs hn hq => ⟨fun ht hph => step_held hs hn hq ht (hph.imp_right .inr), step_waited hs hn hq,
    fun hfree hph => ⟨_, step_finiWaited hs hn hq hfree hph, fun _ => mem_release⟩⟩

/-- Settles O38: the start phase reports the error (`startPhase_of_pending`). -/
theorem startReportsPendingError : Obligations.StartReportsPendingError := by
  intro s ms k ok w n q hs hn hq hph ht herr
  rw [step_start hs hn hq (by simp [ht]) hph, startPhase_of_pending herr]

/-- Settles O39: held while transmitting, and else the start phase begins the transmission or is refused, as the draw
says. -/
theorem startStep : Obligations.StartStep := by
  intro s ms k ok w n q h hs hn hq hph herr hcmd hh
  have hseq : nextSeq n.seq = h := hh.symm
  have hstart (ht : n.tstate = .ready) := step_start hs hn hq (by simp [ht]) hph
  refine ⟨fun ht => step_held hs hn hq ht (.inr (.inl hph)), fun ht hgo => ?begins, fun ht hok hadmit hrender => ?render,
    fun ht hok hadmit hrendernb => ?rendernb⟩
  case begins => rw [hstart ht, startPhase_begins herr hcmd hgo, Instance.started, hseq]
  case render => rw [hstart ht, hrender, hok, startPhase_refused_render herr hadmit, hseq]
  case rendernb => rw [hstart ht, hrendernb, hok, startPhase_refused_rendernb herr hadmit, hseq]

end Sys2Proof.Machine
end

section
/-! SUPPORT. One step of the drain, and the abort that stops it (44_transport.md R317, R320 to R322). -/

namespace Sys2Proof.Machine

section
variable {s : State} {ms : List Move} {k : Nat} {w : Wiring} {n : Instance} {p : Params}

theorem drainInst_good {e : DrainDraw} (h : e = .good ∨ p.xferErrors = false) : drainInst p n e = drainGood n := by
  rcases h with rfl | h
  · simp [drainInst]
  · simp [drainInst, h]

theorem step_drainGood {e : DrainDraw} (hs : s.sched = .drain k e :: ms) (hn : s.inst? k = some (w, n))
    (hgood : e = .good ∨ s.params.xferErrors = false) (on : n.draining = true) :
    step s = .next { s with sched := ms, insts := s.insts.set k (drainGood n) } := by
  rw [step_drain hs hn on, drainInst_good hgood]
  rfl

/-- R322: the sub-bits of the draw, the error's kind, and the end of the transmission. -/
theorem drainError_eq (n : Instance) (x : Xerr) (bits : Pair (List Bool)) : drainError n x bits = { n with
    xerr := x, errpend := true, tstate := .ready, line := n.idleLines
    emitted := ⟨n.emitted.at0 ++ errorBits n bits .i0, n.emitted.at1 ++ errorBits n bits .i1⟩ } := by
  rw [drainError, Instance.emitBoth_eq]

theorem errorBits_eq (n : Instance) (bits : Pair (List Bool)) (t : Idx) : errorBits n bits t =
    match n.channelOn t with
    | some _ => (bits.get t).take 32
    | none => [] := by
  rw [errorBits]
  cases n.channelOn t <;> rfl

theorem step_abort {cut : Pair Nat} {q : InFlight} (hs : s.sched = .abort k cut :: ms) (hn : s.inst? k = some (w, n))
    (hq : n.sq = some q) (hph : q.phase = .finiWait) :
    step s = .next (teardown { s with sched := ms } k w (n.emitBoth (cutBits n cut)) true) := by
  have habort := abortMove_of_ready (s := { s with sched := ms }) cut hn ((Instance.abortReady_iff hq).mpr hph)
  simp [step, hs, perform, habort]

/-- R317: what an abort still lets a slot emit. -/
theorem cutBits_eq (n : Instance) (cut : Pair Nat) (t : Idx) : cutBits n cut t =
    match n.channelOn t with
    | some c =>
      if n.tstate = .transmitting ∧ n.dpos < n.flen.get n.front then
        ((List.range 32).map fun m =>
          (Memory.read zeroFill (n.buf.get n.front) (2 * n.dpos + t.toNat)).getLsbD (31 - m)
            ^^ (n.ch.get c).invert).take (cut.get t)
      else []
    | none => [] := by
  rw [cutBits, stepBits_eq]
  by_cases on : n.draining = true
  · rw [if_pos on]
    cases n.channelOn t with
    | none => exact List.take_nil
    | some c => exact (if_pos (Instance.draining_iff.mp on)).symm
  · rw [if_neg on]
    cases n.channelOn t with
    | none => rfl
    | some c => exact (if_neg (mt Instance.draining_iff.mpr on)).symm

end

/-! ### The obligations -/

/-- Settles O40: the step is a word-step without error, field by field (`drainGood_eq`). -/
theorem drainEmitsOneWordStep : Obligations.DrainEmitsOneWordStep := by
  intro s ms k e w n hs hn hgood ht hleft
  have hstep := step_drainGood hs hn hgood (Instance.draining_iff.mpr ⟨ht, hleft⟩)
  have hfields := drainGood_eq n
  rw [ht] at hfields
  exact hstep.trans (congrArg (fun m => Host.Outcome.next (State.setInst { s with sched := ms } k m)) hfields)

/-- Settles O41: both kinds of error end the transmission alike (`drainError_eq`). -/
theorem drainErrorEndsTransmission : Obligations.DrainErrorEndsTransmission := by
  intro s ms k bits w n hn hadmit ht hleft out idle after
  have on := Instance.draining_iff.mpr ⟨ht, hleft⟩
  have hafter (x : Xerr) : Host.Outcome.next (State.setInst { s with sched := ms } k (drainError n x bits)) = after x := by
    rw [drainError_eq, errorBits_eq, errorBits_eq, idleLines_mk]
    rfl
  refine ⟨fun hs => ?bus, fun hs => ?fifo⟩
  case bus => rw [step_drain hs hn on, ← hafter, drainInst, if_pos hadmit]
  case fifo => rw [step_drain hs hn on, ← hafter, drainInst, if_pos hadmit]

/-- Settles O42: the abort is enabled in `FINI_WAIT` (`step_abort`), and its teardown keeps the record of what the lines
have emitted, the cut word-step included (`cutBits_eq`). -/
theorem abortTearsDown : Obligations.AbortTearsDown := by
  intro s ms k cut w n q hs hn hq hph out
  refine ⟨_, (step_abort hs hn hq hph).trans ?_, fun _ => mem_release⟩
  rw [teardown, Instance.emitBoth_eq, cutBits_eq, cutBits_eq]
  rfl

end Sys2Proof.Machine
end

section
/-! SUPPORT. Runs of the sequencer through the phases of a render (42_encoder.md R211, R231; 44_transport.md R290 to R297), and
the length of a channel's stream and of a frame (R231, 43_frame_builder.md R256). -/

namespace Sys2Proof.Machine

/-! ### The length of a stream -/

theorem resetSub_eq (p : Params) (r : Channel) :
    resetSub p r = (p.resetUs * r.freq.toNat * p.symLen + 999999) / 1000000 := by
  rw [resetSub, ceilDiv_eq, Nat.add_sub_assoc (by decide)]

/-- R231. -/
theorem streamOf_length (p : Params) (r : Channel) (gam : Memory 8) (pxs : List Word) :
    (streamOf p r gam pxs).length = pxs.length * (8 * stripBytes r.strip * p.symLen) + resetSub p r := by
  rw [streamOf, List.length_append, resetGap, List.length_replicate, List.flatMap,
    length_flatten_of_length (8 * stripBytes r.strip * p.symLen), List.length_map]
  intro x hx
  obtain ⟨px, -, rfl⟩ := List.mem_map.mp hx
  exact encodePixel_length ..

/-! ### The frame in its buffer -/

theorem stripBytes_le (d : BitVec 9) : stripBytes d ≤ 4 := by
  unfold stripBytes
  split <;> decide

/-- 10_state.md R53: `RESET_SUB_MAX` is the longest gap of a legal frequency. -/
theorem resetSub_le_max {p : Params} {r : Channel} (hf : r.freq.toNat ∈ p.freqSet) : resetSub p r ≤ resetSubMax p := by
  have hle : r.freq.toNat ≤ p.freqSet.foldl max 0 := (foldl_max_spec p.freqSet 0).1.2 _ hf
  rw [resetSub, resetSubMax, ceilDiv_eq, ceilDiv_eq]
  gcongr

theorem streamOf_length_le {p : Params} {r : Channel} {gam : Memory 8} {pxs : List Word}
    (hf : r.freq.toNat ∈ p.freqSet) (hpxs : pxs.length ≤ p.maxPixels) :
    (streamOf p r gam pxs).length ≤ p.maxPixels * 32 * p.symLen + resetSubMax p := by
  have hgap := resetSub_le_max hf
  have hpixels : pxs.length * (8 * stripBytes r.strip * p.symLen) ≤ p.maxPixels * 32 * p.symLen := by
    calc pxs.length * (8 * stripBytes r.strip * p.symLen) ≤ p.maxPixels * (8 * 4 * p.symLen) := by
          gcongr
          exact stripBytes_le _
      _ = _ := by ring
  rw [streamOf_length]
  omega

theorem frameSteps_le_stepsMax {p : Params} {n : Instance} {acc : Pair (List Bool)}
    (h : ∀ c, (n.ch.get c).valid = true → (acc.get c).length ≤ p.maxPixels * 32 * p.symLen + resetSubMax p) :
    frameSteps n acc ≤ stepsMax p := by
  rcases frameSteps_or (n := n) (acc := acc) with hzero | ⟨c, hc, heq⟩
  · exact hzero ▸ Nat.zero_le _
  · rw [← heq, stepsMax, ceilDiv_eq]
    exact Nat.div_le_div_right (Nat.add_le_add_right (h c hc) 31)

/-! ### An instance with a command in flight -/

/-- The state with the schedule and the phase of the command in flight at instance `k` as said. -/
def State.atPhase (s : State) (ms : List Move) (k : Nat) (n : Instance) (q : InFlight) (ph : Phase) : State :=
  { s with sched := ms, insts := s.insts.set k { n with sq := some { q with phase := ph } } }

section
variable {s : State} {k : Nat} {w : Wiring} {n : Instance} {q : InFlight} {ok : Bool}

theorem State.atPhase_self {ms : List Move} (hn : s.inst? k = some (w, n)) (hq : n.sq = some q) (hs : s.sched = ms) :
    s.atPhase ms k n q q.phase = s := by
  have hsame : ({ n with sq := some { q with phase := q.phase } } : Instance) = n := by rw [← hq]
  rw [State.atPhase, hsame, State.set_found hn, ← hs]

theorem State.atPhase_inst? {ms : List Move} {ph : Phase} {l : Instance} (hn : s.inst? k = some (w, l)) :
    (s.atPhase ms k n q ph).inst? k = some (w, { n with sq := some { q with phase := ph } }) :=
  State.setInst_inst?_self (s := { s with sched := ms }) _ hn

/-- Replacing the instance of such a state again. -/
theorem State.atPhase_set {ms : List Move} {ph : Phase} (m : Instance) :
    (s.atPhase ms k n q ph).insts.set k m = s.insts.set k m := List.set_set ..

theorem encPhase_sq (p : Params) (n : Instance) (x : Option InFlight) (c : Idx) (i : Nat) (acc : Pair (List Bool)) :
    encPhase p { n with sq := x } c i acc = encPhase p n c i acc := by
  simp only [encPhase, nextPhase_sq]

/-- In `d` steps of its sequencer, no other agent moving, instance `k` goes from one phase to another and nothing else
changes. -/
def State.Leads (s : State) (k : Nat) (n : Instance) (q : InFlight) (ok : Bool) (d : Nat) (ph ph' : Phase) : Prop :=
  ∀ rest, Sys2Proof.core.run d (s.atPhase (List.replicate d (.seq k ok) ++ rest) k n q ph)
    = .next (s.atPhase rest k n q ph')

theorem State.Leads.trans {d e : Nat} {ph ph' ph'' : Phase} (h : s.Leads k n q ok d ph ph')
    (h' : s.Leads k n q ok e ph' ph'') : s.Leads k n q ok (d + e) ph ph'' := by
  intro rest
  rw [List.replicate_add, List.append_assoc, run_add Sys2Proof.core d e _ _ (h _)]
  exact h' rest

theorem State.Leads.of_step {ph ph' : Phase}
    (h : ∀ ms, step (s.atPhase (.seq k ok :: ms) k n q ph) = .next (s.atPhase ms k n q ph')) :
    s.Leads k n q ok 1 ph ph' := fun rest => run_step 0 _ _ (h rest)

/-! ### The encode phase of a channel -/

theorem leads_enc (hn : s.inst? k = some (w, n)) (c : Idx) (i : Nat) (acc : Pair (List Bool)) :
    s.Leads k n q ok 1 (.enc c i acc) (encPhase s.params n c i acc) := by
  refine .of_step fun ms => ?_
  rw [step_enc rfl (State.atPhase_inst? hn) rfl rfl, State.atPhase_set, encPhase_sq]
  rfl

/-- The pixels from one on, a step each, and the gap after the last of them. -/
theorem leads_enc_pixels (hn : s.inst? k = some (w, n)) {c : Idx} {d i : Nat} {acc : Pair (List Bool)}
    (hi : i + (d + 1) = (n.ch.get c).count.toNat) :
    s.Leads k n q ok (d + 1) (.enc c i acc) (nextPhase s.params n (Idx.later c) (acc.set c (acc.get c ++
      streamOf s.params (n.ch.get c) (n.gam.get c)
        ((List.range' i (d + 1)).map (Memory.read zeroFill (n.pix.get c)))))) := by
  induction d generalizing i acc with
  | zero =>
    have hlast := leads_enc (q := q) (ok := ok) hn c i acc
    rw [encPhase_last hi] at hlast
    simpa [streamOf, List.append_assoc] using hlast
  | succ d ih =>
    have hmore := leads_enc (q := q) (ok := ok) hn c i acc
    rw [encPhase_more (by omega)] at hmore
    have hrest := hmore.trans (ih (i := i + 1) (by omega))
    rw [Nat.add_comm 1, pair_set_set, Pair.get_set] at hrest
    simpa [streamOf, List.range'_succ, List.append_assoc] using hrest

/-- The stream of a channel for the pixels it has (R231). -/
def Instance.stream (p : Params) (n : Instance) (c : Idx) : List Bool :=
  streamOf p (n.ch.get c) (n.gam.get c)
    ((List.range (n.ch.get c).count.toNat).map (Memory.read zeroFill (n.pix.get c)))

/-- A whole channel: one step for each pixel, and one for a channel without pixels (log 12). -/
theorem leads_enc_channel (hn : s.inst? k = some (w, n)) {c : Idx} {acc : Pair (List Bool)} (hacc : acc.get c = []) :
    s.Leads k n q ok (max 1 (n.ch.get c).count.toNat) (.enc c 0 acc)
      (nextPhase s.params n (Idx.later c) (acc.set c (n.stream s.params c))) := by
  rcases Nat.eq_zero_or_pos (n.ch.get c).count.toNat with hzero | hpos
  · have hgap := leads_enc (q := q) (ok := ok) hn c 0 acc
    rw [encPhase_empty hzero.le, hacc, List.nil_append, ← streamOf_no_pixels s.params n c hzero] at hgap
    rwa [max_eq_left (by omega)]
  · obtain ⟨d, hd⟩ := Nat.exists_eq_add_of_le' hpos
    have hall := leads_enc_pixels (q := q) (ok := ok) (c := c) (acc := acc) hn (i := 0) (d := d) (by omega)
    rw [← hd, hacc, List.nil_append, ← List.range_eq_range'] at hall
    rwa [max_eq_right hpos]

end

/-! ### The obligations on streams and frames -/

/-- Settles O34: the steps are those of `leads_enc_channel`, and the length is that of `streamOf_length`. -/
theorem encodePhaseYieldsStream : Obligations.EncodePhaseYieldsStream := by
  intro s rest k ok w n q c acc stream hn hq hph hacc hpos hs hstream
  have heq : stream = n.stream s.params c := by
    rw [hstream, Instance.stream, streamOf, resetGap, resetSub_eq, List.flatMap, List.map_map]
    rfl
  subst heq
  refine ⟨?run, ?length⟩
  case run =>
    have hrun := leads_enc_channel (q := q) (ok := ok) hn hacc rest
    rw [max_eq_right hpos, ← hph, State.atPhase_self hn hq hs] at hrun
    exact hrun
  case length =>
    rw [Instance.stream, streamOf_length, resetSub_eq, List.length_map, List.length_range, strip_bytes]
    ring

/-- Settles O36: `W` is 0 or the length of an active channel's stream in words, which `streamOf_length_le` bounds. -/
theorem frameFitsTheBuffer : Obligations.FrameFitsTheBuffer := by
  intro p n acc h
  have hsteps : frameSteps n acc ≤ stepsMax p := frameSteps_le_stepsMax fun c hc => by
    obtain ⟨hfreq, hcount, pxs, hlen, hacc⟩ := h c hc
    rw [hacc]
    exact streamOf_length_le hfreq (hlen ▸ hcount)
  exact ⟨hsteps, fun e he => (frameWords_index_lt he).trans_le (Nat.mul_le_mul_left 2 hsteps)⟩

end Sys2Proof.Machine
end

section
/-! SUPPORT. A whole render (44_transport.md R290 to R297): from its issue to the start of its transmission. -/

namespace Sys2Proof.Machine

section
variable {s : State} {k : Nat} {w : Wiring} {n : Instance} {q : InFlight} {ok : Bool}

/-- The streams a frame is built from: of each active channel its own, and of the others none. -/
def Instance.streams (p : Params) (n : Instance) : Pair (List Bool) :=
  ⟨if (n.ch.get .i0).valid then n.stream p .i0 else [], if (n.ch.get .i1).valid then n.stream p .i1 else []⟩

theorem Instance.streams_get (p : Params) (n : Instance) (c : Idx) :
    (n.streams p).get c = if (n.ch.get c).valid then n.stream p c else [] := by cases c <;> rfl

theorem State.Leads.refl (ph : Phase) : s.Leads k n q ok 0 ph ph := fun _ => rfl

/-- Channel 1 after channel 0: encoded, passed over with its gap where it has no pixels, or not active. -/
theorem leads_second (hn : s.inst? k = some (w, n)) (x : List Bool) :
    ∃ d ≤ (n.ch.get .i1).count.toNat, s.Leads k n q ok d (nextPhase s.params n (Idx.later .i0) ⟨x, []⟩)
      (.build ⟨x, if (n.ch.get .i1).valid then n.stream s.params .i1 else []⟩) := by
  rw [nextPhase_later]
  cases h1 : (n.ch.get .i1).valid with
  | false => exact ⟨0, Nat.zero_le _, State.Leads.refl _⟩
  | true =>
    by_cases hcount : (n.ch.get .i1).count = 0
    · have hgap : n.stream s.params .i1 = resetGap s.params (n.ch.get .i1) :=
        streamOf_no_pixels s.params n .i1 (by rw [hcount]; rfl)
      rw [if_pos ⟨rfl, rfl⟩, if_pos hcount, if_pos rfl, hgap]
      exact ⟨0, Nat.zero_le _, State.Leads.refl _⟩
    · have hpos : (n.ch.get .i1).count.toNat ≠ 0 := fun hzero => hcount (BitVec.eq_of_toNat_eq hzero)
      rw [if_pos ⟨rfl, rfl⟩, if_neg hcount, if_pos rfl]
      exact ⟨_, by omega, leads_enc_channel (c := .i1) hn rfl⟩

/-- Encoding makes the streams of the active channels, in one step for each pixel and at most one more. -/
theorem leads_firstPhase (hn : s.inst? k = some (w, n)) (hactive : ∃ c, (n.ch.get c).valid = true) :
    ∃ d ≤ (n.ch.get .i0).count.toNat + (n.ch.get .i1).count.toNat + 1,
      s.Leads k n q ok d (firstPhase n) (.build (n.streams s.params)) := by
  unfold Instance.streams
  cases h0 : (n.ch.get .i0).valid with
  | true =>
    rw [firstPhase_eq h0 (by simp [Idx.toNat]), if_pos rfl]
    obtain ⟨d, hd, hsecond⟩ := leads_second (q := q) (ok := ok) hn (n.stream s.params .i0)
    have hfirst := leads_enc_channel (q := q) (ok := ok) (c := .i0) (acc := ⟨[], []⟩) hn rfl
    exact ⟨_, by omega, hfirst.trans hsecond⟩
  | false =>
    have h1 : (n.ch.get .i1).valid = true := by
      obtain ⟨c, hc⟩ := hactive
      cases c
      · simp [h0] at hc
      · exact hc
    have hbelow (d : Idx) (hd : d.toNat < Idx.i1.toNat) : (n.ch.get d).valid = false := by
      cases d
      · exact h0
      · exact absurd hd (lt_irrefl _)
    rw [firstPhase_eq h1 hbelow, h1, if_pos rfl, if_neg Bool.false_ne_true]
    exact ⟨_, by omega, leads_enc_channel (c := .i1) hn rfl⟩

/-! ### From the build step to the transmission -/

theorem step_atPhase_build {ms : List Move} {l : Instance} {acc : Pair (List Bool)} (hn : s.inst? k = some (w, l)) :
    step (s.atPhase (.seq k ok :: ms) k n q (.build acc)) = .next (s.atPhase ms k (buildFrame n acc) q .wait) := by
  rw [step_build rfl (State.atPhase_inst? hn) rfl rfl, State.atPhase_set]
  rfl

theorem step_atPhase_wait {ms : List Move} {l : Instance} (hn : s.inst? k = some (w, l)) (hfree : n.tstate ≠ .transmitting) :
    step (s.atPhase (.seq k ok :: ms) k n q .wait) = .next (s.atPhase ms k n q .start) := by
  rw [step_waited rfl (State.atPhase_inst? hn) rfl hfree rfl, State.atPhase_set]
  rfl

/-- R296, for a command whose start is not refused. -/
theorem step_atPhase_start {ms : List Move} {l : Instance} (hn : s.inst? k = some (w, l))
    (hfree : n.tstate ≠ .transmitting) (herr : n.errpend = false) (hcmd : q.cmd = .render ∨ q.cmd = .rendernb) :
    step (s.atPhase (.seq k true :: ms) k n q .start) = .next (State.setInst { s with sched := ms } k (n.started q.cmd)) := by
  have hbegins := startPhase_begins (p := s.params) (n := { n with sq := some { q with phase := .start } }) (ok := true)
    herr hcmd (.inl rfl)
  rw [step_start rfl (State.atPhase_inst? hn) rfl hfree rfl, State.atPhase_set]
  exact congrArg (fun m => Host.Outcome.next (State.setInst { s with sched := ms } k m)) hbegins

/-- A sequencer with no command in flight takes no step; the moves are used up (log 5). -/
theorem run_seq_idle {d : Nat} {rest : List Move} (hn : s.inst? k = some (w, n)) (hq : n.sq = none)
    (hs : s.sched = List.replicate d (.seq k ok) ++ rest) :
    Sys2Proof.core.run d s = .next { s with sched := rest } := by
  induction d generalizing s with
  | zero => rw [← show s.sched = rest from hs]; rfl
  | succ d ih =>
    have hstep : step s = .next { s with sched := List.replicate d (.seq k ok) ++ rest } := by
      have hidle := seqMove_of_not_ready (s := { s with sched := List.replicate d (.seq k ok) ++ rest }) ok hn
        (by simp [Instance.seqReady, hq])
      rw [List.replicate_succ, List.cons_append] at hs
      simp [step, hs, perform, hidle]
    rw [run_step d _ _ hstep]
    exact ih hn rfl

/-- Three steps build the frame, end the wait and start the transmission; further moves find nothing to do. -/
theorem run_from_build {acc : Pair (List Bool)} (hn : s.inst? k = some (w, n)) (hfree : n.tstate ≠ .transmitting)
    (herr : n.errpend = false) (hcmd : q.cmd = .render ∨ q.cmd = .rendernb) (e : Nat) (rest : List Move) :
    Sys2Proof.core.run (e + 3) (s.atPhase (List.replicate (e + 3) (.seq k true) ++ rest) k n q (.build acc))
      = .next (State.setInst { s with sched := rest } k ((buildFrame n acc).started q.cmd)) := by
  have hbuild := run_step (e + 2) _ _
    (step_atPhase_build (ok := true) (n := n) (q := q) (acc := acc) (ms := List.replicate (e + 2) (.seq k true) ++ rest) hn)
  have hwait := run_step (e + 1) _ _ (step_atPhase_wait (ok := true) (q := q) (n := buildFrame n acc)
    (ms := List.replicate (e + 1) (.seq k true) ++ rest) hn hfree)
  have hstart := run_step e _ _
    (step_atPhase_start (n := buildFrame n acc) (ms := List.replicate e (.seq k true) ++ rest) hn hfree herr hcmd)
  have hidle := State.setInst_inst?_self (s := { s with sched := List.replicate e (.seq k true) ++ rest })
    ((buildFrame n acc).started q.cmd) hn
  exact hbuild.trans (hwait.trans (hstart.trans (run_seq_idle hidle rfl rfl)))

end

/-! ### The obligation -/

/-- Settles O43: the encode phases of the active channels (`leads_firstPhase`), then the frame, the wait and the start
(`run_from_build`). -/
theorem renderTransmitsTheFrame : Obligations.RenderTransmitsTheFrame := by
  intro s rest k m w n cmd a h acc hn hcmd hq hready herr hactive hm hs hh hacc
  have hstreams : acc = n.streams s.params := Pair.ext_get fun c => (hacc c).trans (n.streams_get s.params c).symm
  have hseq : nextSeq n.seq = h := hh.symm
  obtain ⟨d, hd, hleads⟩ := leads_firstPhase (q := ⟨cmd, a, firstPhase n⟩) (ok := true) hn hactive
  obtain ⟨e, rfl⟩ : ∃ e, m = d + (e + 3) := ⟨m - d - 3, by omega⟩
  rw [List.replicate_add, List.append_assoc] at hs
  have hencoded := hleads (List.replicate (e + 3) (.seq k true) ++ rest)
  rw [State.atPhase_self hn hq hs] at hencoded
  rw [run_add Sys2Proof.core d (e + 3) _ _ hencoded, run_from_build hn (by simp [hready]) herr hcmd, ← hstreams, ← hseq]
  rfl

end Sys2Proof.Machine
end

section
/-! SUPPORT. A whole transmission (44_transport.md R320, R321): what the drain puts on the lines, word-step after word-step. -/

namespace Sys2Proof.Machine

/-! ### Words and the stream they hold -/

/-- `W` words of 32 bits that hold a list, and 0 past its end, are the list padded with 0. -/
theorem flatMap_words_eq_padded {l : List Bool} {W : Nat} {word : Nat → Nat → Bool} (hl : l.length ≤ 32 * W)
    (hword : ∀ j b, j < W → b < 32 → word j b = l.getD (32 * j + b) false) :
    ((List.range W).flatMap fun j => (List.range 32).map (word j)) = l ++ List.replicate (32 * W - l.length) false := by
  have hlength : ((List.range W).flatMap fun j => (List.range 32).map (word j)).length = 32 * W := by
    rw [List.flatMap, length_flatten_of_length 32]
    · simp [mul_comm]
    · simp
  refine List.ext_getElem? fun i => ?_
  rcases Nat.lt_or_ge i (32 * W) with hi | hi
  · have hj : i / 32 < W := by omega
    have hb : i % 32 < 32 := by omega
    have hdiv : i / 32 * 32 + i % 32 = i := by omega
    have hbit : ((List.range W).flatMap fun j => (List.range 32).map (word j))[i]? = some (l.getD i false) := by
      conv_lhs => rw [← hdiv]
      rw [getElem?_flatMap_of_length (by simp) _ _ hb]
      simp [hj, hb, hword, show 32 * (i / 32) + i % 32 = i by omega]
    rw [hbit, List.getElem?_append]
    split
    · rename_i hlt
      simp [hlt]
    · rename_i hge
      have hpad : i - l.length < 32 * W - l.length := by omega
      simp [hpad, Nat.not_lt.mp hge]
  · rw [List.getElem?_eq_none (by omega), List.getElem?_eq_none (by simp; omega)]

/-! ### The word-steps of a transmission -/

section
variable {n m : Instance} {t : Idx}

/-- What word-step `d` of the front buffer puts on a slot's line. -/
def Instance.wordBits (n : Instance) (t : Idx) (d : Nat) : List Bool :=
  match n.channelOn t with
  | none => []
  | some c => (List.range 32).map fun m =>
      (Memory.read zeroFill (n.buf.get n.front) (2 * d + t.toNat)).getLsbD (31 - m) ^^ (n.ch.get c).invert

theorem stepBits_eq_wordBits (n : Instance) (t : Idx) : stepBits n t = n.wordBits t n.dpos := by
  refine (stepBits_eq n t).trans ?_
  unfold Instance.wordBits
  cases n.channelOn t <;> rfl

theorem Instance.wordBits_congr (hch : m.ch = n.ch) (hbuf : m.buf = n.buf) (hfront : m.front = n.front) :
    m.wordBits = n.wordBits := by
  funext t d
  simp only [Instance.wordBits, Instance.channelOn_congr hch, hch, hbuf, hfront]

/-- The instance when the drain has emitted `d` word-steps from here and the frame has ended. -/
def Instance.drained (n : Instance) (d : Nat) : Instance := { n with
  tstate := .ready, dpos := n.dpos + d, line := n.idleLines
  emitted := ⟨n.emitted.at0 ++ (List.range' n.dpos d).flatMap (n.wordBits .i0),
    n.emitted.at1 ++ (List.range' n.dpos d).flatMap (n.wordBits .i1)⟩ }

/-- The last word-step. -/
theorem drainGood_last (hlast : n.dpos + 1 = n.flen.get n.front) : drainGood n = n.drained 1 := by
  unfold drainGood
  dsimp only
  rw [if_pos hlast, Instance.emitBoth_eq, stepBits_eq_wordBits, stepBits_eq_wordBits]
  simp [Instance.drained]

/-- A word-step before the last, and the rest of the frame after it. -/
theorem drainGood_drained {d : Nat} (hmore : n.dpos + 1 ≠ n.flen.get n.front) :
    (drainGood n).drained d = n.drained (d + 1) := by
  have hgood : drainGood n = { n with
      dpos := n.dpos + 1, line := (drainGood n).line
      emitted := ⟨n.emitted.at0 ++ n.wordBits .i0 n.dpos, n.emitted.at1 ++ n.wordBits .i1 n.dpos⟩ } := by
    unfold drainGood
    dsimp only
    rw [if_neg hmore, Instance.emitBoth_eq, stepBits_eq_wordBits, stepBits_eq_wordBits]
  have hbits : (drainGood n).wordBits = n.wordBits := by
    rw [hgood]
    exact Instance.wordBits_congr rfl rfl rfl
  have hidle : (drainGood n).idleLines = n.idleLines := by
    rw [hgood]
    exact Instance.idleLines_congr rfl
  rw [Instance.drained, hbits, hidle, hgood]
  simp only [Instance.drained, List.range'_succ, List.flatMap_cons, List.append_assoc, Nat.add_assoc, Nat.add_comm 1]

end

/-! ### The run of a drain -/

/-- From a word-step of the frame on, one drain step for each word-step left. -/
theorem run_drain {s : State} {k d : Nat} {w : Wiring} {n : Instance} {rest : List Move}
    (hn : s.inst? k = some (w, n)) (ht : n.tstate = .transmitting) (hlen : n.dpos + (d + 1) = n.flen.get n.front)
    (hs : s.sched = List.replicate (d + 1) (.drain k .good) ++ rest) :
    Sys2Proof.core.run (d + 1) s = .next (State.setInst { s with sched := rest } k (n.drained (d + 1))) := by
  induction d generalizing s n with
  | zero =>
    have hstep := step_drainGood (ms := rest) hs hn (.inl rfl) (Instance.draining_iff.mpr ⟨ht, by omega⟩)
    rw [drainGood_last hlen] at hstep
    exact run_step 0 _ _ hstep
  | succ d ih =>
    have hstep := step_drainGood (ms := List.replicate (d + 1) (.drain k .good) ++ rest) hs hn (.inl rfl)
      (Instance.draining_iff.mpr ⟨ht, by omega⟩)
    have hmore : n.dpos + 1 ≠ n.flen.get n.front := by omega
    obtain ⟨hdpos, -, -, ⟨hlast, -⟩ | ⟨-, hkept⟩⟩ := drainGood_facts n
    · exact absurd hlast hmore
    · have hframe := drainInst_frame s.params n .good
      rw [drainInst_good (.inl rfl)] at hframe
      obtain ⟨-, -, -, -, hflen, hfront, -⟩ := hframe
      have hnext := State.setInst_inst?_self
        (s := { s with sched := List.replicate (d + 1) (.drain k .good) ++ rest }) (drainGood n) hn
      have hrun := ih hnext (hkept.trans ht) (by rw [hdpos, hflen, hfront]; omega) rfl
      rw [drainGood_drained hmore] at hrun
      have hset := State.setInst_setInst { s with sched := rest } k (drainGood n) (n.drained (d + 1 + 1))
      exact (run_step (d + 1) _ _ hstep).trans (hrun.trans (congrArg _ hset))

/-! ### The obligation -/

/-- Settles O44: the run is `run_drain`, and the word-steps of a slot in use are its padded stream
(`flatMap_words_eq_padded`). -/
theorem linesCarryTheStreams : Obligations.LinesCarryTheStreams := by
  intro s rest k W w n acc hn ht hzero hlen hpos hstreams hwords hs out idle
  obtain ⟨d, rfl⟩ := Nat.exists_eq_add_of_le' hpos
  have hout (t : Idx) : (List.range' n.dpos (d + 1)).flatMap (n.wordBits t) = out t := by
    rw [hzero, ← List.range_eq_range']
    cases hc : n.channelOn t with
    | none =>
      have hbits : n.wordBits t = fun _ => [] := by funext j; simp [Instance.wordBits, hc]
      simp [hbits, out, hc]
    | some c =>
      have hbits : n.wordBits t = fun j => ((List.range 32).map fun b =>
          (Memory.read zeroFill (n.buf.get n.front) (2 * j + t.toNat)).getLsbD (31 - b)).map
            (· ^^ (n.ch.get c).invert) := by
        funext j
        simp [Instance.wordBits, hc]
      have hpadded := flatMap_words_eq_padded (hstreams c (channelOn_some hc).1) fun j b hj hb => hwords j t c b hj hb hc
      simp only [out, hc, hbits, ← List.map_flatMap, hpadded]
  rw [run_drain hn ht (by omega) hs, Instance.drained, hout, hout, idleLines_mk, hzero, Nat.zero_add]
  rfl

end Sys2Proof.Machine
end

section
/-! SUPPORT. The pseudo-instructions (30_encoding.md R140 to R142): what each expands to, and the steps of a host thread that
makes its own checks (log 26). -/

namespace Sys2Proof.Machine

/-! ### What a checked pseudo-instruction expands to -/

/-- The `GAMMAWR` of an entry of a table (R141). -/
def gammaStore (base : Nat) (ch : BitVec 2) (j v : Nat) : HostOp :=
  .store base 4 (0x4#4 ++ 0#2 ++ ch ++ 0#8 ++ BitVec.ofNat 8 j ++ BitVec.ofNat 8 v)

theorem asmCmd_gammawr (base : Nat) (ch : BitVec 2) (j v : Nat) :
    asmCmd base (.gammawr ch (BitVec.ofNat 8 j) (BitVec.ofNat 8 v)) = gammaStore base ch j v :=
  congrArg (HostOp.store base 4) (formatC_bytes 0x4 ch 0 (BitVec.ofNat 8 j) (BitVec.ofNat 8 v))

theorem gammaOps_eq_map (base : Nat) (ch : BitVec 2) (j : Nat) (table : List Nat) :
    gammaOps base ch j table =
      (List.range table.length).map fun d => gammaStore base ch (j + d) (table.getD d 0) := by
  induction table generalizing j with
  | nil => rfl
  | cons v vs ih =>
    rw [gammaOps, ih, asmCmd_gammawr, List.length_cons, List.range_succ_eq_map, List.map_cons, List.map_map]
    simp [Function.comp_def, Nat.add_assoc, Nat.add_comm 1]

theorem rangeOps_eq_flatMap (base : Nat) (ch : BitVec 2) (i : Nat) (vs : List Word) :
    rangeOps base ch i vs =
      (List.range vs.length).flatMap fun d => asmSet base ch (BitVec.ofNat 24 (i + d)) (vs.getD d 0) := by
  induction vs generalizing i with
  | nil => rfl
  | cons v vs ih =>
    rw [rangeOps, ih, List.length_cons, List.range_succ_eq_map, List.flatMap_cons, List.flatMap_map]
    simp [Nat.add_assoc, Nat.add_comm 1]

theorem gammaTableOk_iff {table : List Nat} : gammaTableOk table = true ↔ table.length = 256 ∧ ∀ g ∈ table, g ≤ 255 := by
  simp [gammaTableOk]

/-! ### The steps of a thread -/

/-- The state with the schedule and thread `h` as said. -/
def State.onThread (s : State) (ms : List Move) (h : Nat) (t : HostThread) : State :=
  { s with sched := ms, hosts := s.hosts.set h t }

section
variable {s : State} {ms : List Move} {h : Nat} {th : HostThread} {base : Nat} {ch : BitVec 2} {first : Nat} {vs : List Word}
  {rest : List HostOp}

theorem State.onThread_hosts (hh : s.hosts[h]? = some th) (t : HostThread) : (s.onThread ms h t).hosts[h]? = some t := by
  obtain ⟨hlt, -⟩ := List.getElem?_eq_some_iff.mp hh
  simp [State.onThread, hlt]

theorem State.onThread_onThread (ms' : List Move) (t t' : HostThread) :
    (s.onThread ms h t).onThread ms' h t' = s.onThread ms' h t' := by
  simp [State.onThread]

theorem step_setGamma_refused {table : List Nat} (hs : s.sched = .host h :: ms) (hh : s.hosts[h]? = some th)
    (hp : th.prog = .setGamma base ch table :: rest) (hbad : table.length ≠ 256 ∨ ∃ g ∈ table, 255 < g) :
    step s = .next (s.onThread ms h { th with prog := rest, pres := .invalidConfiguration }) := by
  have hnot : ¬ gammaTableOk table = true := by
    rw [gammaTableOk_iff]
    rintro ⟨hlen, hall⟩
    rcases hbad with hbad | ⟨g, hg, hgt⟩
    · exact hbad hlen
    · exact absurd (hall g hg) (Nat.not_le.mpr hgt)
  rw [step_host hs hh hp, hostOp, if_neg hnot]
  rfl

theorem step_setGamma {table : List Nat} (hs : s.sched = .host h :: ms) (hh : s.hosts[h]? = some th)
    (hp : th.prog = .setGamma base ch table :: rest) (hlen : table.length = 256) (hall : ∀ g ∈ table, g ≤ 255) :
    step s = .next (s.onThread ms h { th with prog := gammaOps base ch 0 table ++ rest, pres := .ok }) := by
  rw [step_host hs hh hp, hostOp, if_pos (gammaTableOk_iff.mpr ⟨hlen, hall⟩)]
  rfl

theorem step_setRange (hs : s.sched = .host h :: ms) (hh : s.hosts[h]? = some th)
    (hp : th.prog = .setRange base ch first vs :: rest) :
    step s = .next (s.onThread ms h
      { th with prog := asmLen base ch ++ .rangeGuard base ch first vs :: rest }) := by
  rw [step_host hs hh hp]
  rfl

theorem step_rangeGuard_refused (hs : s.sched = .host h :: ms) (hh : s.hosts[h]? = some th)
    (hp : th.prog = .rangeGuard base ch first vs :: rest) (hlt : th.rdata.toNat < first + vs.length) :
    step s = .next (s.onThread ms h { th with prog := rest, pres := .indexOutOfRange }) := by
  rw [step_host hs hh hp, hostOp, if_neg (Nat.not_le.mpr hlt)]
  rfl

theorem step_rangeGuard (hs : s.sched = .host h :: ms) (hh : s.hosts[h]? = some th)
    (hp : th.prog = .rangeGuard base ch first vs :: rest) (hle : first + vs.length ≤ th.rdata.toNat) :
    step s = .next (s.onThread ms h { th with prog := rangeOps base ch first vs ++ rest, pres := .ok }) := by
  rw [step_host hs hh hp, hostOp, if_pos hle]
  rfl

theorem step_fill {v : Word} {cnt : Nat} (hs : s.sched = .host h :: ms) (hh : s.hosts[h]? = some th)
    (hp : th.prog = .fill base ch v first cnt :: rest) :
    step s = .next (s.onThread ms h { th with prog := .setRange base ch first (List.replicate cnt v) :: rest }) := by
  rw [step_host hs hh hp]
  rfl

variable {k : Nat} {w : Wiring} {n : Instance}

/-- `wait_idle` is one read of `STATUS` after another until `BUSY` reads 0 (log 28). -/
theorem step_waitIdle (hs : s.sched = .host h :: ms) (hh : s.hosts[h]? = some th)
    (hp : th.prog = .waitIdle base :: rest) (hl : locate s.params (base + 0x04) = some (k, 0x04))
    (hn : s.inst? k = some (w, n)) :
    step s = .next (s.onThread ms h
      { th with prog := if n.sq = none then rest else .waitIdle base :: rest, rdata := n.readReg .status }) := by
  have hn' : State.inst? { s with sched := ms } k = some (w, n) := hn
  have hbusy : (n.readReg .status).getLsbD 2 = n.sq.isSome := n.status_busy
  rw [step_host hs hh hp, hostOp, accessReg_ok hl (r := .status) rfl]
  simp only [loadReg_found hn', hbusy]
  cases n.sq <;> rfl

/-! ### A `setRange` that does not fit -/

/-- The instance that has answered `PIXLEN` (R182). -/
def Instance.afterLen (n : Instance) (c : Idx) : Instance :=
  { n with presult := (n.ch.get c).count.setWidth 32, presultCode := .ok }

/-- The system after a `PIXLEN` of channel `c` at instance `k`. -/
def State.afterLen (s : State) (k : Nat) (n : Instance) (c : Idx) : State :=
  State.setInst { s with sel := k } k (n.afterLen c)

/-- The `PIXLEN` that `setRange` asks for the length with. -/
theorem step_pixlen {c : Idx} {t : HostThread} (hh : s.hosts[h]? = some th)
    (hl : locate s.params (base + 0x80) = some (k, 0x80)) (hn : s.inst? k = some (w, n)) (hc : ch.toNat = c.toNat) :
    step (s.onThread (.host h :: ms) h { t with prog := asmCmd base (.pixlen ch) :: rest })
      = .next ((s.afterLen k n c).onThread ms h { t with prog := rest }) := by
  have hd : decode .pixel (encode (.pixlen ch)) = .ok (.pixlen ch) := decodeInvertsEncode (.pixlen ch)
  have hstep := step_store_pcmd (s := s.onThread (.host h :: ms) h { t with prog := asmCmd base (.pixlen ch) :: rest })
    rfl (State.onThread_hosts hh _) rfl hl hn
  rw [hstep, issueWord_of_ok hd, exec_pixlen_of_eq hn hc]
  simp only [State.onThread, List.set_set]
  rfl

/-- The read of the length. -/
theorem step_presult {t : HostThread} (hh : s.hosts[h]? = some th)
    (hl : locate s.params (base + 0x8C) = some (k, 0x8C)) (hn : s.inst? k = some (w, n)) :
    step (s.onThread (.host h :: ms) h { t with prog := asmRd base 0x8C :: rest })
      = .next (s.onThread ms h { t with prog := rest, rdata := n.presult }) := by
  have hstep := step_load (s := s.onThread (.host h :: ms) h { t with prog := asmRd base 0x8C :: rest }) (r := .presult)
    rfl (State.onThread_hosts hh _) hl rfl rfl
  refine (hstep.trans (loadReg_found hn)).trans ?_
  simp only [State.onThread, State.setHost, List.set_set]
  rfl

/-- Four steps: `setRange` asks for the length, reads it, and finds that the range does not fit. -/
theorem run_setRange_refused {c : Idx} (hs : s.sched = List.replicate 4 (.host h) ++ ms) (hh : s.hosts[h]? = some th)
    (hp : th.prog = .setRange base ch first vs :: rest) (hport : locate s.params (base + 0x80) = some (k, 0x80))
    (hlen : locate s.params (base + 0x8C) = some (k, 0x8C)) (hn : s.inst? k = some (w, n)) (hc : ch.toNat = c.toNat)
    (hlt : (n.ch.get c).count.toNat < first + vs.length) :
    Sys2Proof.core.run 4 s = .next ((s.afterLen k n c).onThread ms h
      { th with prog := rest, rdata := (n.ch.get c).count.setWidth 32, pres := .indexOutOfRange }) := by
  have hh' : (s.afterLen k n c).hosts[h]? = some th := hh
  have hn' : (s.afterLen k n c).inst? k = some (w, n.afterLen c) :=
    State.setInst_inst?_self (s := { s with sel := k }) (n.afterLen c) hn
  have hshort : (n.afterLen c).presult.toNat < first + vs.length := by
    have hcount : (n.afterLen c).presult.toNat = (n.ch.get c).count.toNat := Channel.mirror_count_toNat (n.ch.get c)
    rwa [hcount]
  have hask := step_setRange (ms := .host h :: .host h :: .host h :: ms) hs hh hp
  have hanswer := step_pixlen (t := th) (ms := .host h :: .host h :: ms)
    (rest := asmRd base 0x8C :: .rangeGuard base ch first vs :: rest) hh hport hn hc
  have hread := step_presult (t := th) (ms := .host h :: ms) (rest := .rangeGuard base ch first vs :: rest) hh' hlen hn'
  have hguard := step_rangeGuard_refused (th := { th with
    prog := .rangeGuard base ch first vs :: rest, rdata := (n.afterLen c).presult }) rfl
    (State.onThread_hosts (ms := .host h :: ms) hh' _) rfl hshort
  rw [State.onThread_onThread] at hguard
  exact (run_step 3 _ _ hask).trans <| (run_step 2 _ _ hanswer).trans <| (run_step 1 _ _ hread).trans <|
    run_step 0 _ _ hguard

end

/-! ### The obligation -/

/-- Settles O60: the host's own checks and expansions are the steps above, the four steps of a `setRange` that does not fit
are `run_setRange_refused`, and the other expansions are the assembler's words. -/
theorem pseudoInstructionsCheckFirst : Obligations.PseudoInstructionsCheckFirst := by
  refine ⟨fun s ms h th base ch table first vs v cnt rest hs hh => ?checks,
    fun s ms h k th base ch c first vs rest w n hs hh hp hport hlen hn hc hlt =>
      run_setRange_refused hs hh hp hport hlen hn hc hlt,
    fun s ms h k th base rest w n hs hh hp hl hn => step_waitIdle hs hh hp hl hn, fun base ch => ?words⟩
  case checks =>
    refine ⟨fun hp hbad => step_setGamma_refused hs hh hp hbad, fun hp hlen hall => ?gamma, fun hp => step_setRange hs hh hp,
      fun hp hlt => step_rangeGuard_refused hs hh hp hlt, fun hp hle => ?range, fun hp => step_fill hs hh hp⟩
    case gamma =>
      rw [step_setGamma hs hh hp hlen hall, gammaOps_eq_map, hlen]
      simp only [Nat.zero_add]
      rfl
    case range =>
      rw [step_rangeGuard hs hh hp hle, rangeOps_eq_flatMap]
      rfl
  case words =>
    intro pin f d inv b st cnt hnd v br i
    exact ⟨rfl, rfl, rfl, rfl, rfl, rfl, rfl, rfl, rfl, rfl⟩

end Sys2Proof.Machine
end
